-- ==== Sys2Proof/Config.lean ====
section
/-! DEFINITION. The implementation parameters of the block (00_scope.md R5): what is fixed when the block is built.
The two parameters the spec leaves OPEN (92_eei_decisions.md, "Open parameters") are `cntW` and `emptyReject`; each stands
here at the value this hardware takes, and nowhere else. The spec yields no value that is left free
(93_implementation_defined.md: every outcome is "a defined value, a fault, or a refusal"), so nothing here is opaque. -/

namespace Sys2Proof.Config

/-- `CNT_W`, the width of a frequency count, of `NBYTES` and of a node weight (R5, D4). -/
abbrev cntW : Nat := 64

/-- `EMPTY_REJECT`: whether `BLD` rejects zero-byte input (R5, R106, D8). `Machine.bldBody` takes it as an argument, so
the behaviour under either value is in the model; `execBld` gives it this hardware's value. -/
def emptyReject : Bool := false

/-- `LMAX`, the largest codeword length that is not a LengthOverflow (R5, D12). -/
abbrev lmax : Nat := 255

/-- `NSYM`, the alphabet size: 256 byte values and END (R5). -/
abbrev nsym : Nat := 257

/-- `END`, the symbol number of the pseudo-end-of-stream symbol (R5, R11, D5); also its leaf's node identifier (R18). -/
abbrev endSym : Nat := 256

/-- The identifier of the first internal node `BLD` creates (R18, R101). -/
abbrev firstInternal : Nat := 257

/-- `NNODE`, the number of tree-node identifiers (R5). -/
abbrev nnode : Nat := 513

/-- `CODE_W`, the width of a stored codeword value and of `ASG`'s counter (R5). -/
abbrev codeW : Nat := 256

/-- `SLOT_W`, the width of a trie slot index (R5). -/
abbrev slotW : Nat := 256

end Sys2Proof.Config
end

