-- ==== Sys2Proof/Word.lean ====
section
/-! DEFINITION. The word types of the block (00_scope.md R5) and the shape of a table memory. -/

namespace Sys2Proof

/-- A command word, `CMD_W` = 16 bits (R5, R56). -/
abbrev Word := BitVec 16

/-- A byte of the input, of the output stream, of a length or of a header field. -/
abbrev Byte := BitVec 8

/-- A symbol number, `SYM_W` = 9 bits: 0 to 255 the byte values, 256 END (R11). -/
abbrev Symbol := BitVec 9

/-- A frequency count, `NBYTES` or a node weight, `CNT_W` bits (R5). -/
abbrev Count := BitVec Config.cntW

/-- A tree-node identifier, `NODE_W` = 10 bits (R18). -/
abbrev NodeId := BitVec 10

/-- A codeword value, `CODE_W` = 256 bits (R21). -/
abbrev CodeVal := BitVec Config.codeW

/-- A trie slot index, `SLOT_W` = 256 bits (R26). -/
abbrev SlotIdx := BitVec Config.slotW

/-- A partial map from an index to a value, as the pairs it holds. Canonical form: indices strictly rising
(`Machine.assocSorted`). `TRIE` is one (R26). -/
abbrev Assoc (α : Type) := List (Nat × α)

/-- A table memory of `w`-bit entries: the pairs of the entries that are not 0, every other entry reads 0, which is what
every entry holds after reset (R31). Canonical form: indices strictly rising and no entry 0 (`Machine.tableWf`), so that
equal tables are equal data. -/
abbrev Table (w : Nat) := Assoc (BitVec w)

end Sys2Proof
end

