-- ==== Sys2Proof/Syntax.lean ====
section
/-! DEFINITION. The twelve commands (30_encoding.md R59, one constructor per row of spec/opcode_table.json), and the
assembler's source lines and pseudo-instructions (R61, R62). -/

namespace Sys2Proof

/-- A command. `CNT`, `PKB`, `RHB` and `DCB` carry the operand byte `arg`; the other eight have none (R57, R58, R59). -/
inductive Instr where
  | clr
  | cnt (arg : Byte)
  | bld
  | len
  | asg
  | whd
  | pkb (arg : Byte)
  | pke
  | rhb (arg : Byte)
  | tri
  | dcb (arg : Byte)
  | eoi
deriving DecidableEq, Repr

/-- The mnemonics of R59. -/
inductive Mnemonic where
  | CLR | CNT | BLD | LEN | ASG | WHD | PKB | PKE | RHB | TRI | DCB | EOI
deriving DecidableEq, Repr

/-- The operand of a source line (R61): "a hexadecimal byte `0x41`, a decimal number `65`, or a character in single
quotes `'A'` meaning its ASCII code". -/
inductive SourceOperand where
  | hex (value : Nat)
  | dec (value : Nat)
  | chr (c : Char)
deriving DecidableEq, Repr

/-- One line of assembler source (R61). -/
structure SourceLine where
  mnemonic : Mnemonic
  operand : Option SourceOperand
deriving DecidableEq, Repr

/-- The pseudo-instructions of R62. -/
inductive Pseudo where
  | cnts (bytes : List Byte)
  | pkbs (bytes : List Byte)
  | rhbs (bytes : List Byte)
  | dcbs (bytes : List Byte)
  | canon
  | encode (bytes : List Byte)
deriving DecidableEq, Repr

/-- The command's opcode, bits 15 to 8 of its word (R57, R59). -/
def Instr.op : Instr → Byte
  | .clr => 0x00
  | .cnt _ => 0x01
  | .bld => 0x02
  | .len => 0x03
  | .asg => 0x04
  | .whd => 0x05
  | .pkb _ => 0x06
  | .pke => 0x07
  | .rhb _ => 0x08
  | .tri => 0x09
  | .dcb _ => 0x0A
  | .eoi => 0x0B

/-- The command's `arg` field, bits 7 to 0 of its word: 0x00 for a command without operand (R57). -/
def Instr.arg : Instr → Byte
  | .cnt b | .pkb b | .rhb b | .dcb b => b
  | .clr | .bld | .len | .asg | .whd | .pke | .tri | .eoi => 0x00

end Sys2Proof
end

