-- ==== Sys2Proof/WellFormed.lean ====
section
/-! DEFINITION. What is well formed: a command word (R59, R60), a source line (R61), an instruction. -/

namespace Sys2Proof

/-- One row of the opcode map: a word selects the row exactly when `word & mask = pattern` (R59). -/
structure OpcodeRow where
  mask : Word
  pattern : Word
deriving DecidableEq, Repr

/-- The rows of the four commands with an operand byte (R59: `mask = 0xFF00`). -/
def operandRows : List OpcodeRow :=
  [⟨0xFF00, 0x0100⟩, ⟨0xFF00, 0x0600⟩, ⟨0xFF00, 0x0800⟩, ⟨0xFF00, 0x0A00⟩]

/-- The rows of the eight commands without operand (R59: `mask = 0xFFFF`). -/
def plainRows : List OpcodeRow :=
  [⟨0xFFFF, 0x0000⟩, ⟨0xFFFF, 0x0200⟩, ⟨0xFFFF, 0x0300⟩, ⟨0xFFFF, 0x0400⟩,
   ⟨0xFFFF, 0x0500⟩, ⟨0xFFFF, 0x0700⟩, ⟨0xFFFF, 0x0900⟩, ⟨0xFFFF, 0x0B00⟩]

/-- The opcode map of R59. -/
def opcodeRows : List OpcodeRow := operandRows ++ plainRows

/-- `w` selects the row `r` (R59). -/
def OpcodeRow.selects (r : OpcodeRow) (w : Word) : Bool := w &&& r.mask == r.pattern

/-- `w` is a command word: it selects some row. Every other word is reserved (R60). -/
def commandWordWf (w : Word) : Bool := opcodeRows.any fun r => r.selects w

/-- The commands that take an operand byte (R57). -/
def Mnemonic.takesByte : Mnemonic → Bool
  | .CNT | .PKB | .RHB | .DCB => true
  | .CLR | .BLD | .LEN | .ASG | .WHD | .PKE | .TRI | .EOI => false

/-- The number an operand stands for (R61). -/
def SourceOperand.value : SourceOperand → Nat
  | .hex v => v
  | .dec v => v
  | .chr c => c.toNat

/-- An operand names a byte, and a quoted character has an ASCII code (R61). -/
def SourceOperand.wf : SourceOperand → Bool
  | .hex v => v < 256
  | .dec v => v < 256
  | .chr c => c.toNat < 128

/-- A source line has an operand exactly when its command takes one, and the operand is well formed (R61). -/
def SourceLine.wf (l : SourceLine) : Bool :=
  match l.operand with
  | none => !l.mnemonic.takesByte
  | some o => l.mnemonic.takesByte && o.wf

/-- An instruction is well formed when the word made of its two fields is a command word. `Instr` carries its operand as a
byte, so no ill-formed instruction can be built (`Laws.wf_all` proves it); what can be ill formed is a word or a source
line. -/
def Instr.wf (i : Instr) : Bool := commandWordWf (i.op ++ i.arg)

end Sys2Proof
end

