-- ==== Sys2Proof/Decode.lean ====
section
/-! DEFINITION. The decoder, total on every 16-bit word and rejecting reserved words by name (30_encoding.md R59, R60);
after it the encoder, from the same table; and the assembler of R61. -/

namespace Sys2Proof

/-- `op`, bits 15 to 8 of a command word (R57). -/
def opField (w : Word) : Byte := w.extractLsb' 8 8

/-- `arg`, bits 7 to 0 of a command word (R57). -/
def argField (w : Word) : Byte := w.extractLsb' 0 8

/-- Why a word is reserved (R60). -/
inductive DecodeError where
  /-- `op` is in 0x0C to 0xFF. -/
  | unassignedOpcode (op : Byte)
  /-- `op` is a command without operand and `arg` is not 0x00. -/
  | operandNotZero (op arg : Byte)
deriving DecidableEq, Repr

/-- A command without operand: its `arg` field must be 0x00 (R57, R60). -/
def decodePlain (i : Instr) (arg : Byte) : Except DecodeError Instr :=
  if arg = 0 then .ok i else .error (.operandNotZero i.op arg)

/-- The decoder: the opcode map of R59. -/
def decodeWord (w : Word) : Except DecodeError Instr :=
  match (opField w).toNat with
  | 0x00 => decodePlain .clr (argField w)
  | 0x01 => .ok (.cnt (argField w))
  | 0x02 => decodePlain .bld (argField w)
  | 0x03 => decodePlain .len (argField w)
  | 0x04 => decodePlain .asg (argField w)
  | 0x05 => decodePlain .whd (argField w)
  | 0x06 => .ok (.pkb (argField w))
  | 0x07 => decodePlain .pke (argField w)
  | 0x08 => .ok (.rhb (argField w))
  | 0x09 => decodePlain .tri (argField w)
  | 0x0A => .ok (.dcb (argField w))
  | 0x0B => decodePlain .eoi (argField w)
  | _ => .error (.unassignedOpcode (opField w))

/-- The encoder: the word of a command, `op` above `arg` (R57, R59). -/
def encodeWord (i : Instr) : Word := i.op ++ i.arg

/-- The words of a command: always one (R56). -/
def encode (i : Instr) : List Word := [encodeWord i]

/-- The host's interface: the instruction read from an instruction whose bits are `w`, of which the opcode table gives
the low `nbits`; the bits above are 0. A command is one 16-bit word and has no byte order (R45, R56). -/
def decodeTableWord (nbits w : Nat) : Option Instr :=
  match decodeWord (BitVec.ofNat 16 (w % 2 ^ nbits)) with
  | .ok i => some i
  | .error _ => none

/-- The command a mnemonic and an operand byte stand for; the operand is not used where the command takes none (R59). -/
def Mnemonic.instr (m : Mnemonic) (arg : Byte) : Instr :=
  match m with
  | .CLR => .clr
  | .CNT => .cnt arg
  | .BLD => .bld
  | .LEN => .len
  | .ASG => .asg
  | .WHD => .whd
  | .PKB => .pkb arg
  | .PKE => .pke
  | .RHB => .rhb arg
  | .TRI => .tri
  | .DCB => .dcb arg
  | .EOI => .eoi

/-- The assembler (R61): the command of a well-formed source line, `none` for an ill-formed one. -/
def assemble (l : SourceLine) : Option Instr :=
  if l.wf then
    some (l.mnemonic.instr (match l.operand with
      | some o => BitVec.ofNat 8 o.value
      | none => 0))
  else none

/-- The expansion of a pseudo-instruction (R62). -/
def Pseudo.expand : Pseudo → List Instr
  | .cnts bs => bs.map .cnt
  | .pkbs bs => bs.map .pkb
  | .rhbs bs => bs.map .rhb
  | .dcbs bs => bs.map .dcb
  | .canon => [.len, .asg]
  | .encode bs => [.clr] ++ bs.map .cnt ++ [.bld, .len, .asg, .whd] ++ bs.map .pkb ++ [.pke]

end Sys2Proof
end

