-- ==== Sys2Proof/Machine/State.lean ====
section
/-! DEFINITION. The state of the block (10_state.md), the reasons a step could stop, and the state after reset (R31). -/

namespace Sys2Proof.Machine

/-- `PHASE`, the state of the command sequencer (R12). Its 4-bit code is `Phase.code`; the codes 12, 13 and 14 are
"never held", so no constructor stands for them (log 8). -/
inductive Phase where
  | idle | count | tree | lens | codes | pack | encDone
  | hdr | hdrDone | dcodes | dec | decDone | fault
deriving DecidableEq, Repr

/-- `ERR`, the recorded fault (R13, R185). Its 4-bit code is `Err.code`; the codes 9 to 15 are "never recorded", so no
constructor stands for them (log 8). -/
inductive Err where
  /-- No fault recorded. -/
  | noFault
  /-- Zero-byte input offered to an encoder configured to reject it: raised by `BLD`. -/
  | emptyAlphabet
  /-- A codeword length above 255: raised by `LEN`. -/
  | lengthOverflow
  /-- A truncated or malformed header: raised by `RHB`, `ASG`, `EOI`. -/
  | corruptHeader
  /-- The bit walk leaves the trie, or the input ends before END: raised by `DCB`, `EOI`. -/
  | corruptStream
  /-- A command that is not legal in the current phase. -/
  | badSequence
  /-- A reserved command word. -/
  | badOpcode
  /-- More than `2^CNT_W - 2` input bytes: raised by `CNT`. -/
  | countOverflow
  /-- A byte value that has no codeword: raised by `PKB`. -/
  | noCode
deriving DecidableEq, Repr

/-- What the host can present to the block: a command word on the command port (R41), or the reset input (R210). -/
inductive Input where
  | word (w : Word)
  | rst
deriving DecidableEq, Repr

/-- The faults that END a run of the model: there are none, so the type has no constructor. The block's own faults are
latched in `ERR` and the machine goes on (R190, R192); they are next states (log 11). -/
inductive Fault where
deriving DecidableEq, Repr

/-- The reasons the model has no meaning for an instruction. -/
inductive Refusal where
  /-- Raised by `exec` alone, for an instruction without a meaning in the model. No arm raises it. Safe: the model stops
  where the hardware goes on. -/
  | notModelled (mnemonic : String)
deriving DecidableEq, Repr

/-- The state of the block: the fifteen scalar registers and seven tables that R29 lists as "exactly" the block's, the
output log `OUT` (R28), and the model's own `input` (log 1). -/
structure State where
  /-- What the host has presented and the block has not taken, oldest first (R41). Not the block's state (R30, log 1). -/
  input : List Input
  /-- `PHASE` (R12). -/
  phase : Phase
  /-- `ERR` (R13). -/
  err : Err
  /-- `ERRCMD` (R14). -/
  errcmd : Word
  /-- `NBYTES` (R16). -/
  nbytes : Count
  /-- `FREQ[0..255]` (R17). -/
  freq : Table Config.cntW
  /-- `NODE_WT[0..512]` (R18). -/
  nodeWt : Table Config.cntW
  /-- `NODE_L[257..512]` (R18). -/
  nodeL : Table 10
  /-- `NODE_R[257..512]` (R18). -/
  nodeR : Table 10
  /-- `ROOT` (R19). -/
  root : NodeId
  /-- `NINT` (R19). -/
  nint : BitVec 9
  /-- `LENT[0..256]` (R20). -/
  lent : Table 8
  /-- `CODE[0..256]` (R21). -/
  code : Table Config.codeW
  /-- `MAXLEN` (R22). -/
  maxlen : Byte
  /-- `HPOS` (R23). -/
  hpos : BitVec 10
  /-- `HSIZE` (R23). -/
  hsize : BitVec 16
  /-- `HSYM` (R23). -/
  hsym : Byte
  /-- `HPREV` (R23). -/
  hprev : Byte
  /-- `ACC` (R25). -/
  acc : Byte
  /-- `NACC` (R25). -/
  nacc : BitVec 4
  /-- `TRIE` (R26): slot index to symbol. -/
  trie : Assoc Symbol
  /-- `SLOT` (R27). -/
  slot : SlotIdx
  /-- `DEPTH` (R27). -/
  depth : Byte
  /-- `OUT` (R28): every byte emitted since reset, in order. -/
  out : List Byte
deriving DecidableEq, Repr

/-- The block right after reset (R31, R210): every element as the spec's table gives it, and nothing presented yet. -/
def State.reset : State where
  input := []
  phase := .idle
  err := .noFault
  errcmd := 0
  nbytes := 0
  freq := []
  nodeWt := []
  nodeL := []
  nodeR := []
  root := 0
  nint := 0
  lent := []
  code := []
  maxlen := 0
  hpos := 0
  hsize := 0
  hsym := 0
  hprev := 0
  acc := 0
  nacc := 0
  trie := []
  slot := 0
  depth := 0
  out := []

/-- The outcome of a step of this block. -/
abbrev Result := Host.Outcome State Fault Refusal

end Sys2Proof.Machine
end

