-- ==== Sys2Proof/Machine/Flags.lean ====
section
/-! DEFINITION. The codes of PHASE and ERR and what the host can read: `STATUS`, `ERRCMD` and the three level outputs,
which are the block's only flags (10_state.md R12, R15; 60_exceptions.md R185, R188). -/

namespace Sys2Proof.Machine

/-- The 4-bit code of a phase (R12). -/
def Phase.code : Phase → BitVec 4
  | .idle => 0
  | .count => 1
  | .tree => 2
  | .lens => 3
  | .codes => 4
  | .pack => 5
  | .encDone => 6
  | .hdr => 7
  | .hdrDone => 8
  | .dcodes => 9
  | .dec => 10
  | .decDone => 11
  | .fault => 15

/-- The 4-bit code of a recorded fault (R185). -/
def Err.code : Err → BitVec 4
  | .noFault => 0
  | .emptyAlphabet => 1
  | .lengthOverflow => 2
  | .corruptHeader => 3
  | .corruptStream => 4
  | .badSequence => 5
  | .badOpcode => 6
  | .countOverflow => 7
  | .noCode => 8

/-- `STATUS`: `STATUS[3:0] = PHASE`, `STATUS[7:4] = ERR` (R15). -/
def State.status (s : State) : Byte := s.err.code ++ s.phase.code

/-- The read-only port `ERRCMD` (R15). -/
def State.errcmdPort (s : State) : Word := s.errcmd

/-- The output `fault` (R15). -/
def State.faultOut (s : State) : Bool := s.phase == .fault

/-- The output `done` (R15). -/
def State.doneOut (s : State) : Bool := s.phase == .encDone || s.phase == .decDone

/-- The output `hdr_done` (R15). -/
def State.hdrDoneOut (s : State) : Bool := s.phase == .hdrDone

end Sys2Proof.Machine
end

