-- ==== Sys2Proof/Machine/Operands.lean ====
section
/-! DEFINITION. The one operand form of the block: `arg`, an unsigned byte (30_encoding.md R58). -/

namespace Sys2Proof.Machine

/-- `zext_9(arg)`: the symbol an operand byte names, always a real symbol 0 to 255 (R58). -/
def operandSymbol (arg : Byte) : Symbol := arg.setWidth 9

/-- The table index of the symbol an operand byte names (R58, R179). -/
def operandIndex (arg : Byte) : Nat := (operandSymbol arg).toNat

/-- Bit `k` of a stream byte (R6); `DCB` takes them from 7 down to 0 (R44). -/
def operandBit (arg : Byte) (k : Nat) : Bool := arg.getLsbD k

/-- The low byte of a symbol, the byte `DCB` emits for a real symbol (R155). -/
def symbolByte (s : Symbol) : Byte := s.setWidth 8

end Sys2Proof.Machine
end

