-- ==== Sys2Proof/Machine/Ops.lean ====
section
/-! DEFINITION. The operations every command is written over: table reads and writes, `emit`, raising a fault and the
return from it, and the sequencer's legality check (00_scope.md R6; 40_sequencer.md R80, R81; 60_exceptions.md R190). -/

namespace Sys2Proof.Machine

/-! ### Partial maps and tables -/

/-- The value at index `i`, if the map holds one. -/
def assocFind {α : Type} : Assoc α → Nat → Option α
  | [], _ => none
  | (k, v) :: rest, i => if k = i then some v else assocFind rest i

/-- The map without index `i`. -/
def assocErase {α : Type} : Assoc α → Nat → Assoc α
  | [], _ => []
  | (k, v) :: rest, i => if k = i then assocErase rest i else (k, v) :: assocErase rest i

/-- Put a pair in its place among rising indices. -/
def assocInsert {α : Type} : Assoc α → Nat → α → Assoc α
  | [], i, x => [(i, x)]
  | (k, v) :: rest, i, x => if i < k then (i, x) :: (k, v) :: rest else (k, v) :: assocInsert rest i x

/-- The map with `x` at index `i`, whatever it held there. -/
def assocPut {α : Type} (m : Assoc α) (i : Nat) (x : α) : Assoc α := assocInsert (assocErase m i) i x

/-- The canonical form of a partial map: indices strictly rising. -/
def assocSorted {α : Type} : Assoc α → Bool
  | [] => true
  | [_] => true
  | (k, _) :: (k', v') :: rest => k < k' && assocSorted ((k', v') :: rest)

/-- `T[i]` (R6): the entry at `i`, 0 where the table lists none. -/
def tableGet {w : Nat} (t : Table w) (i : Nat) : BitVec w := (assocFind t i).getD 0

/-- `T[i] <- v` (R6), keeping the canonical form: writing 0 lists nothing. -/
def tableSet {w : Nat} (t : Table w) (i : Nat) (v : BitVec w) : Table w :=
  if v = 0 then assocErase t i else assocPut t i v

/-- The canonical form of a table whose entries are `lo` to `hi - 1`: rising indices in that range, no entry 0. -/
def tableWf {w : Nat} (lo hi : Nat) (t : Table w) : Bool :=
  assocSorted t && t.all fun p => decide (lo ≤ p.1) && decide (p.1 < hi) && decide (p.2 ≠ 0)

/-- The symbols in ascending order, 0 to 256 (R11, R115, R153). -/
def symbols : List Nat := List.range Config.nsym

/-- The byte values in ascending order, 0 to 255. -/
def byteValues : List Nat := List.range Config.endSym

/-- The unsigned maximum (R6). -/
def umax {w : Nat} (a b : BitVec w) : BitVec w := if a < b then b else a

/-! ### Emitting a byte -/

/-- `emit(b)`: append a byte to `OUT` (R6, R28, R43). -/
def emit (b : Byte) (s : State) : State := { s with out := s.out ++ [b] }

/-- Emit several bytes, the first first. -/
def emitAll (bs : List Byte) (s : State) : State := { s with out := s.out ++ bs }

/-! ### Taking a fault, and the return from it -/

/-- `raise F`, executed by the command word `w` (R190): `ERR` and `ERRCMD` record it, `PHASE` becomes FAULT, and nothing
else changes; no vector is fetched and nothing is saved elsewhere. -/
def raise (f : Err) (w : Word) (s : State) : State := { s with err := f, errcmd := w, phase := .fault }

/-- The return from FAULT and the start of a call (R83, R192): every element of 10_state.md except `OUT` gets its reset
value (R31); what the host has presented stays presented. -/
def clear (s : State) : State := { State.reset with input := s.input, out := s.out }

/-- The reset input (R210): every element gets its reset value, `OUT` too (R211). -/
def resetBlock (s : State) : State := { State.reset with input := s.input }

/-! ### The sequencer's check -/

/-- The legality table of R81: the phases in which a command is legal. -/
def legalPhases : Instr → List Phase
  | .clr => [.idle, .count, .tree, .lens, .codes, .pack, .encDone, .hdr, .hdrDone, .dcodes, .dec, .decDone, .fault]
  | .cnt _ => [.idle, .count]
  | .bld => [.idle, .count]
  | .len => [.tree]
  | .asg => [.lens, .hdrDone]
  | .whd => [.codes]
  | .pkb _ => [.pack]
  | .pke => [.pack]
  | .rhb _ => [.idle, .hdr]
  | .tri => [.dcodes]
  | .dcb _ => [.dec, .decDone]
  | .eoi => [.hdr, .hdrDone, .dcodes, .dec, .decDone]

/-- Whether a command is legal in a phase (R81). -/
def legal (i : Instr) (p : Phase) : Bool := decide (p ∈ legalPhases i)

/-- The sequencer's steps 1, 3 and 4 for a command `i` (R80): in FAULT a command that is not legal there is discarded
with no state change (R193); elsewhere a command out of phase raises `BadSequence`; else `body`, the command's own rule,
runs. -/
def sequenced (i : Instr) (body : State → State) (s : State) : State :=
  if legal i s.phase then body s
  else if s.phase = .fault then s
  else raise .badSequence (encodeWord i) s

/-- The sequencer's steps 1 and 2 for a reserved word `w` (R60, R80): discarded in FAULT, `BadOpcode` elsewhere. -/
def reservedWord (w : Word) (s : State) : State :=
  if s.phase = .fault then s else raise .badOpcode w s

end Sys2Proof.Machine
end

