-- ==== Sys2Proof/Machine/BitPacker.lean ====
section
/-! DEFINITION. The unit huffman_bitpacker: `PKB` and `PKE` (45_bitpacker.md R140 to R144). -/

namespace Sys2Proof.Machine

/-- `((ACC << 1) | bit) [7:0]` (R141). -/
def shiftIn (acc : Byte) (bit : Bool) : Byte := (acc <<< 1) ||| (BitVec.ofBool bit).setWidth 8

/-- One turn of `append_bits` (R141): shift a bit in; when eight are held, emit them. -/
def appendBit (bit : Bool) (s : State) : State :=
  if s.nacc + 1 = 8 then { emit (shiftIn s.acc bit) s with acc := 0, nacc := 0 }
  else { s with acc := shiftIn s.acc bit, nacc := s.nacc + 1 }

/-- `append_bits(c, L)` (R141): the bits `c[L-1]` down to `c[0]`. -/
def appendBits (c : CodeVal) : Nat → State → State
  | 0, s => s
  | i + 1, s => appendBits c i (appendBit (c.getLsbD i) s)

/-- Append the codeword of a symbol (R142, R143). -/
def appendCodeword (sym : Nat) (s : State) : State :=
  appendBits (tableGet s.code sym) (tableGet s.lent sym).toNat s

/-- The rule of `PKB` (R142). -/
def pkbBody (arg : Byte) (s : State) : State :=
  if tableGet s.lent (operandIndex arg) = 0 then raise .noCode (encodeWord (.pkb arg)) s
  else { appendCodeword (operandIndex arg) s with phase := .pack }

/-- `PKB arg` (R142). -/
def execPkb (arg : Byte) (s : State) : Result := .next (sequenced (.pkb arg) (pkbBody arg) s)

/-- `(ACC << (8 - NACC)) [7:0]`: the last byte, padded on the right with zero bits (R143). -/
def paddedByte (s : State) : Byte := s.acc <<< (8 - s.nacc.toNat)

/-- The flush: a partly filled byte is padded and emitted; nothing is emitted when no bit is held (R143). -/
def flush (s : State) : State :=
  if s.nacc = 0 then s else { emit (paddedByte s) s with acc := 0, nacc := 0 }

/-- The rule of `PKE` (R143). -/
def pkeBody (s : State) : State := { flush (appendCodeword Config.endSym s) with phase := .encDone }

/-- `PKE` (R143). -/
def execPke (s : State) : Result := .next (sequenced .pke pkeBody s)

end Sys2Proof.Machine
end

