-- ==== Sys2Proof/Machine/Canonicalizer.lean ====
section
/-! DEFINITION. The unit huffman_canonicalizer: `LEN` and `ASG` (43_canonicalizer.md R110 to R118). -/

namespace Sys2Proof.Machine

/-! ### LEN -/

/-- The depth at which the walk of the tree stops: one more than the largest legal length, "at most 256" (R111). -/
def walkLimit : Nat := Config.lmax + 1

/-- The walk of the tree from a node (R111): each leaf below `node` (identifier 0 to 256) with its depth, where `node` is
at depth `walkLimit - fuel`. A tree `BLD` builds has no node deeper than `walkLimit`; in a node memory that is no such
tree, an internal node met at depth `walkLimit` is listed there itself, which makes `LEN` raise its fault (log 4). -/
def leafDepths (left right : Table 10) : Nat → Nat → List (Nat × Nat)
  | 0, node => [(node, walkLimit)]
  | fuel + 1, node =>
    if node ≤ Config.endSym then [(node, walkLimit - (fuel + 1))]
    else
      leafDepths left right fuel (tableGet left node).toNat
        ++ leafDepths left right fuel (tableGet right node).toNat

/-- `d`: the reachable leaves with their codeword lengths (R110, R111); the tree that is the END leaf alone gives END
the length 1, not its depth 0 (R112). -/
def codewordLengths (s : State) : List (Nat × Nat) :=
  if s.root.toNat = Config.endSym then [(Config.endSym, 1)]
  else leafDepths s.nodeL s.nodeR walkLimit s.root.toNat

/-- `LENT[s] <- d[s] if s is a reachable leaf, else 0` (R110). -/
def lengthTable (d : List (Nat × Nat)) : Table 8 := d.foldl (fun t p => tableSet t p.1 (BitVec.ofNat 8 p.2)) []

/-- The largest entry of a length table over all 257 symbols (R22, R110). -/
def maxLength (lent : Table 8) : Byte := symbols.foldl (fun m s => umax m (tableGet lent s)) 0

/-- The rule of `LEN` (R110). -/
def lenBody (s : State) : State :=
  if (codewordLengths s).any fun p => decide (Config.lmax < p.2) then raise .lengthOverflow (encodeWord .len) s
  else
    { s with
      lent := lengthTable (codewordLengths s)
      maxlen := maxLength (lengthTable (codewordLengths s))
      nodeWt := []
      nodeL := []
      nodeR := []
      root := 0
      nint := 0
      phase := .lens }

/-- `LEN` (R110). -/
def execLen (s : State) : Result := .next (sequenced .len lenBody s)

/-! ### ASG -/

/-- What `ASG` works on: its counter `code` and the code table being filled (R115). -/
structure Assign where
  code : CodeVal
  table : Table Config.codeW
deriving DecidableEq, Repr

/-- The bucket of length `L`: each of the symbols listed that has that length gets the counter's value, and the counter
goes up by one; `none` where `code >= 2^L` (R115, R118). -/
def assignBucket (lent : Table 8) (L : Nat) : List Nat → Assign → Option Assign
  | [], a => some a
  | s :: rest, a =>
    if (tableGet lent s).toNat = L then
      if 2 ^ L ≤ a.code.toNat then none
      else assignBucket lent L rest { code := a.code + 1, table := tableSet a.table s a.code }
    else assignBucket lent L rest a

/-- `code <- (code + 1) >> 1`, after every bucket (R115, R116). -/
def levelUp (a : Assign) : Assign := { a with code := (a.code + 1) >>> 1 }

/-- The buckets from length `L` down to 1, each with its symbols in ascending order (R115). -/
def assignFrom (lent : Table 8) : Nat → Assign → Option Assign
  | 0, a => some a
  | L + 1, a =>
    match assignBucket lent (L + 1) symbols a with
    | none => none
    | some a' => assignFrom lent L (levelUp a')

/-- The canonical assignment: the code table for the lengths `lent`, over the old table; `none` where the lengths
over-subscribe the code space (R115, R118). -/
def canonicalCodes (lent : Table 8) (maxlen : Byte) (old : Table Config.codeW) : Option (Table Config.codeW) :=
  (assignFrom lent maxlen.toNat { code := 0, table := old }).map Assign.table

/-- The rule of `ASG` (R115); on the fault `CODE` is unchanged. -/
def asgBody (s : State) : State :=
  match canonicalCodes s.lent s.maxlen s.code with
  | none => raise .corruptHeader (encodeWord .asg) s
  | some table => { s with code := table, phase := if s.phase = .lens then .codes else .dcodes }

/-- `ASG` (R115). -/
def execAsg (s : State) : Result := .next (sequenced .asg asgBody s)

end Sys2Proof.Machine
end

