-- ==== Sys2Proof/Machine/FrequencyCounter.lean ====
section
/-! DEFINITION. The unit huffman_frequency_counter: `CNT` (41_frequency_counter.md R95). -/

namespace Sys2Proof.Machine

/-- `2^CNT_W - 2`, the largest number of bytes that may be counted (R95). -/
def countLimit : Count := BitVec.ofNat Config.cntW (2 ^ Config.cntW - 2)

/-- The rule of `CNT` (R95). -/
def cntBody (arg : Byte) (s : State) : State :=
  if s.nbytes = countLimit then raise .countOverflow (encodeWord (.cnt arg)) s
  else
    { s with
      freq := tableSet s.freq (operandIndex arg) (tableGet s.freq (operandIndex arg) + 1)
      nbytes := s.nbytes + 1
      phase := .count }

/-- `CNT arg` (R95). -/
def execCnt (arg : Byte) (s : State) : Result := .next (sequenced (.cnt arg) (cntBody arg) s)

end Sys2Proof.Machine
end

