-- ==== Sys2Proof/Machine/HeaderCodec.lean ====
section
/-! DEFINITION. The unit huffman_header_codec: `WHD` and `RHB` (44_header_codec.md R125 to R130). -/

namespace Sys2Proof.Machine

/-! ### WHD -/

/-- The byte values that have a codeword, ascending (R125). -/
def codedBytes (lent : Table 8) : List Nat := byteValues.filter fun s => tableGet lent s ≠ 0

/-- `alphabet_size`: the number of real symbols, and one for END (R65, R125). -/
def alphabetSize (lent : Table 8) : BitVec 16 := BitVec.ofNat 16 ((codedBytes lent).length + 1)

/-- The header of a length table (R65, R125): the size, high byte first, END's length, then a pair for each byte value
that has a codeword. -/
def headerBytes (lent : Table 8) : List Byte :=
  [(alphabetSize lent).extractLsb' 8 8, (alphabetSize lent).extractLsb' 0 8, tableGet lent Config.endSym]
    ++ (codedBytes lent).flatMap fun s => [BitVec.ofNat 8 s, tableGet lent s]

/-- The rule of `WHD` (R125). -/
def whdBody (s : State) : State := { emitAll (headerBytes s.lent) s with acc := 0, nacc := 0, phase := .pack }

/-- `WHD` (R125). -/
def execWhd (s : State) : Result := .next (sequenced .whd whdBody s)

/-! ### RHB, by the value of `HPOS` (R127) -/

/-- Byte 0: the high byte of `alphabet_size`. -/
def rhbSizeHigh (arg : Byte) (s : State) : State :=
  { s with hsize := arg ++ s.hsize.extractLsb' 0 8, hpos := 1, phase := .hdr }

/-- `alphabet_size` once its low byte is `arg` (R127). -/
def sizeWithLow (arg : Byte) (s : State) : BitVec 16 := s.hsize.extractLsb' 8 8 ++ arg

/-- Byte 1: the low byte of `alphabet_size`, which must make it 1 to 257 (R128). -/
def rhbSizeLow (arg : Byte) (s : State) : State :=
  if sizeWithLow arg s = 0 ∨ 257 < (sizeWithLow arg s).toNat then raise .corruptHeader (encodeWord (.rhb arg)) s
  else { s with hsize := sizeWithLow arg s, hpos := 2 }

/-- Byte 2: `end_length`, not 0; with an alphabet of END alone the header is complete. -/
def rhbEndLength (arg : Byte) (s : State) : State :=
  if arg = 0 then raise .corruptHeader (encodeWord (.rhb arg)) s
  else
    { s with
      lent := tableSet s.lent Config.endSym arg
      maxlen := arg
      hpos := 3
      phase := if s.hsize = 1 then .hdrDone else s.phase }

/-- A symbol byte: above the previous pair's symbol, where there is one. -/
def rhbSymbol (arg : Byte) (s : State) : State :=
  if 3 < s.hpos.toNat ∧ arg ≤ s.hprev then raise .corruptHeader (encodeWord (.rhb arg)) s
  else { s with hsym := arg, hpos := s.hpos + 1 }

/-- A length byte, not 0; the last one completes the header. -/
def rhbLength (arg : Byte) (s : State) : State :=
  if arg = 0 then raise .corruptHeader (encodeWord (.rhb arg)) s
  else
    { s with
      lent := tableSet s.lent (operandIndex s.hsym) arg
      maxlen := umax s.maxlen arg
      hprev := s.hsym
      hpos := s.hpos + 1
      phase := if (s.hpos + 1).toNat = 3 + 2 * (s.hsize.toNat - 1) then .hdrDone else s.phase }

/-- The rule of `RHB` (R127). -/
def rhbBody (arg : Byte) (s : State) : State :=
  if s.hpos = 0 then rhbSizeHigh arg s
  else if s.hpos = 1 then rhbSizeLow arg s
  else if s.hpos = 2 then rhbEndLength arg s
  else if s.hpos.toNat % 2 = 1 then rhbSymbol arg s
  else rhbLength arg s

/-- `RHB arg` (R127). -/
def execRhb (arg : Byte) (s : State) : Result := .next (sequenced (.rhb arg) (rhbBody arg) s)

end Sys2Proof.Machine
end

