-- ==== Sys2Proof/Machine/Sequencer.lean ====
section
/-! DEFINITION. The system commands: `CLR` and `EOI` (40_sequencer.md R83, R84). -/

namespace Sys2Proof.Machine

/-- `CLR` (R83): legal in every phase. -/
def execClr (s : State) : Result := .next (sequenced .clr clear s)

/-- The rule of `EOI` (R84). -/
def eoiBody (s : State) : State :=
  match s.phase with
  | .hdr => raise .corruptHeader (encodeWord .eoi) s
  | .hdrDone | .dcodes | .dec => raise .corruptStream (encodeWord .eoi) s
  | .decDone => s
  | .idle | .count | .tree | .lens | .codes | .pack | .encDone | .fault => s

/-- `EOI` (R84). -/
def execEoi (s : State) : Result := .next (sequenced .eoi eoiBody s)

end Sys2Proof.Machine
end

