-- ==== Sys2Proof/Machine/TreeBuilder.lean ====
section
/-! DEFINITION. The unit huffman_tree_builder: `BLD` (42_tree_builder.md R100 to R107). -/

namespace Sys2Proof.Machine

/-- The real symbols present, ascending: `R = { s in 0..255 : FREQ[s] > 0 }` (R100). -/
def presentSymbols (freq : Table Config.cntW) : List Nat := byteValues.filter fun s => tableGet freq s ≠ 0

/-- The queue order (R102): by weight, then by node identifier. -/
def queueBefore (wt : Table Config.cntW) (x y : Nat) : Bool :=
  tableGet wt x < tableGet wt y || (tableGet wt x == tableGet wt y && x < y)

/-- The first of `x` and the nodes of a list in the queue order (R102). -/
def queueFirst (wt : Table Config.cntW) : Nat → List Nat → Nat
  | x, [] => x
  | x, y :: rest => queueFirst wt (if queueBefore wt y x then y else x) rest

/-- `extract_min(Q)` (R102): the first node of the queue and the queue without it. -/
def extractMin (wt : Table Config.cntW) : List Nat → Option (Nat × List Nat)
  | [] => none
  | x :: rest => some (queueFirst wt x rest, (x :: rest).erase (queueFirst wt x rest))

/-- What `BLD` works on: the node memory, the queue and the number of merges done (R104). -/
structure Merge where
  wt : Table Config.cntW
  left : Table 10
  right : Table 10
  queue : List Nat
  k : Nat
deriving DecidableEq, Repr

/-- One merge of the nodes `a` and `b`, taken from a queue that leaves `rest` (R103, R104): the internal node `257 + k`
gets the sum of their weights, `a` as left and `b` as right child. -/
def mergeNodes (a b : Nat) (rest : List Nat) (m : Merge) : Merge where
  wt := tableSet m.wt (Config.firstInternal + m.k) (tableGet m.wt a + tableGet m.wt b)
  left := tableSet m.left (Config.firstInternal + m.k) (BitVec.ofNat 10 a)
  right := tableSet m.right (Config.firstInternal + m.k) (BitVec.ofNat 10 b)
  queue := (Config.firstInternal + m.k) :: rest
  k := m.k + 1

/-- One turn of the merge loop: nothing when fewer than two nodes are queued (R104). -/
def mergeTurn (m : Merge) : Merge :=
  match extractMin m.wt m.queue with
  | none => m
  | some (a, q) =>
    match extractMin m.wt q with
    | none => m
    | some (b, rest) => mergeNodes a b rest m

/-- The merge loop (R104), `fuel` turns; a turn with one node queued does nothing, so any `fuel` from the number of real
symbols on gives the loop `while |Q| > 1`. -/
def mergeLoop : Nat → Merge → Merge
  | 0, m => m
  | fuel + 1, m => mergeLoop fuel (mergeTurn m)

/-- The weights of the leaves written into the node memory: `FREQ[s]` for each real symbol, 1 for END (R100, R104). -/
def leafWeights (freq wt : Table Config.cntW) : Table Config.cntW :=
  tableSet ((presentSymbols freq).foldl (fun t s => tableSet t s (tableGet freq s)) wt) Config.endSym 1

/-- The loop's start: the leaves queued, nothing merged (R104). -/
def mergeStart (s : State) : Merge where
  wt := leafWeights s.freq s.nodeWt
  left := s.nodeL
  right := s.nodeR
  queue := presentSymbols s.freq ++ [Config.endSym]
  k := 0

/-- The whole merge (R104). -/
def mergeAll (s : State) : Merge := mergeLoop (presentSymbols s.freq).length (mergeStart s)

/-- `BLD` when a real symbol is present (R104). -/
def bldTree (s : State) : State :=
  { s with
    nodeWt := (mergeAll s).wt
    nodeL := (mergeAll s).left
    nodeR := (mergeAll s).right
    root := BitVec.ofNat 10 ((mergeAll s).queue.headD 0)
    nint := BitVec.ofNat 9 (mergeAll s).k
    phase := .tree }

/-- `BLD` on zero-byte input that is not rejected: the tree that is the END leaf alone (R106). -/
def bldEndOnly (s : State) : State :=
  { s with
    nodeWt := tableSet s.nodeWt Config.endSym 1
    root := BitVec.ofNat 10 Config.endSym
    nint := 0
    phase := .tree }

/-- The rule of `BLD` for either value of `EMPTY_REJECT` (R104, R106). -/
def bldBody (emptyReject : Bool) (s : State) : State :=
  if presentSymbols s.freq = [] then
    if emptyReject then raise .emptyAlphabet (encodeWord .bld) s else bldEndOnly s
  else bldTree s

/-- `BLD` (R104), with this hardware's `EMPTY_REJECT`. -/
def execBld (s : State) : Result := .next (sequenced .bld (bldBody Config.emptyReject) s)

end Sys2Proof.Machine
end

