-- ==== Sys2Proof/Machine/TrieDecoder.lean ====
section
/-! DEFINITION. The unit huffman_bit_trie_decoder: `TRI` and `DCB` (46_bit_trie_decoder.md R150 to R158). -/

namespace Sys2Proof.Machine

/-- `child(i, bit) = 2*i + 1 + bit` in 256-bit arithmetic (R151). -/
def child (i : SlotIdx) (bit : Bool) : SlotIdx := 2 * i + 1 + (BitVec.ofBool bit).setWidth Config.slotW

/-! ### TRI -/

/-- The walk from slot `i` along the bits `c[j-1]` down to `c[0]` (R153). -/
def childWalk (c : CodeVal) : Nat → SlotIdx → SlotIdx
  | 0, i => i
  | j + 1, i => childWalk c j (child i (c.getLsbD j))

/-- The slot at which a symbol is stored: the end of the walk of its codeword from the start slot (R153). -/
def symbolSlot (lent : Table 8) (code : Table Config.codeW) (sym : Nat) : SlotIdx :=
  childWalk (tableGet code sym) (tableGet lent sym).toNat 0

/-- Store one symbol, if it has a codeword (R153). -/
def insertSymbol (lent : Table 8) (code : Table Config.codeW) (trie : Assoc Symbol) (sym : Nat) : Assoc Symbol :=
  if tableGet lent sym = 0 then trie
  else assocPut trie (symbolSlot lent code sym).toNat (BitVec.ofNat 9 sym)

/-- The trie of a code table: empty, then each symbol in ascending order (R153). -/
def buildTrie (lent : Table 8) (code : Table Config.codeW) : Assoc Symbol :=
  symbols.foldl (insertSymbol lent code) []

/-- The rule of `TRI` (R153). -/
def triBody (s : State) : State :=
  { s with trie := buildTrie s.lent s.code, slot := 0, depth := 0, phase := .dec }

/-- `TRI` (R153). -/
def execTri (s : State) : Result := .next (sequenced .tri triBody s)

/-! ### DCB -/

/-- The slot and depth after one more bit (R155). -/
def stepDown (bit : Bool) (s : State) : State := { s with slot := child s.slot bit, depth := s.depth + 1 }

/-- Back at the start slot (R155). -/
def toStartSlot (s : State) : State := { s with slot := 0, depth := 0 }

/-- The bits `arg[k-1]` down to `arg[0]` of the byte of command word `w`, walked one by one; what earlier bits wrote and
emitted stands when a later one faults (R155, R157), and bits after END are ignored (R156). -/
def walkBits (w : Word) (arg : Byte) : Nat → State → State
  | 0, s => { s with phase := .dec }
  | k + 1, s =>
    if s.depth = s.maxlen then raise .corruptStream w s
    else
      match assocFind (stepDown (operandBit arg k) s).trie (stepDown (operandBit arg k) s).slot.toNat with
      | none => walkBits w arg k (stepDown (operandBit arg k) s)
      | some sym =>
        if sym.toNat = Config.endSym then { toStartSlot (stepDown (operandBit arg k) s) with phase := .decDone }
        else walkBits w arg k (emit (symbolByte sym) (toStartSlot (stepDown (operandBit arg k) s)))

/-- The rule of `DCB` (R155, R158). -/
def dcbBody (arg : Byte) (s : State) : State :=
  if s.phase = .decDone then s else walkBits (encodeWord (.dcb arg)) arg 8 s

/-- `DCB arg` (R155). -/
def execDcb (arg : Byte) (s : State) : Result := .next (sequenced (.dcb arg) (dcbBody arg) s)

end Sys2Proof.Machine
end

