-- ==== Sys2Proof/Machine/Dispatch.lean ====
section
/-! DEFINITION. One arm per command (30_encoding.md R59). -/

namespace Sys2Proof.Machine

def exec (i : Instr) (s : State) : Host.Outcome State Fault Refusal :=
  match i with
  | .clr => Sys2Proof.Machine.execClr s
  | .cnt arg => Sys2Proof.Machine.execCnt arg s
  | .bld => Sys2Proof.Machine.execBld s
  | .len => Sys2Proof.Machine.execLen s
  | .asg => Sys2Proof.Machine.execAsg s
  | .whd => Sys2Proof.Machine.execWhd s
  | .pkb arg => Sys2Proof.Machine.execPkb arg s
  | .pke => Sys2Proof.Machine.execPke s
  | .rhb arg => Sys2Proof.Machine.execRhb arg s
  | .tri => Sys2Proof.Machine.execTri s
  | .dcb arg => Sys2Proof.Machine.execDcb arg s
  | .eoi => Sys2Proof.Machine.execEoi s

end Sys2Proof.Machine
end

