-- ==== Sys2Proof/Machine/Fetch.lean ====
section
/-! DEFINITION. Taking the next thing the host presented (20_memory.md R41; 40_sequencer.md R80; 70_reset_and_hazards.md
R210), and presenting something to the block. -/

namespace Sys2Proof.Machine

/-- One command word, executed (R80): a command runs, a reserved word raises `BadOpcode` or is discarded. -/
def executeWord (w : Word) (s : State) : Result :=
  match decodeWord w with
  | .ok i => exec i s
  | .error _ => .next (reservedWord w s)

/-- Take the oldest input and act on it: a command word is executed whole before the next is taken (R41, R80), a reset
event resets the block (R210). With nothing presented the block is idle and loses no state (R200). -/
def takeInput (s : State) : Result :=
  match s.input with
  | [] => .next s
  | .rst :: rest => .next (resetBlock { s with input := rest })
  | .word w :: rest => executeWord w { s with input := rest }

/-- Present a command word so that it is the next thing the block takes. -/
def presentNext (w : Word) (s : State) : State := { s with input := .word w :: s.input }

/-- The word of the opcode table's numbering: one 16-bit word, bits above `nbits` 0. -/
def tableWord (nbits w : Nat) : Word := BitVec.ofNat 16 (w % 2 ^ nbits)

end Sys2Proof.Machine
end

