-- ==== Sys2Proof/Machine/Step.lean ====
section
/-! DEFINITION. One step of the block, and the host's way to have it run one instruction. -/

namespace Sys2Proof.Machine

/-- One step: the block takes the next thing the host has presented and executes it whole (R41, R80, R210). -/
def step : State → Host.Outcome State Fault Refusal := fun s => takeInput s

/-- The block fetches nothing (R12): a command runs when the host presents its word on the command port (R41). This
presents the word first in line, so that the very next step takes it (log 10). -/
def State.withFetchWord (s : State) (nbits w : Nat) : State := presentNext (tableWord nbits w) s

end Sys2Proof.Machine
end

