-- ==== Sys2Proof/Machine/Procedures.lean ====
section
/-! DEFINITION. The two host procedures of 47_composite_and_properties.md (R165, R166): what a host does with the block to
encode and to decode a byte sequence. The block executes no stored program; these are the host's side. -/

namespace Sys2Proof.Machine

/-- The state a step leaves; a step of this block always answers a next state (`Laws.step_next`). -/
def settle (s : State) : State :=
  match step s with
  | .next t => t
  | .fault _ => s
  | .refused _ => s

/-- The host presents one command word and the block executes it. -/
def issueWord (w : Word) (s : State) : State := settle (presentNext w s)

/-- The host issues one command. -/
def issue (i : Instr) (s : State) : State := issueWord (encodeWord i) s

/-- The host issues commands in order. -/
def issueAll (is : List Instr) (s : State) : State := is.foldl (fun t i => issue i t) s

/-- What a host procedure ends with (R165, R166): the bytes collected, or the failure named. `unfinished` is a call that
is neither complete nor faulted. -/
inductive CallResult where
  | bytes (bs : List Byte)
  | failed (e : Err)
  | unfinished
deriving DecidableEq, Repr

/-- Read the result of a call that began with `OUT` at length `start` (R165, R166). -/
def callResult (finished : Phase) (start : Nat) (s : State) : CallResult :=
  if s.phase = finished then .bytes (s.out.drop start)
  else if s.phase = .fault then .failed s.err
  else .unfinished

/-- `encode(S)` on a block in state `s` (R165). -/
def encodeCall (S : List Byte) (s : State) : CallResult :=
  callResult .encDone s.out.length (issueAll (Pseudo.encode S).expand s)

/-- Issue `i` when the block is in phase `p`; R166's "if PHASE = p". -/
def issueIn (p : Phase) (i : Instr) (s : State) : State := if s.phase = p then issue i s else s

/-- "while i < m and PHASE is IDLE or HDR: RHB Z[i]" (R166): the state after it and the bytes left. -/
def feedHeader : List Byte → State → State × List Byte
  | [], s => (s, [])
  | b :: rest, s => if s.phase = .idle ∨ s.phase = .hdr then feedHeader rest (issue (.rhb b) s) else (s, b :: rest)

/-- "while i < m and PHASE = DEC: DCB Z[i]" (R166). -/
def feedPayload : List Byte → State → State
  | [], s => s
  | b :: rest, s => if s.phase = .dec then feedPayload rest (issue (.dcb b) s) else s

/-- The commands between the header and the payload (R166): `EOI` where the input ended inside the header, else `ASG` and
`TRI`. -/
def afterHeader (s : State) : State := issueIn .dcodes .tri (issueIn .hdrDone .asg (issueIn .hdr .eoi s))

/-- The state `decode(Z)` leaves, for a sequence that is not empty (R166). -/
def decodeRun (Z : List Byte) (s : State) : State :=
  issueIn .dec .eoi
    (feedPayload (feedHeader Z (issue .clr s)).2 (afterHeader (feedHeader Z (issue .clr s)).1))

/-- `decode(Z)` on a block in state `s` (R166); with no byte at all the host itself reports `CorruptHeader`. -/
def decodeCall (Z : List Byte) (s : State) : CallResult :=
  if Z = [] then .failed .corruptHeader else callResult .decDone s.out.length (decodeRun Z s)

end Sys2Proof.Machine
end

