-- ==== Sys2Proof/Safety.lean ====
section
/-! DEFINITION. The terms claims are stated in: frames, faults, bit strings, the Kraft sum, code tables, the queue and the
depths of the tree as the spec's text gives them (not as the model computes them), and the invariants of the block. -/

namespace Sys2Proof.Safety

open Sys2Proof.Machine

/-! ### Safe runs, faults and frames -/

/-- A state in which no fault is recorded: what a run must stay in to give a result (R177). -/
def Sound (s : State) : Prop := s.phase ≠ .fault

/-- What `raise F` by the word `w` leaves (R190, R191): `ERR`, `ERRCMD`, `PHASE`, and nothing else changed. -/
def FaultedBy (f : Err) (w : Word) (s t : State) : Prop := t = { s with err := f, errcmd := w, phase := .fault }

/-- The FrequencyCounter's state is unchanged. -/
def SameCounts (s t : State) : Prop := t.nbytes = s.nbytes ∧ t.freq = s.freq

/-- The node memory, `ROOT` and `NINT` are unchanged. -/
def SameTree (s t : State) : Prop :=
  t.nodeWt = s.nodeWt ∧ t.nodeL = s.nodeL ∧ t.nodeR = s.nodeR ∧ t.root = s.root ∧ t.nint = s.nint

/-- `LENT` and `MAXLEN` are unchanged. -/
def SameLengths (s t : State) : Prop := t.lent = s.lent ∧ t.maxlen = s.maxlen

/-- `CODE` is unchanged. -/
def SameCodes (s t : State) : Prop := t.code = s.code

/-- The header cursor is unchanged. -/
def SameCursor (s t : State) : Prop := t.hpos = s.hpos ∧ t.hsize = s.hsize ∧ t.hsym = s.hsym ∧ t.hprev = s.hprev

/-- The bit accumulator is unchanged. -/
def SameAcc (s t : State) : Prop := t.acc = s.acc ∧ t.nacc = s.nacc

/-- `TRIE` is unchanged. -/
def SameTrie (s t : State) : Prop := t.trie = s.trie

/-- `SLOT` and `DEPTH` are unchanged. -/
def SameWalk (s t : State) : Prop := t.slot = s.slot ∧ t.depth = s.depth

/-- `OUT` is unchanged. -/
def SameOut (s t : State) : Prop := t.out = s.out

/-- `ERR` and `ERRCMD` are unchanged. -/
def SameErr (s t : State) : Prop := t.err = s.err ∧ t.errcmd = s.errcmd

/-- What the host has presented is unchanged. -/
def SameInput (s t : State) : Prop := t.input = s.input

/-- The symbol has a codeword (R20). -/
def Coded (lent : Table 8) (sym : Nat) : Prop := sym ≤ Config.endSym ∧ tableGet lent sym ≠ 0

/-- Two states agree on what the unit of a command reads (R86). `CNT` reads the one entry of `FREQ` its operand names, and
`LEN` the children of the node memory. -/
def ReadsAgree (i : Instr) (s s' : State) : Prop :=
  match i with
  | .clr => True
  | .cnt b => s.nbytes = s'.nbytes ∧ tableGet s.freq b.toNat = tableGet s'.freq b.toNat
  | .bld => ∀ x, x < Config.endSym → tableGet s.freq x = tableGet s'.freq x
  | .len => s.nodeL = s'.nodeL ∧ s.nodeR = s'.nodeR ∧ s.root = s'.root
  | .asg => s.lent = s'.lent ∧ s.maxlen = s'.maxlen
  | .whd => s.lent = s'.lent
  | .pkb _ => s.lent = s'.lent ∧ SameCodes s s' ∧ SameAcc s s'
  | .pke => s.lent = s'.lent ∧ SameCodes s s' ∧ SameAcc s s'
  | .rhb _ => SameCursor s s'
  | .tri => s.lent = s'.lent ∧ SameCodes s s'
  | .dcb _ => SameTrie s s' ∧ SameWalk s s' ∧ s.maxlen = s'.maxlen
  | .eoi => True

/-- Two states end alike: in the same phase, and where a fault was raised with the same fault and word recorded. -/
def EndAlike (s t t' : State) : Prop :=
  t.phase = t'.phase ∧ (s.phase ≠ .fault → t.phase = .fault → SameErr t t')

/-- After a command completed from `s` and from `s'`, `t` and `t'` agree on what its unit wrote (R86). `ASG` writes the
entries of the symbols of length 1 to `MAXLEN` alone (R115); `RHB` writes at most one entry of `LENT`, and `MAXLEN` as a running maximum (R127). -/
def WritesAgree (i : Instr) (s s' t t' : State) : Prop :=
  match i with
  | .clr =>
    SameErr t t' ∧ SameCounts t t' ∧ SameTree t t' ∧ SameLengths t t' ∧ SameCodes t t' ∧ SameCursor t t' ∧ SameAcc t t'
      ∧ SameTrie t t' ∧ SameWalk t t'
  | .cnt b => t.nbytes = t'.nbytes ∧ tableGet t.freq b.toNat = tableGet t'.freq b.toNat
  | .bld => t.root = t'.root ∧ t.nint = t'.nint
  | .len => SameLengths t t' ∧ SameTree t t'
  | .asg => ∀ a, Coded s.lent a → tableGet s.lent a ≤ s.maxlen → tableGet t.code a = tableGet t'.code a
  | .whd => SameAcc t t'
  | .pkb _ => SameAcc t t'
  | .pke => SameAcc t t'
  | .rhb _ =>
    SameCursor t t' ∧ (∀ x, tableGet t.lent x ≠ tableGet s.lent x → tableGet t.lent x = tableGet t'.lent x)
      ∧ (s.maxlen = s'.maxlen → t.maxlen = t'.maxlen)
  | .tri => SameTrie t t' ∧ SameWalk t t'
  | .dcb _ => SameWalk t t'
  | .eoi => True

/-- Every table memory holds 0 everywhere and the trie is empty. -/
def TablesZero (t : State) : Prop :=
  (∀ i, tableGet t.freq i = 0 ∧ tableGet t.nodeWt i = 0 ∧ tableGet t.nodeL i = 0 ∧ tableGet t.nodeR i = 0
    ∧ tableGet t.lent i = 0 ∧ tableGet t.code i = 0 ∧ assocFind t.trie i = none)

/-- Every scalar register holds 0; `PHASE` is IDLE and no fault is recorded. -/
def ScalarsZero (t : State) : Prop :=
  t.phase = .idle ∧ t.err = .noFault ∧ t.errcmd = 0 ∧ t.nbytes = 0 ∧ t.root = 0 ∧ t.nint = 0 ∧ t.maxlen = 0
    ∧ t.hpos = 0 ∧ t.hsize = 0 ∧ t.hsym = 0 ∧ t.hprev = 0 ∧ t.acc = 0 ∧ t.nacc = 0 ∧ t.slot = 0 ∧ t.depth = 0

/-! ### Bit strings (R6, R44) -/

/-- The `L` low bits of a value, most significant first. -/
def bitsMsb {w : Nat} (c : BitVec w) : Nat → List Bool
  | 0 => []
  | i + 1 => c.getLsbD i :: bitsMsb c i

/-- The bits of a byte in stream order, bit 7 first (R44). -/
def byteBits (b : Byte) : List Bool := bitsMsb b 8

/-- The bits of a byte sequence in stream order (R44). -/
def streamBits (bs : List Byte) : List Bool := bs.flatMap byteBits

/-- The codeword of a symbol: the `LENT` low bits of its `CODE` entry, most significant first (R21, R67). -/
def codewordOf (lent : Table 8) (code : Table Config.codeW) (sym : Nat) : List Bool :=
  bitsMsb (tableGet code sym) (tableGet lent sym).toNat

/-- The payload bits produced and not yet emitted, oldest first (R25). -/
def pendingBits (s : State) : List Bool := bitsMsb s.acc s.nacc.toNat

/-- A bit string padded on the right with zero bits to a byte boundary (R46, R66). -/
def padToByte (bits : List Bool) : List Bool := bits ++ List.replicate ((8 - bits.length % 8) % 8) false

/-! ### Lengths and codes (R20, R21, R115 to R118) -/

/-- The Kraft sum of a length table, as a multiple of `2^-255` (R118): a symbol of length `L` counts `2^(255 - L)`. -/
def kraftSum (lent : Table 8) : Nat :=
  (symbols.map fun s => if tableGet lent s = 0 then 0 else 2 ^ (Config.lmax - (tableGet lent s).toNat)).sum

/-- The number that stands for the Kraft sum 1. -/
def kraftOne : Nat := 2 ^ Config.lmax

/-- How many symbols below `bound` have length `L`. -/
def countOfLength (lent : Table 8) (L bound : Nat) : Nat :=
  ((List.range bound).filter fun s => (tableGet lent s).toNat = L).length

/-- The value `code` has when the bucket `j` levels above the longest begins (R115): 0 for the longest length, then
`(code + 1) >> 1` of the value after each bucket, as plain arithmetic on numbers (R116: nothing wraps). -/
def bucketStart (lent : Table 8) (maxlen : Nat) : Nat → Nat
  | 0 => 0
  | j + 1 => (bucketStart lent maxlen j + countOfLength lent (maxlen - j) Config.nsym + 1) / 2

/-- The value R115 gives a symbol: its bucket's start, and one more for each smaller symbol of the same length. -/
def canonicalValue (lent : Table 8) (maxlen sym : Nat) : Nat :=
  bucketStart lent maxlen (maxlen - (tableGet lent sym).toNat) + countOfLength lent (tableGet lent sym).toNat sym

/-- Every coded symbol holds the value R115 gives it. -/
def CodesAssigned (lent : Table 8) (maxlen : Nat) (code : Table Config.codeW) : Prop :=
  ∀ a, Coded lent a → (tableGet code a).toNat = canonicalValue lent maxlen a

/-- (c) Range: a codeword value fits its length (R117). -/
def CodesInRange (lent : Table 8) (code : Table Config.codeW) : Prop :=
  ∀ a, Coded lent a → (tableGet code a).toNat < 2 ^ (tableGet lent a).toNat

/-- (b) Prefix-free: no assigned codeword is a prefix of another's (R117, R170). -/
def PrefixFree (lent : Table 8) (code : Table Config.codeW) : Prop :=
  ∀ a b, Coded lent a → Coded lent b → a ≠ b → ¬ codewordOf lent code a <+: codewordOf lent code b

/-- (a) Canonical ordering: among equal lengths, the values are consecutive in ascending symbol order (R117, R171). -/
def CanonicalOrder (lent : Table 8) (code : Table Config.codeW) : Prop :=
  ∀ a b, Coded lent a → Coded lent b → tableGet lent a = tableGet lent b → a < b →
    (tableGet code b).toNat
      = (tableGet code a).toNat + (countOfLength lent (tableGet lent a).toNat b - countOfLength lent (tableGet lent a).toNat a)

/-! ### The tree (R100 to R107, R111) -/

/-- A leaf of the tree: a byte value that was counted, or END (R100). -/
def IsLeafSymbol (s : State) (x : Nat) : Prop :=
  x = Config.endSym ∨ (x < Config.endSym ∧ tableGet s.freq x ≠ 0)

/-- The weight of a leaf: its frequency, 1 for END (R100). -/
def leafWeight (s : State) (x : Nat) : Count := if x = Config.endSym then 1 else tableGet s.freq x

/-- `x` is in the queue when the `k`-th merge begins, for the leaves of `s` and the node memory of `t` (R104): it is a
leaf or one of the `k` internal nodes made so far, and no child of one of those. -/
def InQueue (s t : State) (k x : Nat) : Prop :=
  (IsLeafSymbol s x ∨ (Config.firstInternal ≤ x ∧ x < Config.firstInternal + k))
    ∧ ∀ j, j < k → (tableGet t.nodeL (Config.firstInternal + j)).toNat ≠ x
        ∧ (tableGet t.nodeR (Config.firstInternal + j)).toNat ≠ x

/-- `x` comes before `y` in the queue (R102). -/
def Before (t : State) (x y : Nat) : Prop :=
  (tableGet t.nodeWt x).toNat < (tableGet t.nodeWt y).toNat ∨ (tableGet t.nodeWt x = tableGet t.nodeWt y ∧ x < y)

/-- `x` is the first of the queue (R102: `extract_min`), the nodes in `gone` having been taken. -/
def FirstInQueue (s t : State) (k : Nat) (gone : List Nat) (x : Nat) : Prop :=
  InQueue s t k x ∧ x ∉ gone ∧ ∀ y, InQueue s t k y → y ∉ gone → y ≠ x → Before t x y

/-- Node `x` is in the tree at depth `d` (R111): the root at 0, the children of an internal node one below it. -/
inductive AtDepth (s : State) : Nat → Nat → Prop where
  | root : AtDepth s s.root.toNat 0
  | left {n d : Nat} : AtDepth s n d → Config.endSym < n → AtDepth s (tableGet s.nodeL n).toNat (d + 1)
  | right {n d : Nat} : AtDepth s n d → Config.endSym < n → AtDepth s (tableGet s.nodeR n).toNat (d + 1)

/-- Leaf `x` lies below node `n` (or is it). -/
inductive Below (s : State) : Nat → Nat → Prop where
  | here {n : Nat} : Below s n n
  | left {n x : Nat} : Config.endSym < n → Below s (tableGet s.nodeL n).toNat x → Below s n x
  | right {n x : Nat} : Config.endSym < n → Below s (tableGet s.nodeR n).toNat x → Below s n x

/-- The shape a tree built by `BLD` has, whatever its leaves: children have smaller identifiers than their parent (R101),
and a leaf stands at one depth (R107 (c)). -/
structure TreeShaped (s : State) : Prop where
  childrenSmaller : ∀ n d, AtDepth s n d → Config.endSym < n →
    (tableGet s.nodeL n).toNat < n ∧ (tableGet s.nodeR n).toNat < n
  oneDepth : ∀ x d e, AtDepth s x d → AtDepth s x e → d = e

/-- R18, R19, R107 while `PHASE = TREE`: the node memory is the tree of the symbols counted. The tree is full and `ROOT`,
`NINT` have the values R19 gives; the leaves in the tree are exactly the leaf symbols; the two subtrees of an internal
node have no node in common; every weight is the sum of the two below it; with two or more leaves the depths satisfy
Kraft with equality (R20). -/
structure TreeOk (s : State) : Prop where
  shaped : TreeShaped s
  count : s.nint.toNat = (presentSymbols s.freq).length
  rootIs : s.root.toNat = Config.endSym + (presentSymbols s.freq).length
  leaves : ∀ x, x ≤ Config.endSym → ((∃ d, AtDepth s x d) ↔ IsLeafSymbol s x)
  weights : ∀ x, IsLeafSymbol s x → tableGet s.nodeWt x = leafWeight s x
  sums : ∀ n d, AtDepth s n d → Config.endSym < n →
    (tableGet s.nodeWt n).toNat
      = (tableGet s.nodeWt (tableGet s.nodeL n).toNat).toNat + (tableGet s.nodeWt (tableGet s.nodeR n).toNat).toNat
  disjoint : ∀ n d x, AtDepth s n d → Config.endSym < n →
    ¬ (Below s (tableGet s.nodeL n).toNat x ∧ Below s (tableGet s.nodeR n).toNat x)

/-! ### The walk of the payload (R150 to R157) -/

/-- The number a bit string stands for, first bit highest (R6). -/
def bitsValue (bits : List Bool) : Nat := bits.foldl (fun n b => 2 * n + b.toNat) 0

/-- The slot reached from the start slot along a bit string, by the closed form of R152. -/
def pathSlot (path : List Bool) : Nat := 2 ^ path.length - 1 + bitsValue path

/-- How a walk of payload bits ends: bits used up, END met, or the trie left (R155 to R157). -/
inductive WalkEnd where
  | more (path : List Bool)
  | ended
  | stuck (path : List Bool)
deriving DecidableEq, Repr

/-- The walk of a bit string over a trie of depth `maxlen`, on bit paths and not on slots: the bytes decoded and how it
ends. `path` is what has been consumed since the start slot (R155, R156, R157). -/
def walkPath (trie : Assoc Symbol) (maxlen : Nat) : List Bool → List Bool → List Byte × WalkEnd
  | path, [] => ([], .more path)
  | path, b :: bits =>
    if path.length = maxlen then ([], .stuck path)
    else
      match assocFind trie (pathSlot (path ++ [b])) with
      | none => walkPath trie maxlen (path ++ [b]) bits
      | some sym =>
        if sym.toNat = Config.endSym then ([], .ended)
        else ((BitVec.ofNat 8 sym.toNat) :: (walkPath trie maxlen [] bits).1, (walkPath trie maxlen [] bits).2)

/-- The trie holds exactly the coded symbols, each at the slot of its codeword (R152, R153). -/
def TrieHolds (lent : Table 8) (code : Table Config.codeW) (trie : Assoc Symbol) : Prop :=
  ∀ k sym, assocFind trie k = some sym ↔
    (Coded lent sym.toNat ∧ k = 2 ^ (tableGet lent sym.toNat).toNat - 1 + (tableGet code sym.toNat).toNat)

/-! ### The phase graph (R81, R82) -/

/-- The phases a command may leave the block in, from a phase in which it is legal, FAULT set apart (the table of R81). -/
def nextPhases : Instr → Phase → List Phase
  | .clr, _ => [.idle]
  | .cnt _, .idle | .cnt _, .count => [.count]
  | .bld, .idle | .bld, .count => [.tree]
  | .len, .tree => [.lens]
  | .asg, .lens => [.codes]
  | .asg, .hdrDone => [.dcodes]
  | .whd, .codes => [.pack]
  | .pkb _, .pack => [.pack]
  | .pke, .pack => [.encDone]
  | .rhb _, .idle => [.hdr]
  | .rhb _, .hdr => [.hdr, .hdrDone]
  | .tri, .dcodes => [.dec]
  | .dcb _, .dec => [.dec, .decDone]
  | .dcb _, .decDone => [.decDone]
  | .eoi, .decDone => [.decDone]
  | _, _ => []

/-- The command's word and the phases in which it is legal (R59, R81). -/
def CommandIs (i : Instr) (w : Word) (phases : List Phase) : Prop :=
  encodeWord i = w ∧ ∀ p, legal i p = true ↔ p ∈ phases

/-- The faults a command can raise of its own, phase by phase (R186). -/
def ownFaults : Instr → Phase → List Err
  | .cnt _, _ => [.countOverflow]
  | .bld, _ => []
  | .len, _ => [.lengthOverflow]
  | .asg, _ => [.corruptHeader]
  | .pkb _, _ => [.noCode]
  | .rhb _, _ => [.corruptHeader]
  | .dcb _, .dec => [.corruptStream]
  | .eoi, .hdr => [.corruptHeader]
  | .eoi, .hdrDone | .eoi, .dcodes | .eoi, .dec => [.corruptStream]
  | _, _ => []

/-! ### Invariants -/

/-- R13, R14: `ERR` is set exactly in FAULT, and `ERRCMD` holds 0 when no fault is recorded. -/
structure FaultLatch (s : State) : Prop where
  errIff : s.err ≠ .noFault ↔ s.phase = .fault
  errcmdZero : s.err = .noFault → s.errcmd = 0

/-- The sum of the frequency table. -/
def freqSum (s : State) : Nat := (byteValues.map fun b => (tableGet s.freq b).toNat).sum

/-- R16: `NBYTES` is the sum of `FREQ` and at most `2^CNT_W - 2`. -/
structure CountsAgree (s : State) : Prop where
  total : s.nbytes.toNat = freqSum s
  bounded : s.nbytes.toNat ≤ 2 ^ Config.cntW - 2

/-- R25: between commands at most seven bits are held, and the bits above them are 0. -/
structure AccHeld (s : State) : Prop where
  atMostSeven : s.nacc.toNat ≤ 7
  highZero : s.acc.toNat < 2 ^ s.nacc.toNat

/-- R27: the slot lies on the level of its depth; while payload is walked the depth does not pass `MAXLEN` (R151). -/
structure WalkHeld (s : State) : Prop where
  low : 2 ^ s.depth.toNat - 1 ≤ s.slot.toNat
  high : s.slot.toNat ≤ 2 ^ (s.depth.toNat + 1) - 2
  startOnly : s.slot = 0 ↔ s.depth = 0
  within : s.phase = .dec → s.depth.toNat ≤ s.maxlen.toNat

/-- R26: rising slot indices from 1 to `2^256 - 2` (slot 0 is never stored), at most 257 of them, and only symbols. -/
structure TrieCanonical (s : State) : Prop where
  sorted : assocSorted s.trie = true
  entries : ∀ p ∈ s.trie, 1 ≤ p.1 ∧ p.1 ≤ 2 ^ Config.slotW - 2 ∧ p.2.toNat ≤ Config.endSym
  size : s.trie.length ≤ Config.nsym

/-- The canonical form of the tables: rising indices in range, no entry 0 (log 9). -/
structure TablesCanonical (s : State) : Prop where
  freq : tableWf 0 Config.endSym s.freq = true
  nodeWt : tableWf 0 Config.nnode s.nodeWt = true
  nodeL : tableWf Config.firstInternal Config.nnode s.nodeL = true
  nodeR : tableWf Config.firstInternal Config.nnode s.nodeR = true
  lent : tableWf 0 Config.nsym s.lent = true
  code : tableWf 0 Config.nsym s.code = true

/-- R12: in IDLE every element is at its reset value; in COUNT only the FrequencyCounter's state has been written. -/
structure FreshPhases (s : State) : Prop where
  idle : s.phase = .idle → s = { State.reset with input := s.input, out := s.out }
  count : s.phase = .count →
    s = { State.reset with input := s.input, out := s.out, phase := .count, nbytes := s.nbytes, freq := s.freq }

/-- R23, R24 and R128: where the header cursor stands and what it has let through. -/
structure CursorHeld (s : State) : Prop where
  bounded : s.hpos.toNat ≤ 515
  started : s.phase = .hdr → 1 ≤ s.hpos.toNat
  size : s.phase = .hdr → 2 ≤ s.hpos.toNat → 1 ≤ s.hsize.toNat ∧ s.hsize.toNat ≤ Config.nsym
  inside : s.phase = .hdr → 3 ≤ s.hpos.toNat → s.hpos.toNat < 3 + 2 * (s.hsize.toNat - 1)
  nothingYet : s.phase = .hdr → s.hpos.toNat ≤ 2 → s.lent = [] ∧ s.maxlen = 0
  endLength : s.phase = .hdr → 3 ≤ s.hpos.toNat → tableGet s.lent Config.endSym ≠ 0
  ascending : s.phase = .hdr → ∀ b, b < Config.endSym → tableGet s.lent b ≠ 0 → 4 < s.hpos.toNat ∧ b ≤ s.hprev.toNat
  awaited : s.phase = .hdr → s.hpos.toNat % 2 = 0 → 4 < s.hpos.toNat → s.hprev.toNat < s.hsym.toNat

/-- R22: `MAXLEN` is the largest entry of `LENT`, END's included. -/
def MaxLenRight (s : State) : Prop :=
  (∀ a, a ≤ Config.endSym → (tableGet s.lent a).toNat ≤ s.maxlen.toNat)
    ∧ (s.maxlen ≠ 0 → ∃ a, a ≤ Config.endSym ∧ tableGet s.lent a = s.maxlen)

/-- The invariants of 10_state.md that hold in every phase. -/
structure Inv (s : State) : Prop where
  latch : FaultLatch s
  counts : CountsAgree s
  acc : AccHeld s
  walk : WalkHeld s
  trie : TrieCanonical s
  tables : TablesCanonical s
  fresh : FreshPhases s
  cursor : CursorHeld s
  maxlen : MaxLenRight s

/-- The phases of the encode flow from LENS on (R32). -/
def encodeLengthPhases : List Phase := [.lens, .codes, .pack, .encDone]

/-- The phases of the decode flow in which the lengths are complete (R32). -/
def decodeLengthPhases : List Phase := [.hdrDone, .dcodes, .dec, .decDone]

/-- The phases in which `CODE` is meaningful (R32). -/
def codePhases : List Phase := [.codes, .pack, .encDone, .dcodes, .dec, .decDone]

/-- The invariants of 10_state.md that tie an element to the phases in which it means something (R18 to R22, R26, R32). -/
structure FlowInv (s : State) : Prop where
  tree : s.phase = .tree → TreeOk s
  encodeLengths : s.phase ∈ encodeLengthPhases →
    (∀ x, x ≤ Config.endSym → (tableGet s.lent x ≠ 0 ↔ IsLeafSymbol s x)) ∧ kraftSum s.lent ≤ kraftOne
      ∧ (presentSymbols s.freq ≠ [] → kraftSum s.lent = kraftOne)
  decodeLengths : s.phase ∈ decodeLengthPhases → tableGet s.lent Config.endSym ≠ 0
  codes : s.phase ∈ codePhases →
    CodesAssigned s.lent s.maxlen.toNat s.code ∧ CodesInRange s.lent s.code ∧ PrefixFree s.lent s.code
      ∧ CanonicalOrder s.lent s.code
  trieHeld : s.phase = .dec → TrieHolds s.lent s.code s.trie

end Sys2Proof.Safety
end

