-- ==== Sys2Proof/Certificates/Slice0/Obligations.lean ====
section
/-! DEFINITION. The statements for the provers. They are stated in the terms of Sys2Proof/Safety.lean, which follow the
spec's text; where a statement could fail only in states no run reaches, its premise is an invariant that is a statement
of its own. No statement rests on a free value (there is none). -/

open Sys2Proof Sys2Proof.Machine Sys2Proof.Safety

/-! ### Encoding -/

/-- R57, R59: every command's word decodes to it, with every operand byte, and a word that decodes to a command is that
command's word. -/
def Obligations.DecodeInvertsEncode : Prop :=
  (∀ i : Instr, i.wf = true → decodeWord (encodeWord i) = .ok i)
    ∧ ∀ (w : Word) (i : Instr), decodeWord w = .ok i → encodeWord i = w

/-- R59: the word of each command; a word decodes to a command exactly when it selects a row of the opcode map
(`word & mask = op << 8`), no word selects two rows, and the row selected is the command's own. -/
def Obligations.DecodeFollowsOpcodeMap : Prop :=
  (∀ b : Byte,
    encodeWord .clr = 0x0000 ∧ encodeWord (.cnt b) = (0x01 : Byte) ++ b ∧ encodeWord .bld = 0x0200
      ∧ encodeWord .len = 0x0300 ∧ encodeWord .asg = 0x0400 ∧ encodeWord .whd = 0x0500
      ∧ encodeWord (.pkb b) = (0x06 : Byte) ++ b ∧ encodeWord .pke = 0x0700 ∧ encodeWord (.rhb b) = (0x08 : Byte) ++ b
      ∧ encodeWord .tri = 0x0900 ∧ encodeWord (.dcb b) = (0x0A : Byte) ++ b ∧ encodeWord .eoi = 0x0B00)
    ∧ ∀ w : Word,
      (commandWordWf w = true ↔ ∃ i, decodeWord w = .ok i)
        ∧ (∀ r ∈ opcodeRows, ∀ r' ∈ opcodeRows, r.selects w = true → r'.selects w = true → r = r')
        ∧ ∀ i, decodeWord w = .ok i → ∃ r ∈ opcodeRows, r.selects w = true ∧ r.pattern = i.op ++ (0 : Byte)

/-- A few words of R59, R61 and 95_test_vectors.md decode to the commands they stand for. -/
def Obligations.SampleWordsDecode : Prop :=
  decodeWord 0x0000 = .ok .clr ∧ decodeWord 0x0141 = .ok (.cnt 0x41) ∧ decodeWord 0x0200 = .ok .bld
    ∧ decodeWord 0x0300 = .ok .len ∧ decodeWord 0x0400 = .ok .asg ∧ decodeWord 0x0500 = .ok .whd
    ∧ decodeWord 0x0642 = .ok (.pkb 0x42) ∧ decodeWord 0x08FF = .ok (.rhb 0xFF) ∧ decodeWord 0x0A55 = .ok (.dcb 0x55)

/-- R60: the reserved words are those with `op` 0x0C to 0xFF and those of a command without operand with `arg` not 0x00;
executing one raises `BadOpcode` unless the block is in FAULT, where it is discarded. -/
def Obligations.ReservedWordsRaiseBadOpcode : Prop :=
  ∀ w : Word,
    ((∀ i, decodeWord w ≠ .ok i) ↔
      (0x0C ≤ w.toNat / 256
        ∨ (w.toNat / 256 ∈ [0x00, 0x02, 0x03, 0x04, 0x05, 0x07, 0x09, 0x0B] ∧ w.toNat % 256 ≠ 0)))
      ∧ ∀ (s : State) (rest : List Input), s.input = .word w :: rest → (∀ i, decodeWord w ≠ .ok i) →
          ∃ t, step s = .next t
            ∧ (s.phase = .fault → t = { s with input := rest })
            ∧ (s.phase ≠ .fault → FaultedBy .badOpcode w { s with input := rest } t)

/-! ### The step -/

/-- First clause (R41, R80): a step takes the oldest word presented and runs the command it decodes to on the state without
that word. Second clause, the model's own and no rule of the spec (log 10, DEDUCED): `State.withFetchWord` presents a word in
front of those presented, so that the next step runs it on the state as it was. -/
def Obligations.StepRunsTheDecodedCommand : Prop :=
  (∀ (s : State) (w : Word) (i : Instr) (rest : List Input), s.input = .word w :: rest → decodeWord w = .ok i →
      step s = exec i { s with input := rest })
    ∧ ∀ (s : State) (i : Instr), step (s.withFetchWord 16 (encodeWord i).toNat) = exec i s

/-- R41, R82, R200: every step answers a next state; a step takes exactly the oldest input, and with none presented the
block loses no state. -/
def Obligations.EveryStepTakesOneInput : Prop :=
  ∀ s : State, ∃ t, step s = .next t ∧ t.input = s.input.drop 1 ∧ (s.input = [] → t = s)

/-- R31, R210: after a reset event, in any state, every scalar register is 0, `PHASE` is IDLE, every table is zero, the
trie is empty, `OUT` is empty and the outputs are 0; after the word of `CLR` the same but for `OUT`, which is unchanged. -/
def Obligations.ResetClearsEverything : Prop :=
  (∀ (s : State) (rest : List Input), s.input = .rst :: rest →
    ∃ t, step s = .next t ∧ ScalarsZero t ∧ TablesZero t ∧ t.out = [] ∧ t.input = rest
      ∧ t.faultOut = false ∧ t.doneOut = false ∧ t.hdrDoneOut = false ∧ t = { State.reset with input := rest })
    ∧ ∀ (s : State) (rest : List Input), s.input = .word 0x0000 :: rest →
      ∃ t, step s = .next t ∧ ScalarsZero t ∧ TablesZero t ∧ t.out = s.out ∧ t.input = rest

/-- R211: reset and `CLR` leave the same state but for the `OUT` log, which only reset empties. -/
def Obligations.ResetAndClearDifferInOutOnly : Prop :=
  ∀ (s : State) (rest : List Input),
    ∃ t u, step { s with input := .rst :: rest } = .next t ∧ step { s with input := .word (encodeWord .clr) :: rest } = .next u
      ∧ t = { u with out := [] } ∧ u.out = s.out

/-- R12, R15, R185, R188: `STATUS` holds `PHASE` in its low four bits and `ERR` in its high four, with the code R12 gives
each of the thirteen phases and the code R185 gives each of the eight faults (0 for none); `ERRCMD` is read as it is; the
three outputs are functions of `PHASE`, and at most one of them is 1. -/
def Obligations.StatusShowsPhaseAndErr : Prop :=
  ∀ s : State,
    s.status.toNat % 16
        = (match s.phase with
          | .idle => 0
          | .count => 1
          | .tree => 2
          | .lens => 3
          | .codes => 4
          | .pack => 5
          | .encDone => 6
          | .hdr => 7
          | .hdrDone => 8
          | .dcodes => 9
          | .dec => 10
          | .decDone => 11
          | .fault => 15)
      ∧ s.status.toNat / 16
        = (match s.err with
          | .noFault => 0
          | .emptyAlphabet => 1
          | .lengthOverflow => 2
          | .corruptHeader => 3
          | .corruptStream => 4
          | .badSequence => 5
          | .badOpcode => 6
          | .countOverflow => 7
          | .noCode => 8)
      ∧ s.status.toNat % 16 = s.phase.code.toNat ∧ s.status.toNat / 16 = s.err.code.toNat ∧ s.errcmdPort = s.errcmd
      ∧ (s.faultOut = true ↔ s.phase = .fault)
      ∧ (s.doneOut = true ↔ (s.phase = .encDone ∨ s.phase = .decDone))
      ∧ (s.hdrDoneOut = true ↔ s.phase = .hdrDone)
      ∧ s.faultOut.toNat + s.doneOut.toNat + s.hdrDoneOut.toNat ≤ 1

/-! ### The sequencer -/

/-- R81, R82: from a state that keeps the invariants, outside FAULT, a command that is not legal in the phase raises
`BadSequence`, and a legal one goes to a phase of the table's cell or to FAULT with a fault of its own. In FAULT `CLR` goes
to IDLE and every other command is discarded. -/
def Obligations.PhasesFollowTheTable : Prop :=
  (∀ (i : Instr) (s : State), s.phase = .fault →
    ∃ t, exec i s = .next t ∧ (i = .clr → t.phase = .idle) ∧ (i ≠ .clr → t = s))
  ∧ ∀ (i : Instr) (s : State), Inv s → s.phase ≠ .fault →
    (legal i s.phase = true ↔
        (nextPhases i s.phase ≠ [] ∨ (i = .eoi ∧ s.phase ∈ [Phase.hdr, Phase.hdrDone, Phase.dcodes, Phase.dec])))
      ∧ ∃ t, exec i s = .next t
        ∧ (legal i s.phase = false → FaultedBy .badSequence (encodeWord i) s t)
        ∧ (legal i s.phase = true →
            t.phase ∈ nextPhases i s.phase
              ∨ (t.phase = .fault ∧ t.err ∈ ownFaults i s.phase ∧ t.errcmd = encodeWord i))

/-- R193: in FAULT every word other than 0x0000 is discarded with no state change, a reserved word too. -/
def Obligations.FaultDiscardsAllButClear : Prop :=
  ∀ (s : State) (w : Word) (rest : List Input), s.phase = .fault → s.input = .word w :: rest →
    (w ≠ 0x0000 → step s = .next { s with input := rest })
      ∧ (w = 0x0000 → ∃ t, step s = .next t ∧ t.phase = .idle ∧ t.err = .noFault ∧ t.errcmd = 0 ∧ t.out = s.out)

/-- R86 (writes): a command changes only the state of its own unit; beside it `PHASE`, `ERR` and `ERRCMD`. -/
def Obligations.UnitsWriteOnlyTheirState : Prop :=
  ∀ (i : Instr) (s : State), ∃ t, exec i s = .next t ∧ SameInput s t ∧
    match i with
    | .clr => SameOut s t
    | .cnt _ =>
      SameTree s t ∧ SameLengths s t ∧ SameCodes s t ∧ SameCursor s t ∧ SameAcc s t ∧ SameTrie s t ∧ SameWalk s t ∧ SameOut s t
    | .bld =>
      SameCounts s t ∧ SameLengths s t ∧ SameCodes s t ∧ SameCursor s t ∧ SameAcc s t ∧ SameTrie s t ∧ SameWalk s t ∧ SameOut s t
    | .len =>
      SameCounts s t ∧ SameCodes s t ∧ SameCursor s t ∧ SameAcc s t ∧ SameTrie s t ∧ SameWalk s t ∧ SameOut s t
    | .asg =>
      SameCounts s t ∧ SameTree s t ∧ SameLengths s t ∧ SameCursor s t ∧ SameAcc s t ∧ SameTrie s t ∧ SameWalk s t ∧ SameOut s t
    | .whd =>
      SameCounts s t ∧ SameTree s t ∧ SameLengths s t ∧ SameCodes s t ∧ SameCursor s t ∧ SameTrie s t ∧ SameWalk s t
    | .pkb _ =>
      SameCounts s t ∧ SameTree s t ∧ SameLengths s t ∧ SameCodes s t ∧ SameCursor s t ∧ SameTrie s t ∧ SameWalk s t
    | .pke =>
      SameCounts s t ∧ SameTree s t ∧ SameLengths s t ∧ SameCodes s t ∧ SameCursor s t ∧ SameTrie s t ∧ SameWalk s t
    | .rhb _ =>
      SameCounts s t ∧ SameTree s t ∧ SameCodes s t ∧ SameAcc s t ∧ SameTrie s t ∧ SameWalk s t ∧ SameOut s t
    | .tri =>
      SameCounts s t ∧ SameTree s t ∧ SameLengths s t ∧ SameCodes s t ∧ SameCursor s t ∧ SameAcc s t ∧ SameOut s t
    | .dcb _ =>
      SameCounts s t ∧ SameTree s t ∧ SameLengths s t ∧ SameCodes s t ∧ SameCursor s t ∧ SameAcc s t ∧ SameTrie s t
    | .eoi =>
      SameCounts s t ∧ SameTree s t ∧ SameLengths s t ∧ SameCodes s t ∧ SameCursor s t ∧ SameAcc s t ∧ SameTrie s t
        ∧ SameWalk s t ∧ SameOut s t

/-- R86 (reads): two states that agree on `PHASE` and on what a command's unit reads, and on nothing else, end in the same
phase, raise the same fault and emit the same bytes; where the command completes they then agree on what it wrote. (`MAXLEN`
after `RHB`, a running maximum by R127, agrees where it did before. The node memory after `BLD` is in
`TreeDependsOnFreqOnly`.) -/
def Obligations.UnitsReadOnlyTheirState : Prop :=
  ∀ (i : Instr) (s s' : State), s.phase = s'.phase → ReadsAgree i s s' →
    ∃ t t' bs, exec i s = .next t ∧ exec i s' = .next t' ∧ t.out = s.out ++ bs ∧ t'.out = s'.out ++ bs
      ∧ EndAlike s t t' ∧ (legal i s.phase = true → t.phase ≠ .fault → WritesAgree i s s' t t')

/-- R28, R43, R47: `OUT` is only ever appended to and never read; only `WHD`, `PKB`, `PKE` and `DCB` emit, at most 515,
32, 33 and 8 bytes. -/
def Obligations.OutIsAppendedToAndNeverRead : Prop :=
  ∀ (i : Instr) (s : State), AccHeld s →
    ∃ t bs, exec i s = .next t ∧ t.out = s.out ++ bs
      ∧ (∀ o : List Byte, exec i { s with out := o } = .next { t with out := o ++ bs })
      ∧ bs.length ≤ (match i with
          | .whd => 515
          | .pkb _ => 32
          | .pke => 33
          | .dcb _ => 8
          | .clr | .cnt _ | .bld | .len | .asg | .rhb _ | .tri | .eoi => 0)

/-- R190, R191: outside FAULT, a command that ends in FAULT has recorded a fault and its own word and changed nothing else;
a `DCB` may also have moved `SLOT`, `DEPTH` and emitted bytes for the bits before the faulting one. -/
def Obligations.FaultsArePrecise : Prop :=
  ∀ (i : Instr) (s t : State), exec i s = .next t → s.phase ≠ .fault → t.phase = .fault →
    t.err ≠ .noFault ∧ t.errcmd = encodeWord i
      ∧ ((∀ b, i ≠ .dcb b) → FaultedBy t.err (encodeWord i) s t)
      ∧ ∃ bs, t = { s with
          err := t.err, errcmd := encodeWord i, phase := .fault, slot := t.slot, depth := t.depth, out := s.out ++ bs }

/-- R186: from a state that keeps the invariants, the exact cause of every fault. -/
def Obligations.EveryFaultHasItsCause : Prop :=
  (∀ (i : Instr) (s : State), Inv s → FlowInv s → legal i s.phase = true →
    ∃ t, exec i s = .next t ∧ (t.phase = .fault → t.errcmd = encodeWord i) ∧
      match i with
      | .clr => t.phase ≠ .fault
      | .cnt _ => (t.phase = .fault ↔ s.nbytes.toNat = 2 ^ Config.cntW - 2) ∧ (t.phase = .fault → t.err = .countOverflow)
      | .bld => t.phase ≠ .fault
      | .len =>
        (t.phase = .fault ↔ ∃ x d, x ≤ Config.endSym ∧ AtDepth s x d ∧ Config.lmax < d)
          ∧ (t.phase = .fault → t.err = .lengthOverflow)
      | .asg => (t.phase = .fault ↔ kraftOne < kraftSum s.lent) ∧ (t.phase = .fault → t.err = .corruptHeader)
      | .whd => t.phase ≠ .fault
      | .pkb b => (t.phase = .fault ↔ tableGet s.lent b.toNat = 0) ∧ (t.phase = .fault → t.err = .noCode)
      | .pke => t.phase ≠ .fault
      | .rhb b =>
        (t.phase = .fault ↔
            (s.hpos.toNat = 1 ∧ (s.hsize.toNat / 256 * 256 + b.toNat = 0 ∨ 257 < s.hsize.toNat / 256 * 256 + b.toNat))
              ∨ (s.hpos.toNat = 2 ∧ b = 0)
              ∨ (3 < s.hpos.toNat ∧ s.hpos.toNat % 2 = 1 ∧ b.toNat ≤ s.hprev.toNat)
              ∨ (4 ≤ s.hpos.toNat ∧ s.hpos.toNat % 2 = 0 ∧ b = 0))
          ∧ (t.phase = .fault → t.err = .corruptHeader)
      | .tri => t.phase ≠ .fault
      | .dcb b =>
        (∀ path, s.slot.toNat = pathSlot path → s.depth.toNat = path.length →
            (t.phase = .fault ↔ s.phase = .dec ∧ ∃ q, (walkPath s.trie s.maxlen.toNat path (byteBits b)).2 = .stuck q))
          ∧ (t.phase = .fault → t.err = .corruptStream)
      | .eoi =>
        (s.phase = .hdr → t.phase = .fault ∧ t.err = .corruptHeader)
          ∧ (s.phase = .hdrDone ∨ s.phase = .dcodes ∨ s.phase = .dec → t.phase = .fault ∧ t.err = .corruptStream)
          ∧ (s.phase = .decDone → t.phase ≠ .fault))
    ∧ (∀ (i : Instr) (s : State), s.phase ≠ .fault → legal i s.phase = false →
        ∃ t, exec i s = .next t ∧ FaultedBy .badSequence (encodeWord i) s t)
    ∧ (∀ (w : Word) (s : State), s.phase ≠ .fault → (∀ i, decodeWord w ≠ .ok i) →
        ∃ t, executeWord w s = .next t ∧ FaultedBy .badOpcode w s t)
    ∧ ∀ s : State, s.phase ≠ .fault →
        ((bldBody true s).phase = .fault ↔ ∀ x, x < Config.endSym → tableGet s.freq x = 0)
          ∧ ((bldBody true s).phase = .fault → FaultedBy .emptyAlphabet (encodeWord .bld) s (bldBody true s))

/-! ### System commands -/

/-- R83: `CLR`, word 0x0000, legal in every phase: every element but `OUT` gets its reset value. In IDLE it changes
nothing; no other command leaves FAULT. -/
def Obligations.ClrClearsAllButOut : Prop :=
  encodeWord .clr = 0x0000
    ∧ (∀ s : State,
      legal .clr s.phase = true ∧
        ∃ t, exec .clr s = .next t ∧ ScalarsZero t ∧ TablesZero t ∧ SameOut s t ∧ SameInput s t
          ∧ t.faultOut = false ∧ t.doneOut = false ∧ t.hdrDoneOut = false)
    ∧ (∀ s : State, Inv s → s.phase = .idle → exec .clr s = .next s)
    ∧ ∀ (i : Instr) (s : State), i ≠ .clr → s.phase = .fault → exec i s = .next s

/-- R84: `EOI`, word 0x0B00: `CorruptHeader` in HDR, `CorruptStream` in HDR_DONE, DCODES and DEC, nothing in DEC_DONE, not
legal elsewhere. -/
def Obligations.EoiReportsTruncation : Prop :=
  encodeWord .eoi = 0x0B00 ∧ ∀ s : State,
    (legal .eoi s.phase = true ↔ s.phase ∈ [Phase.hdr, Phase.hdrDone, Phase.dcodes, Phase.dec, Phase.decDone])
      ∧ (s.phase = .hdr → ∃ t, exec .eoi s = .next t ∧ FaultedBy .corruptHeader 0x0B00 s t)
      ∧ (s.phase = .hdrDone ∨ s.phase = .dcodes ∨ s.phase = .dec →
          ∃ t, exec .eoi s = .next t ∧ FaultedBy .corruptStream 0x0B00 s t)
      ∧ (s.phase = .decDone → exec .eoi s = .next s)
      ∧ (s.phase = .idle → ∃ t, exec .eoi s = .next t ∧ FaultedBy .badSequence 0x0B00 s t)

/-! ### FrequencyCounter -/

/-- R95: `CNT b`, word 0x01bb, legal in IDLE and COUNT: `FREQ[b]` and `NBYTES` go up by one and nothing else changes but
`PHASE`; neither addition wraps; with `2^CNT_W - 2` bytes counted it raises `CountOverflow` and changes neither. -/
def Obligations.CntCountsOneByte : Prop :=
  ∀ (b : Byte) (s : State),
    encodeWord (.cnt b) = (0x01 : Byte) ++ b
      ∧ (legal (.cnt b) s.phase = true ↔ (s.phase = .idle ∨ s.phase = .count))
      ∧ ((s.phase = .idle ∨ s.phase = .count) → s.nbytes.toNat ≠ 2 ^ Config.cntW - 2 →
          ∃ t, exec (.cnt b) s = .next t
            ∧ tableGet t.freq b.toNat = tableGet s.freq b.toNat + 1
            ∧ (∀ x, x ≠ b.toNat → tableGet t.freq x = tableGet s.freq x)
            ∧ t.nbytes = s.nbytes + 1 ∧ t.phase = .count
            ∧ (CountsAgree s → (tableGet t.freq b.toNat).toNat = (tableGet s.freq b.toNat).toNat + 1
                ∧ t.nbytes.toNat = s.nbytes.toNat + 1)
            ∧ SameErr s t ∧ SameTree s t ∧ SameLengths s t ∧ SameCodes s t ∧ SameCursor s t ∧ SameAcc s t
            ∧ SameTrie s t ∧ SameWalk s t ∧ SameOut s t ∧ SameInput s t)
      ∧ ((s.phase = .idle ∨ s.phase = .count) → s.nbytes.toNat = 2 ^ Config.cntW - 2 →
          ∃ t, exec (.cnt b) s = .next t ∧ FaultedBy .countOverflow (encodeWord (.cnt b)) s t)

/-- R96: after `CNT` of each byte of a sequence `S` from IDLE, `FREQ[x]` is the number of places of `S` that hold `x`, for
every byte value, and `NBYTES` is the length of `S`; a permutation of `S` leaves the same. -/
def Obligations.CntSequenceCountsOccurrences : Prop :=
  ∀ (S : List Byte) (s : State), Inv s → s.phase = .idle → S.length ≤ 2 ^ Config.cntW - 2 →
    (∀ b : Byte, (tableGet (issueAll (S.map .cnt) s).freq b.toNat).toNat = S.count b)
      ∧ (issueAll (S.map .cnt) s).nbytes.toNat = S.length
      ∧ (issueAll (S.map .cnt) s).phase = (if S = [] then .idle else .count)
      ∧ ∀ S' : List Byte, S.Perm S' → issueAll (S'.map .cnt) s = issueAll (S.map .cnt) s

/-! ### TreeBuilder -/

/-- R100 to R104, R19: `BLD` with a real symbol present. In the node memory it leaves, the leaves have their weights, and
the `k`-th internal node has as left child the first node of the queue at that moment, as right child the first of the
rest, and the sum of their weights; `ROOT` is the last node made and `NINT` their number. Nothing else changes. -/
def Obligations.BldMergesTheTwoFirst : Prop :=
  CommandIs .bld 0x0200 [.idle, .count] ∧ ∀ s : State, (s.phase = .idle ∨ s.phase = .count) → presentSymbols s.freq ≠ [] →
    ∃ t, exec .bld s = .next t
      ∧ (∀ x, IsLeafSymbol s x → tableGet t.nodeWt x = leafWeight s x)
      ∧ (∀ k, k < (presentSymbols s.freq).length →
          FirstInQueue s t k [] (tableGet t.nodeL (Config.firstInternal + k)).toNat
            ∧ FirstInQueue s t k [(tableGet t.nodeL (Config.firstInternal + k)).toNat]
                (tableGet t.nodeR (Config.firstInternal + k)).toNat
            ∧ tableGet t.nodeWt (Config.firstInternal + k)
                = tableGet t.nodeWt (tableGet t.nodeL (Config.firstInternal + k)).toNat
                  + tableGet t.nodeWt (tableGet t.nodeR (Config.firstInternal + k)).toNat)
      ∧ t.root.toNat = Config.endSym + (presentSymbols s.freq).length
      ∧ t.nint.toNat = (presentSymbols s.freq).length ∧ t.phase = .tree
      ∧ (∀ x, ¬ (Config.firstInternal ≤ x ∧ x < Config.firstInternal + (presentSymbols s.freq).length) →
          tableGet t.nodeL x = tableGet s.nodeL x ∧ tableGet t.nodeR x = tableGet s.nodeR x
            ∧ (¬ IsLeafSymbol s x → tableGet t.nodeWt x = tableGet s.nodeWt x))
      ∧ SameErr s t ∧ SameCounts s t ∧ SameLengths s t ∧ SameCodes s t ∧ SameCursor s t ∧ SameAcc s t ∧ SameTrie s t
      ∧ SameWalk s t ∧ SameOut s t ∧ SameInput s t

/-- R106: `BLD` with no real symbol. With `EMPTY_REJECT = false`, this hardware's value, it builds the tree that is the END
leaf alone; with `EMPTY_REJECT = true` it raises `EmptyAlphabet`. -/
def Obligations.BldOnEmptyInput : Prop :=
  Config.emptyReject = false ∧ ∀ s : State, (s.phase = .idle ∨ s.phase = .count) → (∀ x, x < Config.endSym → tableGet s.freq x = 0) →
    (∃ t, exec .bld s = .next t ∧ t.root.toNat = Config.endSym ∧ t.nint = 0 ∧ tableGet t.nodeWt Config.endSym = 1
        ∧ (∀ x, x ≠ Config.endSym → tableGet t.nodeWt x = tableGet s.nodeWt x)
        ∧ t.nodeL = s.nodeL ∧ t.nodeR = s.nodeR ∧ t.phase = .tree
        ∧ SameErr s t ∧ SameCounts s t ∧ SameLengths s t ∧ SameCodes s t ∧ SameCursor s t ∧ SameAcc s t ∧ SameTrie s t
        ∧ SameWalk s t ∧ SameOut s t ∧ SameInput s t)
      ∧ exec .bld s = .next (bldBody false s)
      ∧ FaultedBy .emptyAlphabet (encodeWord .bld) s (bldBody true s)

/-- R105: with one real symbol the tree has two leaves. The tie at weight 1 goes to the real symbol, otherwise END is the
left child; after `LEN` both have length 1. -/
def Obligations.OneRealSymbolGivesTwoLeaves : Prop :=
  ∀ (s : State) (x : Nat), Inv s → s.phase = .count → presentSymbols s.freq = [x] →
    ∃ t u, exec .bld s = .next t ∧ exec .len t = .next u
      ∧ t.root.toNat = 257 ∧ t.nint = 1 ∧ tableGet t.nodeWt 257 = tableGet s.freq x + 1
      ∧ (tableGet s.freq x = 1 → (tableGet t.nodeL 257).toNat = x ∧ (tableGet t.nodeR 257).toNat = Config.endSym)
      ∧ (tableGet s.freq x ≠ 1 → (tableGet t.nodeL 257).toNat = Config.endSym ∧ (tableGet t.nodeR 257).toNat = x)
      ∧ u.phase = .lens ∧ tableGet u.lent x = 1 ∧ tableGet u.lent Config.endSym = 1 ∧ u.maxlen = 1
      ∧ ∀ a, a ≠ x → a ≠ Config.endSym → tableGet u.lent a = 0

/-- R18, R19, R107 (a) to (c): after `BLD` the node memory is a full tree whose leaves are the symbols counted and END,
each once, with every weight the sum of the two below it, and the root weighs `NBYTES + 1`. -/
def Obligations.BldBuildsAFullTree : Prop :=
  ∀ s : State, Inv s → (s.phase = .idle ∨ s.phase = .count) →
    ∃ t, exec .bld s = .next t ∧ t.phase = .tree ∧ TreeOk t
      ∧ (tableGet t.nodeWt t.root.toNat).toNat = s.nbytes.toNat + 1

/-- R107 (e): the tree `BLD` builds is a function of `FREQ` alone. -/
def Obligations.TreeDependsOnFreqOnly : Prop :=
  ∀ s s' : State, (s.phase = .idle ∨ s.phase = .count) → (s'.phase = .idle ∨ s'.phase = .count) →
    (∀ x, tableGet s.freq x = tableGet s'.freq x) →
    ∃ t t', exec .bld s = .next t ∧ exec .bld s' = .next t' ∧ t.root = t'.root ∧ t.nint = t'.nint
      ∧ (∀ x, IsLeafSymbol s x ∨ (Config.firstInternal ≤ x ∧ x ≤ t.root.toNat) → tableGet t.nodeWt x = tableGet t'.nodeWt x)
      ∧ ∀ x, Config.firstInternal ≤ x → x ≤ t.root.toNat →
          tableGet t.nodeL x = tableGet t'.nodeL x ∧ tableGet t.nodeR x = tableGet t'.nodeR x

/-! ### Canonicalizer -/

/-- R110, R111: `LEN` on a tree of two or more nodes: every leaf's length is its depth, every other symbol's is 0,
`MAXLEN` is the largest, and the tree is discarded; a leaf deeper than 255 raises `LengthOverflow` and changes nothing
else. -/
def Obligations.LenTakesLeafDepths : Prop :=
  CommandIs .len 0x0300 [.tree] ∧ ∀ s : State, s.phase = .tree → s.root.toNat ≠ Config.endSym → TreeShaped s →
    ((∃ x d, x ≤ Config.endSym ∧ AtDepth s x d ∧ Config.lmax < d) →
        ∃ t, exec .len s = .next t ∧ FaultedBy .lengthOverflow (encodeWord .len) s t)
      ∧ ((∀ x d, x ≤ Config.endSym → AtDepth s x d → d ≤ Config.lmax) →
        ∃ t, exec .len s = .next t
          ∧ (∀ x d, x ≤ Config.endSym → AtDepth s x d → (tableGet t.lent x).toNat = d)
          ∧ (∀ x, (∀ d, ¬ AtDepth s x d) → tableGet t.lent x = 0)
          ∧ MaxLenRight t
          ∧ (∀ i, tableGet t.nodeWt i = 0 ∧ tableGet t.nodeL i = 0 ∧ tableGet t.nodeR i = 0) ∧ t.root = 0 ∧ t.nint = 0
          ∧ t.phase = .lens
          ∧ SameErr s t ∧ SameCounts s t ∧ SameCodes s t ∧ SameCursor s t ∧ SameAcc s t ∧ SameTrie s t ∧ SameWalk s t
          ∧ SameOut s t ∧ SameInput s t)

/-- R112: on the tree that is the END leaf alone `LEN` gives END the length 1, every other symbol 0, and `MAXLEN` 1. -/
def Obligations.LenOfTheSingleLeaf : Prop :=
  ∀ s : State, s.phase = .tree → s.root.toNat = Config.endSym →
    ∃ t, exec .len s = .next t ∧ tableGet t.lent Config.endSym = 1 ∧ (∀ x, x ≠ Config.endSym → tableGet t.lent x = 0)
      ∧ t.maxlen = 1 ∧ t.phase = .lens ∧ t.root = 0 ∧ t.nint = 0
      ∧ (∀ i, tableGet t.nodeWt i = 0 ∧ tableGet t.nodeL i = 0 ∧ tableGet t.nodeR i = 0)
      ∧ SameErr s t ∧ SameCounts s t ∧ SameCodes s t ∧ SameCursor s t ∧ SameAcc s t ∧ SameTrie s t ∧ SameWalk s t
      ∧ SameOut s t ∧ SameInput s t

/-- R113: with `CNT_W = 64` `LEN` never raises `LengthOverflow` on a tree that `BLD` built; every length is at most 91. -/
def Obligations.LengthsNeverOverflow : Prop :=
  ∀ s : State, Inv s → (s.phase = .idle ∨ s.phase = .count) →
    ∃ t u, exec .bld s = .next t ∧ exec .len t = .next u ∧ u.phase = .lens ∧ u.maxlen.toNat ≤ 91

/-- R115, R118: `ASG` completes exactly when the Kraft sum of the lengths is at most 1. Then every symbol that has a
length gets its bucket's start plus its rank in the bucket, the longest bucket starting at 0 and each shorter one at half
the value reached, rounded up; other entries are not written. Otherwise it raises `CorruptHeader` and `CODE` is
unchanged. -/
def Obligations.AsgAssignsCanonicalValues : Prop :=
  CommandIs .asg 0x0400 [.lens, .hdrDone] ∧ ∀ s : State, (s.phase = .lens ∨ s.phase = .hdrDone) → MaxLenRight s →
    (kraftSum s.lent ≤ kraftOne →
        ∃ t, exec .asg s = .next t
          ∧ (∀ a, Coded s.lent a → (tableGet t.code a).toNat = canonicalValue s.lent s.maxlen.toNat a)
          ∧ (∀ a, ¬ Coded s.lent a → tableGet t.code a = tableGet s.code a)
          ∧ (s.phase = .lens → t.phase = .codes) ∧ (s.phase = .hdrDone → t.phase = .dcodes)
          ∧ SameErr s t ∧ SameCounts s t ∧ SameTree s t ∧ SameLengths s t ∧ SameCursor s t ∧ SameAcc s t ∧ SameTrie s t
          ∧ SameWalk s t ∧ SameOut s t ∧ SameInput s t)
      ∧ (kraftOne < kraftSum s.lent → ∃ t, exec .asg s = .next t ∧ FaultedBy .corruptHeader (encodeWord .asg) s t)

/-- R117, R170, R171: the table after `ASG` completes. (a) canonical ordering, values of one length consecutive;
(b) prefix-free; (c) range; (d) with Kraft sum 1, as on the encode flow with two or more leaves, every long enough bit
string has exactly one codeword as a prefix, and the last value of the counter is 1; (e) a longer codeword lies below a
shorter one when they are aligned on the left, and the all-zero string of length `MAXLEN` is a codeword. -/
def Obligations.AsgTableProperties : Prop :=
  ∀ s t : State, (s.phase = .lens ∨ s.phase = .hdrDone) → MaxLenRight s → exec .asg s = .next t → t.phase ≠ .fault →
    CanonicalOrder t.lent t.code ∧ PrefixFree t.lent t.code ∧ CodesInRange t.lent t.code
      ∧ (∀ a b, Coded t.lent a → Coded t.lent b → a < b → tableGet t.lent a = tableGet t.lent b →
          (tableGet t.code a).toNat < (tableGet t.code b).toNat)
      ∧ (FlowInv s → s.phase = .lens → presentSymbols s.freq ≠ [] → kraftSum t.lent = kraftOne)
      ∧ (kraftSum t.lent = kraftOne →
          (∀ bits : List Bool, t.maxlen.toNat ≤ bits.length → ∃! a, Coded t.lent a ∧ codewordOf t.lent t.code a <+: bits)
            ∧ bucketStart t.lent t.maxlen.toNat t.maxlen.toNat = 1)
      ∧ (∀ a b, Coded t.lent a → Coded t.lent b → (tableGet t.lent b).toNat < (tableGet t.lent a).toNat →
          (tableGet t.code a).toNat * 2 ^ (Config.lmax - (tableGet t.lent a).toNat)
            < (tableGet t.code b).toNat * 2 ^ (Config.lmax - (tableGet t.lent b).toNat))
      ∧ (t.maxlen ≠ 0 → ∃ a, Coded t.lent a ∧ codewordOf t.lent t.code a = List.replicate t.maxlen.toNat false)

/-! ### HeaderCodec -/

/-- R125, R126: `WHD` emits the size, high byte first, END's length, and a (symbol, length) pair for each byte value that
has a codeword, in ascending order: `3 + 2n` bytes. It empties the accumulator and changes nothing else but `PHASE`. END's length is never 0 there. -/
def Obligations.WhdWritesTheHeader : Prop :=
  CommandIs .whd 0x0500 [.codes] ∧ ∀ s : State, s.phase = .codes →
    (FlowInv s → tableGet s.lent Config.endSym ≠ 0) ∧
    ∃ (t : State) (syms : List Nat), exec .whd s = .next t
      ∧ syms.Pairwise (· < ·) ∧ (∀ x, x ∈ syms ↔ (x < Config.endSym ∧ tableGet s.lent x ≠ 0))
      ∧ t.out = s.out
          ++ [BitVec.ofNat 8 ((syms.length + 1) / 256), BitVec.ofNat 8 ((syms.length + 1) % 256), tableGet s.lent Config.endSym]
          ++ (syms.flatMap fun x => [BitVec.ofNat 8 x, tableGet s.lent x])
      ∧ t.out.length = s.out.length + 3 + 2 * syms.length ∧ syms.length ≤ 256
      ∧ t.acc = 0 ∧ t.nacc = 0 ∧ t.phase = .pack
      ∧ SameErr s t ∧ SameCounts s t ∧ SameTree s t ∧ SameLengths s t ∧ SameCodes s t ∧ SameCursor s t ∧ SameTrie s t
      ∧ SameWalk s t ∧ SameInput s t

/-- R127: `RHB b` in IDLE or HDR, by the value of `HPOS`: what each header byte writes, and the four cases that raise
`CorruptHeader`. Nothing outside the header cursor, `LENT`, `MAXLEN` and `PHASE` changes. -/
def Obligations.RhbReadsOneHeaderByte : Prop :=
  (∀ b : Byte, CommandIs (.rhb b) ((0x08 : Byte) ++ b) [.idle, .hdr]) ∧ ∀ (b : Byte) (s : State), (s.phase = .idle ∨ s.phase = .hdr) →
    ∃ t, exec (.rhb b) s = .next t
      ∧ (s.hpos.toNat = 0 →
          t = { s with hsize := t.hsize, hpos := 1, phase := .hdr }
            ∧ t.hsize.toNat / 256 = b.toNat ∧ t.hsize.toNat % 256 = s.hsize.toNat % 256)
      ∧ (s.hpos.toNat = 1 →
          ((s.hsize.toNat / 256 * 256 + b.toNat = 0 ∨ 257 < s.hsize.toNat / 256 * 256 + b.toNat) →
              FaultedBy .corruptHeader (encodeWord (.rhb b)) s t)
            ∧ (1 ≤ s.hsize.toNat / 256 * 256 + b.toNat → s.hsize.toNat / 256 * 256 + b.toNat ≤ 257 →
              t = { s with hsize := t.hsize, hpos := 2 } ∧ t.hsize.toNat = s.hsize.toNat / 256 * 256 + b.toNat))
      ∧ (s.hpos.toNat = 2 →
          (b = 0 → FaultedBy .corruptHeader (encodeWord (.rhb b)) s t)
            ∧ (b ≠ 0 →
              t = { s with lent := t.lent, maxlen := b, hpos := 3, phase := if s.hsize.toNat = 1 then .hdrDone else s.phase }
                ∧ tableGet t.lent Config.endSym = b ∧ ∀ x, x ≠ Config.endSym → tableGet t.lent x = tableGet s.lent x))
      ∧ (3 ≤ s.hpos.toNat → s.hpos.toNat % 2 = 1 →
          (3 < s.hpos.toNat ∧ b.toNat ≤ s.hprev.toNat → FaultedBy .corruptHeader (encodeWord (.rhb b)) s t)
            ∧ (¬ (3 < s.hpos.toNat ∧ b.toNat ≤ s.hprev.toNat) → t = { s with hsym := b, hpos := s.hpos + 1 }))
      ∧ (4 ≤ s.hpos.toNat → s.hpos.toNat % 2 = 0 →
          (b = 0 → FaultedBy .corruptHeader (encodeWord (.rhb b)) s t)
            ∧ (b ≠ 0 →
              t = { s with
                  lent := t.lent, maxlen := t.maxlen, hprev := s.hsym, hpos := s.hpos + 1,
                  phase := if s.hpos.toNat + 1 = 3 + 2 * (s.hsize.toNat - 1) then .hdrDone else s.phase }
                ∧ t.maxlen.toNat = Nat.max s.maxlen.toNat b.toNat
                ∧ tableGet t.lent s.hsym.toNat = b ∧ ∀ x, x ≠ s.hsym.toNat → tableGet t.lent x = tableGet s.lent x))

/-- R130: a block in IDLE that is fed, byte by byte, the header that `WHD` writes from a length table ends in HDR_DONE
with that very table and its maximum. -/
def Obligations.HeaderRoundTrip : Prop :=
  ∀ (e d : State), Inv e → FlowInv e → e.phase = .codes → Inv d → d.phase = .idle →
    ∃ t hdr, exec .whd e = .next t ∧ t.out = e.out ++ hdr
      ∧ (issueAll (hdr.map .rhb) d).phase = .hdrDone
      ∧ (issueAll (hdr.map .rhb) d).lent = e.lent ∧ (issueAll (hdr.map .rhb) d).maxlen = e.maxlen
      ∧ (issueAll (hdr.map .rhb ++ [.asg]) d).phase = .dcodes
      ∧ ∀ a, Coded e.lent a → tableGet (issueAll (hdr.map .rhb ++ [.asg]) d).code a = tableGet e.code a

/-! ### BitPacker -/

/-- R141, R142: `PKB b` in PACK appends b's codeword, first bit first, to the bits held; every eight bits leave as a byte
and at most seven stay. A byte without codeword raises `NoCode`, and nothing else changes. -/
def Obligations.PkbAppendsTheCodeword : Prop :=
  (∀ b : Byte, CommandIs (.pkb b) ((0x06 : Byte) ++ b) [.pack]) ∧ ∀ (b : Byte) (s : State), s.phase = .pack → AccHeld s →
    (tableGet s.lent b.toNat = 0 → ∃ t, exec (.pkb b) s = .next t ∧ FaultedBy .noCode (encodeWord (.pkb b)) s t)
      ∧ (tableGet s.lent b.toNat ≠ 0 →
          ∃ t bs, exec (.pkb b) s = .next t ∧ t.out = s.out ++ bs
            ∧ streamBits bs ++ pendingBits t = pendingBits s ++ codewordOf s.lent s.code b.toNat
            ∧ bs.length = (s.nacc.toNat + (tableGet s.lent b.toNat).toNat) / 8
            ∧ t.nacc.toNat = (s.nacc.toNat + (tableGet s.lent b.toNat).toNat) % 8
            ∧ AccHeld t ∧ t.phase = .pack
            ∧ SameErr s t ∧ SameCounts s t ∧ SameTree s t ∧ SameLengths s t ∧ SameCodes s t ∧ SameCursor s t
            ∧ SameTrie s t ∧ SameWalk s t ∧ SameInput s t)

/-- R143: `PKE` in PACK appends END's codeword and flushes: the bits held and END's codeword leave, padded on the right with
zero bits to a byte boundary, and nothing more when they end on one; at most 33 bytes, and `done` becomes 1. -/
def Obligations.PkeAppendsEndAndFlushes : Prop :=
  CommandIs .pke 0x0700 [.pack] ∧ ∀ s : State, s.phase = .pack → AccHeld s →
    ∃ t bs, exec .pke s = .next t ∧ t.out = s.out ++ bs
      ∧ streamBits bs = padToByte (pendingBits s ++ codewordOf s.lent s.code Config.endSym)
      ∧ bs.length ≤ 33 ∧ t.acc = 0 ∧ t.nacc = 0 ∧ t.phase = .encDone ∧ t.doneOut = true
      ∧ SameErr s t ∧ SameCounts s t ∧ SameTree s t ∧ SameLengths s t ∧ SameCodes s t ∧ SameCursor s t
      ∧ SameTrie s t ∧ SameWalk s t ∧ SameInput s t

/-- R66, R144, R215: after `WHD`, `PKB` of each byte of any sequence whose bytes have codewords, then `PKE`: the bytes
emitted since `WHD` are the codewords in order and END's, padded; their number is the bit count over 8, rounded up. -/
def Obligations.PayloadIsTheCodewordsInOrder : Prop :=
  ∀ (T : List Byte) (s : State), s.phase = .codes → (∀ b ∈ T, tableGet s.lent b.toNat ≠ 0) →
    ∃ bs, (issueAll (.whd :: T.map .pkb ++ [.pke]) s).phase = .encDone
      ∧ (issueAll (.whd :: T.map .pkb ++ [.pke]) s).out = (issue .whd s).out ++ bs
      ∧ streamBits bs
          = padToByte ((T.flatMap fun b => codewordOf s.lent s.code b.toNat) ++ codewordOf s.lent s.code Config.endSym)
      ∧ bs.length
          = ((T.map fun b => (tableGet s.lent b.toNat).toNat).sum + (tableGet s.lent Config.endSym).toNat + 7) / 8

/-! ### BitTrieDecoder -/

/-- R151, R152: `child(i, bit)` is `2*i + 1 + bit` and does not wrap for a slot of depth below 255; the walk of an `L`-bit
value ends at slot `2^L - 1` plus the value; in a prefix-free code in range, symbols have different slots and no symbol's
slot lies on the way to another's. -/
def Obligations.TrieSlotsInClosedForm : Prop :=
  (∀ (i : SlotIdx) (bit : Bool), i.toNat ≤ 2 ^ 255 - 2 → (child i bit).toNat = 2 * i.toNat + 1 + bit.toNat)
    ∧ (∀ (c : CodeVal) (L : Nat), L ≤ Config.lmax → (childWalk c L 0).toNat = 2 ^ L - 1 + c.toNat % 2 ^ L)
    ∧ ∀ (lent : Table 8) (code : Table Config.codeW), CodesInRange lent code → PrefixFree lent code →
        (∀ a, Coded lent a →
            (symbolSlot lent code a).toNat = 2 ^ (tableGet lent a).toNat - 1 + (tableGet code a).toNat)
          ∧ ∀ a b, Coded lent a → Coded lent b → a ≠ b →
            symbolSlot lent code a ≠ symbolSlot lent code b
              ∧ ∀ j, pathSlot ((codewordOf lent code b).take j) ≠ (symbolSlot lent code a).toNat

/-- R153: `TRI` in DCODES stores each coded symbol at the slot of its codeword and nothing elsewhere, and sets `SLOT` and
`DEPTH` to 0. -/
def Obligations.TriStoresTheCodewords : Prop :=
  CommandIs .tri 0x0900 [.dcodes] ∧ ∀ s : State, s.phase = .dcodes → CodesInRange s.lent s.code → PrefixFree s.lent s.code →
    ∃ t, exec .tri s = .next t ∧ TrieHolds t.lent t.code t.trie ∧ assocFind t.trie 0 = none ∧ t.trie.length ≤ Config.nsym
      ∧ t.slot = 0 ∧ t.depth = 0 ∧ t.phase = .dec
      ∧ SameErr s t ∧ SameCounts s t ∧ SameTree s t ∧ SameLengths s t ∧ SameCodes s t ∧ SameCursor s t ∧ SameAcc s t
      ∧ SameOut s t ∧ SameInput s t

/-- R155, R156, R157: `DCB b` in DEC walks the bits of `b` from bit 7 on, from the path at which the walk stands: the bytes
of the symbols met are emitted, END ends the call and the bits after it are ignored, and a bit to be consumed at depth
`MAXLEN` raises `CorruptStream` with the effects of the bits before it kept. In DEC_DONE nothing changes. -/
def Obligations.DcbWalksEightBits : Prop :=
  (∀ b : Byte, CommandIs (.dcb b) ((0x0A : Byte) ++ b) [.dec, .decDone])
  ∧ (∀ (b : Byte) (s : State), s.phase = .decDone → exec (.dcb b) s = .next s)
  ∧ ∀ (b : Byte) (s : State) (path : List Bool), s.phase = .dec → s.slot.toNat = pathSlot path →
    s.depth.toNat = path.length → path.length ≤ s.maxlen.toNat →
    ∃ t, exec (.dcb b) s = .next t
      ∧ t.out = s.out ++ (walkPath s.trie s.maxlen.toNat path (byteBits b)).1
      ∧ (match (walkPath s.trie s.maxlen.toNat path (byteBits b)).2 with
          | .more q => t.phase = .dec ∧ t.slot.toNat = pathSlot q ∧ t.depth.toNat = q.length ∧ SameErr s t
          | .ended => t.phase = .decDone ∧ t.slot = 0 ∧ t.depth = 0 ∧ SameErr s t
          | .stuck q => t.phase = .fault ∧ t.err = .corruptStream ∧ t.errcmd = encodeWord (.dcb b)
              ∧ t.slot.toNat = pathSlot q ∧ t.depth.toNat = q.length ∧ q.length = s.maxlen.toNat)
      ∧ SameCounts s t ∧ SameTree s t ∧ SameLengths s t ∧ SameCodes s t ∧ SameCursor s t ∧ SameAcc s t ∧ SameTrie s t
      ∧ SameInput s t

/-- R158: `DCB` in DEC_DONE changes nothing, emits nothing and raises nothing. -/
def Obligations.DcbAfterEndChangesNothing : Prop :=
  ∀ (bs : List Byte) (s : State), s.phase = .decDone →
    (∀ b, exec (.dcb b) s = .next s) ∧ issueAll (bs.map .dcb) s = s

/-- R155, R156: payload bytes fed one by one are one walk of their bits: a codeword may span several bytes, and once END is
met or the trie is left nothing more is decoded. -/
def Obligations.PayloadBytesAreOneWalk : Prop :=
  ∀ (bs : List Byte) (s : State) (path : List Bool), s.phase = .dec → s.slot.toNat = pathSlot path →
    s.depth.toNat = path.length → path.length ≤ s.maxlen.toNat →
    (issueAll (bs.map .dcb) s).out = s.out ++ (walkPath s.trie s.maxlen.toNat path (streamBits bs)).1
      ∧ (match (walkPath s.trie s.maxlen.toNat path (streamBits bs)).2 with
          | .more q => (issueAll (bs.map .dcb) s).phase = .dec ∧ (issueAll (bs.map .dcb) s).slot.toNat = pathSlot q
              ∧ (issueAll (bs.map .dcb) s).depth.toNat = q.length
          | .ended => (issueAll (bs.map .dcb) s).phase = .decDone
          | .stuck _ => (issueAll (bs.map .dcb) s).phase = .fault ∧ (issueAll (bs.map .dcb) s).err = .corruptStream)

/-- R155, R156, R168: in DEC at the start slot, over the trie of a prefix-free code that has a codeword for END, `DCB` of
payload bytes whose bits are the codewords of any sequence of coded bytes, then END's, then anything, emits exactly that
sequence and ends in DEC_DONE at the start slot; nothing else changes. -/
def Obligations.WalkRecognisesCodewords : Prop :=
  ∀ (s : State) (T bs : List Byte) (rest : List Bool), s.phase = .dec → s.slot = 0 → s.depth = 0 → MaxLenRight s →
    CodesInRange s.lent s.code → PrefixFree s.lent s.code → TrieHolds s.lent s.code s.trie →
    tableGet s.lent Config.endSym ≠ 0 → (∀ b ∈ T, tableGet s.lent b.toNat ≠ 0) →
    streamBits bs
      = (T.flatMap fun b => codewordOf s.lent s.code b.toNat) ++ codewordOf s.lent s.code Config.endSym ++ rest →
    issueAll (bs.map .dcb) s = { s with out := s.out ++ T, phase := .decDone }

/-! ### Invariants -/

/-- R13, R14: every step keeps `ERR` set exactly in FAULT and `ERRCMD` 0 while no fault is recorded. -/
def Obligations.StepKeepsFaultLatch : Prop := ∀ s t : State, FaultLatch s → step s = .next t → FaultLatch t

/-- R16: every step keeps `NBYTES` the sum of `FREQ` and at most `2^CNT_W - 2`. -/
def Obligations.StepKeepsCountsAgree : Prop := ∀ s t : State, CountsAgree s → step s = .next t → CountsAgree t

/-- R25: every step keeps at most seven bits in the accumulator and the bits above them 0. -/
def Obligations.StepKeepsAccHeld : Prop := ∀ s t : State, AccHeld s → step s = .next t → AccHeld t

/-- R27, R151: every step keeps `SLOT` on the level of `DEPTH`, and `DEPTH` at most `MAXLEN` while payload is walked. -/
def Obligations.StepKeepsWalkHeld : Prop := ∀ s t : State, WalkHeld s → step s = .next t → WalkHeld t

/-- R26: every step keeps the trie's slots at most 257, from 1 to `2^256 - 2`, holding symbols. That the model lists them
with rising indices is its own choice of a physical form, which R26 leaves free (log 9, DESIGN CHOICE). -/
def Obligations.StepKeepsTrieCanonical : Prop := ∀ s t : State, TrieCanonical s → step s = .next t → TrieCanonical t

/-- Log 9 (the model's choice): every step keeps every table memory in its canonical form. -/
def Obligations.StepKeepsTablesCanonical : Prop := ∀ s t : State, TablesCanonical s → step s = .next t → TablesCanonical t

/-- The state after reset keeps the invariants of 10_state.md, and those of the model's own: the canonical form of the tables
and the rising indices of the trie (`TablesCanonical`, `TrieCanonical.sorted`; log 9, DESIGN CHOICE). -/
def Obligations.ResetHoldsInvariants : Prop := Inv State.reset ∧ FlowInv State.reset

/-- R12, R13, R14, R16, R22 to R27: every step keeps the invariants of 10_state.md that hold in every phase. A part of `Inv`
is the model's own choice and no rule of the spec: the canonical form of the tables and the rising indices of the trie
(`TablesCanonical`, `TrieCanonical.sorted`; log 9, DESIGN CHOICE). -/
def Obligations.StepKeepsInv : Prop := ∀ s t : State, Inv s → step s = .next t → Inv t

/-- R18 to R22, R26, R32: every step keeps the invariants that tie the tree, the lengths, the code and the trie to the
phases in which they mean something. -/
def Obligations.StepKeepsFlowInv : Prop := ∀ s t : State, Inv s → FlowInv s → step s = .next t → FlowInv t

/-! ### Whole calls -/

/-- R10, R176: the result of a call does not depend on the state the block is in when it begins. -/
def Obligations.CallsAreDeterministic : Prop :=
  (∀ (S : List Byte) (s s' : State), encodeCall S s = encodeCall S s')
    ∧ ∀ (Z : List Byte) (s s' : State), decodeCall Z s = decodeCall Z s'

/-- R165, R167, R169: `encode(S)` does not fail; it is the header of the lengths of S's code, with one pair for each
distinct byte of `S`, followed by the codewords of S's bytes in order and END's, padded to a byte boundary. -/
def Obligations.EncodeIsHeaderThenPayload : Prop :=
  ∀ (S : List Byte) (s : State), S.length ≤ 2 ^ Config.cntW - 2 →
    ∃ u payload, u = issueAll ([.clr] ++ S.map .cnt ++ [.bld, .len, .asg]) s ∧ u.phase = .codes
      ∧ (∀ b : Byte, b ∈ S ↔ tableGet u.lent b.toNat ≠ 0)
      ∧ encodeCall S s = .bytes (headerBytes u.lent ++ payload)
      ∧ (headerBytes u.lent).length = 3 + 2 * S.dedup.length
      ∧ streamBits payload
          = padToByte ((S.flatMap fun b => codewordOf u.lent u.code b.toNat) ++ codewordOf u.lent u.code Config.endSym)
      ∧ payload.length
          = ((S.map fun b => (tableGet u.lent b.toNat).toNat).sum + (tableGet u.lent Config.endSym).toNat + 7) / 8

/-- R173: one repeated byte: the header is `00 02 01 ss 01` and the payload is a 0 for each byte, then a 1, padded; the
stream decodes to the bytes. -/
def Obligations.EncodeOfOneRepeatedByte : Prop :=
  ∀ (b : Byte) (n : Nat) (s s' : State), 1 ≤ n → n ≤ 2 ^ Config.cntW - 2 →
    ∃ payload, encodeCall (List.replicate n b) s = .bytes ([0x00, 0x02, 0x01, b, 0x01] ++ payload)
      ∧ streamBits payload = padToByte (List.replicate n false ++ [true])
      ∧ decodeCall ([0x00, 0x02, 0x01, b, 0x01] ++ payload) s' = .bytes (List.replicate n b)

/-- R174: on any block, `encode("")` is `00 01 01 00` and `decode` of it is empty. -/
def Obligations.EmptyInputRoundTrip : Prop :=
  ∀ s : State, encodeCall [] s = .bytes [0x00, 0x01, 0x01, 0x00] ∧ decodeCall [0x00, 0x01, 0x01, 0x00] s = .bytes []

/-- R168: for every byte sequence `S` that may be counted, `encode(S)` does not fail and `decode(encode(S)) = S`, on the same
block or another, in any state. -/
def Obligations.DecodeOfEncodeIsIdentity : Prop :=
  ∀ (S : List Byte) (s s' : State), S.length ≤ 2 ^ Config.cntW - 2 →
    ∃ Z, encodeCall S s = .bytes Z ∧ decodeCall Z s' = .bytes S

/-- R172: the lengths `LEN` computes make the payload no longer than any prefix-free code on the symbols present and END
with no empty codeword. -/
def Obligations.LengthsAreOptimal : Prop :=
  ∀ s : State, Inv s → (s.phase = .idle ∨ s.phase = .count) →
    ∃ t u, exec .bld s = .next t ∧ exec .len t = .next u ∧ u.phase = .lens
      ∧ ∀ cw : Nat → List Bool,
          (∀ x, IsLeafSymbol s x → cw x ≠ []) →
          (∀ x y, IsLeafSymbol s x → IsLeafSymbol s y → x ≠ y → ¬ cw x <+: cw y) →
          ((presentSymbols s.freq).map fun x => (tableGet s.freq x).toNat * (tableGet u.lent x).toNat).sum
              + (tableGet u.lent Config.endSym).toNat
            ≤ ((presentSymbols s.freq).map fun x => (tableGet s.freq x).toNat * (cw x).length).sum
              + (cw Config.endSym).length
end

