-- ==== Sys2Proof/Laws/State.lean ====
section
/-! SUPPORT. One lemma per field per named update of State, true by rfl, so that no proof unfolds a record update; and the
fields of the state after reset (R31). -/

namespace Sys2Proof.Machine

/-! ### The state after reset -/

@[simp] theorem reset_input : State.reset.input = [] := rfl
@[simp] theorem reset_phase : State.reset.phase = .idle := rfl
@[simp] theorem reset_err : State.reset.err = .noFault := rfl
@[simp] theorem reset_errcmd : State.reset.errcmd = 0 := rfl
@[simp] theorem reset_nbytes : State.reset.nbytes = 0 := rfl
@[simp] theorem reset_freq : State.reset.freq = [] := rfl
@[simp] theorem reset_nodeWt : State.reset.nodeWt = [] := rfl
@[simp] theorem reset_nodeL : State.reset.nodeL = [] := rfl
@[simp] theorem reset_nodeR : State.reset.nodeR = [] := rfl
@[simp] theorem reset_root : State.reset.root = 0 := rfl
@[simp] theorem reset_nint : State.reset.nint = 0 := rfl
@[simp] theorem reset_lent : State.reset.lent = [] := rfl
@[simp] theorem reset_code : State.reset.code = [] := rfl
@[simp] theorem reset_maxlen : State.reset.maxlen = 0 := rfl
@[simp] theorem reset_hpos : State.reset.hpos = 0 := rfl
@[simp] theorem reset_hsize : State.reset.hsize = 0 := rfl
@[simp] theorem reset_hsym : State.reset.hsym = 0 := rfl
@[simp] theorem reset_hprev : State.reset.hprev = 0 := rfl
@[simp] theorem reset_acc : State.reset.acc = 0 := rfl
@[simp] theorem reset_nacc : State.reset.nacc = 0 := rfl
@[simp] theorem reset_trie : State.reset.trie = [] := rfl
@[simp] theorem reset_slot : State.reset.slot = 0 := rfl
@[simp] theorem reset_depth : State.reset.depth = 0 := rfl
@[simp] theorem reset_out : State.reset.out = [] := rfl

/-! ### raise -/

@[simp] theorem raise_input (f : Err) (w : Word) (s : State) : (raise f w s).input = s.input := rfl
@[simp] theorem raise_phase (f : Err) (w : Word) (s : State) : (raise f w s).phase = .fault := rfl
@[simp] theorem raise_err (f : Err) (w : Word) (s : State) : (raise f w s).err = f := rfl
@[simp] theorem raise_errcmd (f : Err) (w : Word) (s : State) : (raise f w s).errcmd = w := rfl
@[simp] theorem raise_nbytes (f : Err) (w : Word) (s : State) : (raise f w s).nbytes = s.nbytes := rfl
@[simp] theorem raise_freq (f : Err) (w : Word) (s : State) : (raise f w s).freq = s.freq := rfl
@[simp] theorem raise_nodeWt (f : Err) (w : Word) (s : State) : (raise f w s).nodeWt = s.nodeWt := rfl
@[simp] theorem raise_nodeL (f : Err) (w : Word) (s : State) : (raise f w s).nodeL = s.nodeL := rfl
@[simp] theorem raise_nodeR (f : Err) (w : Word) (s : State) : (raise f w s).nodeR = s.nodeR := rfl
@[simp] theorem raise_root (f : Err) (w : Word) (s : State) : (raise f w s).root = s.root := rfl
@[simp] theorem raise_nint (f : Err) (w : Word) (s : State) : (raise f w s).nint = s.nint := rfl
@[simp] theorem raise_lent (f : Err) (w : Word) (s : State) : (raise f w s).lent = s.lent := rfl
@[simp] theorem raise_code (f : Err) (w : Word) (s : State) : (raise f w s).code = s.code := rfl
@[simp] theorem raise_maxlen (f : Err) (w : Word) (s : State) : (raise f w s).maxlen = s.maxlen := rfl
@[simp] theorem raise_hpos (f : Err) (w : Word) (s : State) : (raise f w s).hpos = s.hpos := rfl
@[simp] theorem raise_hsize (f : Err) (w : Word) (s : State) : (raise f w s).hsize = s.hsize := rfl
@[simp] theorem raise_hsym (f : Err) (w : Word) (s : State) : (raise f w s).hsym = s.hsym := rfl
@[simp] theorem raise_hprev (f : Err) (w : Word) (s : State) : (raise f w s).hprev = s.hprev := rfl
@[simp] theorem raise_acc (f : Err) (w : Word) (s : State) : (raise f w s).acc = s.acc := rfl
@[simp] theorem raise_nacc (f : Err) (w : Word) (s : State) : (raise f w s).nacc = s.nacc := rfl
@[simp] theorem raise_trie (f : Err) (w : Word) (s : State) : (raise f w s).trie = s.trie := rfl
@[simp] theorem raise_slot (f : Err) (w : Word) (s : State) : (raise f w s).slot = s.slot := rfl
@[simp] theorem raise_depth (f : Err) (w : Word) (s : State) : (raise f w s).depth = s.depth := rfl
@[simp] theorem raise_out (f : Err) (w : Word) (s : State) : (raise f w s).out = s.out := rfl

/-! ### emit -/

@[simp] theorem emit_input (b : Byte) (s : State) : (emit b s).input = s.input := rfl
@[simp] theorem emit_phase (b : Byte) (s : State) : (emit b s).phase = s.phase := rfl
@[simp] theorem emit_err (b : Byte) (s : State) : (emit b s).err = s.err := rfl
@[simp] theorem emit_errcmd (b : Byte) (s : State) : (emit b s).errcmd = s.errcmd := rfl
@[simp] theorem emit_nbytes (b : Byte) (s : State) : (emit b s).nbytes = s.nbytes := rfl
@[simp] theorem emit_freq (b : Byte) (s : State) : (emit b s).freq = s.freq := rfl
@[simp] theorem emit_nodeWt (b : Byte) (s : State) : (emit b s).nodeWt = s.nodeWt := rfl
@[simp] theorem emit_nodeL (b : Byte) (s : State) : (emit b s).nodeL = s.nodeL := rfl
@[simp] theorem emit_nodeR (b : Byte) (s : State) : (emit b s).nodeR = s.nodeR := rfl
@[simp] theorem emit_root (b : Byte) (s : State) : (emit b s).root = s.root := rfl
@[simp] theorem emit_nint (b : Byte) (s : State) : (emit b s).nint = s.nint := rfl
@[simp] theorem emit_lent (b : Byte) (s : State) : (emit b s).lent = s.lent := rfl
@[simp] theorem emit_code (b : Byte) (s : State) : (emit b s).code = s.code := rfl
@[simp] theorem emit_maxlen (b : Byte) (s : State) : (emit b s).maxlen = s.maxlen := rfl
@[simp] theorem emit_hpos (b : Byte) (s : State) : (emit b s).hpos = s.hpos := rfl
@[simp] theorem emit_hsize (b : Byte) (s : State) : (emit b s).hsize = s.hsize := rfl
@[simp] theorem emit_hsym (b : Byte) (s : State) : (emit b s).hsym = s.hsym := rfl
@[simp] theorem emit_hprev (b : Byte) (s : State) : (emit b s).hprev = s.hprev := rfl
@[simp] theorem emit_acc (b : Byte) (s : State) : (emit b s).acc = s.acc := rfl
@[simp] theorem emit_nacc (b : Byte) (s : State) : (emit b s).nacc = s.nacc := rfl
@[simp] theorem emit_trie (b : Byte) (s : State) : (emit b s).trie = s.trie := rfl
@[simp] theorem emit_slot (b : Byte) (s : State) : (emit b s).slot = s.slot := rfl
@[simp] theorem emit_depth (b : Byte) (s : State) : (emit b s).depth = s.depth := rfl
@[simp] theorem emit_out (b : Byte) (s : State) : (emit b s).out = s.out ++ [b] := rfl

/-! ### emitAll -/

@[simp] theorem emitAll_input (bs : List Byte) (s : State) : (emitAll bs s).input = s.input := rfl
@[simp] theorem emitAll_phase (bs : List Byte) (s : State) : (emitAll bs s).phase = s.phase := rfl
@[simp] theorem emitAll_err (bs : List Byte) (s : State) : (emitAll bs s).err = s.err := rfl
@[simp] theorem emitAll_errcmd (bs : List Byte) (s : State) : (emitAll bs s).errcmd = s.errcmd := rfl
@[simp] theorem emitAll_nbytes (bs : List Byte) (s : State) : (emitAll bs s).nbytes = s.nbytes := rfl
@[simp] theorem emitAll_freq (bs : List Byte) (s : State) : (emitAll bs s).freq = s.freq := rfl
@[simp] theorem emitAll_nodeWt (bs : List Byte) (s : State) : (emitAll bs s).nodeWt = s.nodeWt := rfl
@[simp] theorem emitAll_nodeL (bs : List Byte) (s : State) : (emitAll bs s).nodeL = s.nodeL := rfl
@[simp] theorem emitAll_nodeR (bs : List Byte) (s : State) : (emitAll bs s).nodeR = s.nodeR := rfl
@[simp] theorem emitAll_root (bs : List Byte) (s : State) : (emitAll bs s).root = s.root := rfl
@[simp] theorem emitAll_nint (bs : List Byte) (s : State) : (emitAll bs s).nint = s.nint := rfl
@[simp] theorem emitAll_lent (bs : List Byte) (s : State) : (emitAll bs s).lent = s.lent := rfl
@[simp] theorem emitAll_code (bs : List Byte) (s : State) : (emitAll bs s).code = s.code := rfl
@[simp] theorem emitAll_maxlen (bs : List Byte) (s : State) : (emitAll bs s).maxlen = s.maxlen := rfl
@[simp] theorem emitAll_hpos (bs : List Byte) (s : State) : (emitAll bs s).hpos = s.hpos := rfl
@[simp] theorem emitAll_hsize (bs : List Byte) (s : State) : (emitAll bs s).hsize = s.hsize := rfl
@[simp] theorem emitAll_hsym (bs : List Byte) (s : State) : (emitAll bs s).hsym = s.hsym := rfl
@[simp] theorem emitAll_hprev (bs : List Byte) (s : State) : (emitAll bs s).hprev = s.hprev := rfl
@[simp] theorem emitAll_acc (bs : List Byte) (s : State) : (emitAll bs s).acc = s.acc := rfl
@[simp] theorem emitAll_nacc (bs : List Byte) (s : State) : (emitAll bs s).nacc = s.nacc := rfl
@[simp] theorem emitAll_trie (bs : List Byte) (s : State) : (emitAll bs s).trie = s.trie := rfl
@[simp] theorem emitAll_slot (bs : List Byte) (s : State) : (emitAll bs s).slot = s.slot := rfl
@[simp] theorem emitAll_depth (bs : List Byte) (s : State) : (emitAll bs s).depth = s.depth := rfl
@[simp] theorem emitAll_out (bs : List Byte) (s : State) : (emitAll bs s).out = s.out ++ bs := rfl

/-! ### clear -/

@[simp] theorem clear_input (s : State) : (clear s).input = s.input := rfl
@[simp] theorem clear_phase (s : State) : (clear s).phase = State.reset.phase := rfl
@[simp] theorem clear_err (s : State) : (clear s).err = State.reset.err := rfl
@[simp] theorem clear_errcmd (s : State) : (clear s).errcmd = State.reset.errcmd := rfl
@[simp] theorem clear_nbytes (s : State) : (clear s).nbytes = State.reset.nbytes := rfl
@[simp] theorem clear_freq (s : State) : (clear s).freq = State.reset.freq := rfl
@[simp] theorem clear_nodeWt (s : State) : (clear s).nodeWt = State.reset.nodeWt := rfl
@[simp] theorem clear_nodeL (s : State) : (clear s).nodeL = State.reset.nodeL := rfl
@[simp] theorem clear_nodeR (s : State) : (clear s).nodeR = State.reset.nodeR := rfl
@[simp] theorem clear_root (s : State) : (clear s).root = State.reset.root := rfl
@[simp] theorem clear_nint (s : State) : (clear s).nint = State.reset.nint := rfl
@[simp] theorem clear_lent (s : State) : (clear s).lent = State.reset.lent := rfl
@[simp] theorem clear_code (s : State) : (clear s).code = State.reset.code := rfl
@[simp] theorem clear_maxlen (s : State) : (clear s).maxlen = State.reset.maxlen := rfl
@[simp] theorem clear_hpos (s : State) : (clear s).hpos = State.reset.hpos := rfl
@[simp] theorem clear_hsize (s : State) : (clear s).hsize = State.reset.hsize := rfl
@[simp] theorem clear_hsym (s : State) : (clear s).hsym = State.reset.hsym := rfl
@[simp] theorem clear_hprev (s : State) : (clear s).hprev = State.reset.hprev := rfl
@[simp] theorem clear_acc (s : State) : (clear s).acc = State.reset.acc := rfl
@[simp] theorem clear_nacc (s : State) : (clear s).nacc = State.reset.nacc := rfl
@[simp] theorem clear_trie (s : State) : (clear s).trie = State.reset.trie := rfl
@[simp] theorem clear_slot (s : State) : (clear s).slot = State.reset.slot := rfl
@[simp] theorem clear_depth (s : State) : (clear s).depth = State.reset.depth := rfl
@[simp] theorem clear_out (s : State) : (clear s).out = s.out := rfl

/-! ### resetBlock -/

@[simp] theorem resetBlock_input (s : State) : (resetBlock s).input = s.input := rfl
@[simp] theorem resetBlock_phase (s : State) : (resetBlock s).phase = State.reset.phase := rfl
@[simp] theorem resetBlock_err (s : State) : (resetBlock s).err = State.reset.err := rfl
@[simp] theorem resetBlock_errcmd (s : State) : (resetBlock s).errcmd = State.reset.errcmd := rfl
@[simp] theorem resetBlock_nbytes (s : State) : (resetBlock s).nbytes = State.reset.nbytes := rfl
@[simp] theorem resetBlock_freq (s : State) : (resetBlock s).freq = State.reset.freq := rfl
@[simp] theorem resetBlock_nodeWt (s : State) : (resetBlock s).nodeWt = State.reset.nodeWt := rfl
@[simp] theorem resetBlock_nodeL (s : State) : (resetBlock s).nodeL = State.reset.nodeL := rfl
@[simp] theorem resetBlock_nodeR (s : State) : (resetBlock s).nodeR = State.reset.nodeR := rfl
@[simp] theorem resetBlock_root (s : State) : (resetBlock s).root = State.reset.root := rfl
@[simp] theorem resetBlock_nint (s : State) : (resetBlock s).nint = State.reset.nint := rfl
@[simp] theorem resetBlock_lent (s : State) : (resetBlock s).lent = State.reset.lent := rfl
@[simp] theorem resetBlock_code (s : State) : (resetBlock s).code = State.reset.code := rfl
@[simp] theorem resetBlock_maxlen (s : State) : (resetBlock s).maxlen = State.reset.maxlen := rfl
@[simp] theorem resetBlock_hpos (s : State) : (resetBlock s).hpos = State.reset.hpos := rfl
@[simp] theorem resetBlock_hsize (s : State) : (resetBlock s).hsize = State.reset.hsize := rfl
@[simp] theorem resetBlock_hsym (s : State) : (resetBlock s).hsym = State.reset.hsym := rfl
@[simp] theorem resetBlock_hprev (s : State) : (resetBlock s).hprev = State.reset.hprev := rfl
@[simp] theorem resetBlock_acc (s : State) : (resetBlock s).acc = State.reset.acc := rfl
@[simp] theorem resetBlock_nacc (s : State) : (resetBlock s).nacc = State.reset.nacc := rfl
@[simp] theorem resetBlock_trie (s : State) : (resetBlock s).trie = State.reset.trie := rfl
@[simp] theorem resetBlock_slot (s : State) : (resetBlock s).slot = State.reset.slot := rfl
@[simp] theorem resetBlock_depth (s : State) : (resetBlock s).depth = State.reset.depth := rfl
@[simp] theorem resetBlock_out (s : State) : (resetBlock s).out = State.reset.out := rfl

/-! ### stepDown -/

@[simp] theorem stepDown_input (bit : Bool) (s : State) : (stepDown bit s).input = s.input := rfl
@[simp] theorem stepDown_phase (bit : Bool) (s : State) : (stepDown bit s).phase = s.phase := rfl
@[simp] theorem stepDown_err (bit : Bool) (s : State) : (stepDown bit s).err = s.err := rfl
@[simp] theorem stepDown_errcmd (bit : Bool) (s : State) : (stepDown bit s).errcmd = s.errcmd := rfl
@[simp] theorem stepDown_nbytes (bit : Bool) (s : State) : (stepDown bit s).nbytes = s.nbytes := rfl
@[simp] theorem stepDown_freq (bit : Bool) (s : State) : (stepDown bit s).freq = s.freq := rfl
@[simp] theorem stepDown_nodeWt (bit : Bool) (s : State) : (stepDown bit s).nodeWt = s.nodeWt := rfl
@[simp] theorem stepDown_nodeL (bit : Bool) (s : State) : (stepDown bit s).nodeL = s.nodeL := rfl
@[simp] theorem stepDown_nodeR (bit : Bool) (s : State) : (stepDown bit s).nodeR = s.nodeR := rfl
@[simp] theorem stepDown_root (bit : Bool) (s : State) : (stepDown bit s).root = s.root := rfl
@[simp] theorem stepDown_nint (bit : Bool) (s : State) : (stepDown bit s).nint = s.nint := rfl
@[simp] theorem stepDown_lent (bit : Bool) (s : State) : (stepDown bit s).lent = s.lent := rfl
@[simp] theorem stepDown_code (bit : Bool) (s : State) : (stepDown bit s).code = s.code := rfl
@[simp] theorem stepDown_maxlen (bit : Bool) (s : State) : (stepDown bit s).maxlen = s.maxlen := rfl
@[simp] theorem stepDown_hpos (bit : Bool) (s : State) : (stepDown bit s).hpos = s.hpos := rfl
@[simp] theorem stepDown_hsize (bit : Bool) (s : State) : (stepDown bit s).hsize = s.hsize := rfl
@[simp] theorem stepDown_hsym (bit : Bool) (s : State) : (stepDown bit s).hsym = s.hsym := rfl
@[simp] theorem stepDown_hprev (bit : Bool) (s : State) : (stepDown bit s).hprev = s.hprev := rfl
@[simp] theorem stepDown_acc (bit : Bool) (s : State) : (stepDown bit s).acc = s.acc := rfl
@[simp] theorem stepDown_nacc (bit : Bool) (s : State) : (stepDown bit s).nacc = s.nacc := rfl
@[simp] theorem stepDown_trie (bit : Bool) (s : State) : (stepDown bit s).trie = s.trie := rfl
@[simp] theorem stepDown_slot (bit : Bool) (s : State) : (stepDown bit s).slot = child s.slot bit := rfl
@[simp] theorem stepDown_depth (bit : Bool) (s : State) : (stepDown bit s).depth = s.depth + 1 := rfl
@[simp] theorem stepDown_out (bit : Bool) (s : State) : (stepDown bit s).out = s.out := rfl

/-! ### toStartSlot -/

@[simp] theorem toStartSlot_input (s : State) : (toStartSlot s).input = s.input := rfl
@[simp] theorem toStartSlot_phase (s : State) : (toStartSlot s).phase = s.phase := rfl
@[simp] theorem toStartSlot_err (s : State) : (toStartSlot s).err = s.err := rfl
@[simp] theorem toStartSlot_errcmd (s : State) : (toStartSlot s).errcmd = s.errcmd := rfl
@[simp] theorem toStartSlot_nbytes (s : State) : (toStartSlot s).nbytes = s.nbytes := rfl
@[simp] theorem toStartSlot_freq (s : State) : (toStartSlot s).freq = s.freq := rfl
@[simp] theorem toStartSlot_nodeWt (s : State) : (toStartSlot s).nodeWt = s.nodeWt := rfl
@[simp] theorem toStartSlot_nodeL (s : State) : (toStartSlot s).nodeL = s.nodeL := rfl
@[simp] theorem toStartSlot_nodeR (s : State) : (toStartSlot s).nodeR = s.nodeR := rfl
@[simp] theorem toStartSlot_root (s : State) : (toStartSlot s).root = s.root := rfl
@[simp] theorem toStartSlot_nint (s : State) : (toStartSlot s).nint = s.nint := rfl
@[simp] theorem toStartSlot_lent (s : State) : (toStartSlot s).lent = s.lent := rfl
@[simp] theorem toStartSlot_code (s : State) : (toStartSlot s).code = s.code := rfl
@[simp] theorem toStartSlot_maxlen (s : State) : (toStartSlot s).maxlen = s.maxlen := rfl
@[simp] theorem toStartSlot_hpos (s : State) : (toStartSlot s).hpos = s.hpos := rfl
@[simp] theorem toStartSlot_hsize (s : State) : (toStartSlot s).hsize = s.hsize := rfl
@[simp] theorem toStartSlot_hsym (s : State) : (toStartSlot s).hsym = s.hsym := rfl
@[simp] theorem toStartSlot_hprev (s : State) : (toStartSlot s).hprev = s.hprev := rfl
@[simp] theorem toStartSlot_acc (s : State) : (toStartSlot s).acc = s.acc := rfl
@[simp] theorem toStartSlot_nacc (s : State) : (toStartSlot s).nacc = s.nacc := rfl
@[simp] theorem toStartSlot_trie (s : State) : (toStartSlot s).trie = s.trie := rfl
@[simp] theorem toStartSlot_slot (s : State) : (toStartSlot s).slot = 0 := rfl
@[simp] theorem toStartSlot_depth (s : State) : (toStartSlot s).depth = 0 := rfl
@[simp] theorem toStartSlot_out (s : State) : (toStartSlot s).out = s.out := rfl

end Sys2Proof.Machine
end

