-- ==== Sys2Proof/Laws/Ops.lean ====
section
/-! SUPPORT. The laws of partial maps and tables (read after write, canonical form), of raising a fault, and what the
sequencer can do (R80). -/

namespace Sys2Proof.Machine

/-! ### Partial maps -/

section Assoc

variable {α : Type}

@[simp] theorem assocFind_nil (i : Nat) : assocFind ([] : Assoc α) i = none := rfl

@[simp] theorem assocFind_assocErase_self (m : Assoc α) (i : Nat) : assocFind (assocErase m i) i = none := by
  induction m with
  | nil => rfl
  | cons p rest ih =>
    obtain ⟨k, v⟩ := p
    by_cases h : k = i <;> simp [assocErase, assocFind, h, ih]

theorem assocFind_assocErase_ne (m : Assoc α) {i j : Nat} (h : j ≠ i) :
    assocFind (assocErase m i) j = assocFind m j := by
  induction m with
  | nil => rfl
  | cons p rest ih =>
    obtain ⟨k, v⟩ := p
    by_cases hk : k = i
    · have hj : ¬ i = j := fun e => h e.symm
      simp [assocErase, assocFind, hk, ih, hj]
    · simp only [assocErase, hk, if_false, assocFind, ih]

theorem assocFind_assocInsert_self (m : Assoc α) (i : Nat) (x : α) (hm : assocFind m i = none) :
    assocFind (assocInsert m i x) i = some x := by
  induction m with
  | nil => simp [assocInsert, assocFind]
  | cons p rest ih =>
    obtain ⟨k, v⟩ := p
    by_cases hk : k = i
    · simp [assocFind, hk] at hm
    · simp only [assocFind, hk, if_false] at hm
      by_cases hlt : i < k <;> simp [assocInsert, assocFind, hlt, hk, ih hm]

theorem assocFind_assocInsert_ne (m : Assoc α) {i j : Nat} (x : α) (h : j ≠ i) :
    assocFind (assocInsert m i x) j = assocFind m j := by
  have hij : ¬ i = j := fun e => h e.symm
  induction m with
  | nil => simp [assocInsert, assocFind, hij]
  | cons p rest ih =>
    obtain ⟨k, v⟩ := p
    by_cases hlt : i < k
    · simp only [assocInsert, hlt, if_true, assocFind, hij, if_false]
    · simp only [assocInsert, hlt, if_false, assocFind, ih]

@[simp] theorem assocFind_assocPut_self (m : Assoc α) (i : Nat) (x : α) : assocFind (assocPut m i x) i = some x :=
  assocFind_assocInsert_self _ _ _ (by simp)

theorem assocFind_assocPut_ne (m : Assoc α) {i j : Nat} (x : α) (h : j ≠ i) :
    assocFind (assocPut m i x) j = assocFind m j := by
  rw [assocPut, assocFind_assocInsert_ne _ _ h, assocFind_assocErase_ne _ h]

/-- The canonical form as mathlib's pairwise order on the indices. -/
theorem assocSorted_iff (m : Assoc α) : assocSorted m = true ↔ m.Pairwise (fun p q => p.1 < q.1) := by
  induction m with
  | nil => simp [assocSorted]
  | cons p rest ih =>
    obtain ⟨k, v⟩ := p
    cases rest with
    | nil => simp [assocSorted]
    | cons q rest' =>
      obtain ⟨k', v'⟩ := q
      rw [assocSorted, Bool.and_eq_true, ih, List.pairwise_cons (a := (k, v))]
      constructor
      · rintro ⟨h, hs⟩
        refine ⟨fun r hr => ?_, hs⟩
        rcases List.mem_cons.1 hr with rfl | hr
        · exact of_decide_eq_true h
        · exact lt_trans (of_decide_eq_true h) ((List.pairwise_cons.1 hs).1 r hr)
      · rintro ⟨h, hs⟩
        exact ⟨decide_eq_true (h (k', v') (by simp)), hs⟩

theorem mem_assocErase {m : Assoc α} {i : Nat} {p : Nat × α} : p ∈ assocErase m i ↔ p ∈ m ∧ p.1 ≠ i := by
  induction m with
  | nil => simp [assocErase]
  | cons q rest ih =>
    obtain ⟨k, v⟩ := q
    by_cases hk : k = i
    · simp only [assocErase, hk, if_true, ih, List.mem_cons]
      constructor
      · rintro ⟨h, hne⟩; exact ⟨Or.inr h, hne⟩
      · rintro ⟨rfl | h, hne⟩
        · exact absurd rfl hne
        · exact ⟨h, hne⟩
    · simp only [assocErase, hk, if_false, List.mem_cons, ih]
      constructor
      · rintro (rfl | ⟨h, hne⟩)
        · exact ⟨Or.inl rfl, hk⟩
        · exact ⟨Or.inr h, hne⟩
      · rintro ⟨rfl | h, hne⟩
        · exact Or.inl rfl
        · exact Or.inr ⟨h, hne⟩

theorem mem_assocInsert {m : Assoc α} {i : Nat} {x : α} {p : Nat × α} :
    p ∈ assocInsert m i x ↔ p = (i, x) ∨ p ∈ m := by
  induction m with
  | nil => simp [assocInsert]
  | cons q rest ih =>
    obtain ⟨k, v⟩ := q
    by_cases hlt : i < k
    · simp [assocInsert, hlt]
    · simp only [assocInsert, hlt, if_false, List.mem_cons, ih]
      tauto

theorem mem_assocPut {m : Assoc α} {i : Nat} {x : α} {p : Nat × α} :
    p ∈ assocPut m i x ↔ p = (i, x) ∨ (p ∈ m ∧ p.1 ≠ i) := by
  rw [assocPut, mem_assocInsert, mem_assocErase]

theorem assocErase_sorted {m : Assoc α} (i : Nat) (h : assocSorted m = true) : assocSorted (assocErase m i) = true := by
  rw [assocSorted_iff] at h ⊢
  induction m with
  | nil => simp [assocErase]
  | cons q rest ih =>
    obtain ⟨k, v⟩ := q
    rw [List.pairwise_cons] at h
    by_cases hk : k = i
    · simpa [assocErase, hk] using ih h.2
    · simp only [assocErase, hk, if_false, List.pairwise_cons]
      exact ⟨fun p hp => h.1 p (mem_assocErase.1 hp).1, ih h.2⟩

theorem assocInsert_sorted {m : Assoc α} {i : Nat} (x : α) (h : assocSorted m = true) (hi : ∀ p ∈ m, p.1 ≠ i) :
    assocSorted (assocInsert m i x) = true := by
  rw [assocSorted_iff] at h ⊢
  induction m with
  | nil => simp [assocInsert]
  | cons q rest ih =>
    obtain ⟨k, v⟩ := q
    have h' := List.pairwise_cons.1 h
    have hk : k ≠ i := hi (k, v) (by simp)
    by_cases hlt : i < k
    · simp only [assocInsert, hlt, if_true, List.pairwise_cons]
      refine ⟨fun p hp => ?_, h'⟩
      rcases List.mem_cons.1 hp with rfl | hp
      · exact hlt
      · exact lt_trans hlt (h'.1 p hp)
    · simp only [assocInsert, hlt, if_false, List.pairwise_cons]
      refine ⟨fun p hp => ?_, ih h'.2 fun p hp => hi p (by simp [hp])⟩
      rcases mem_assocInsert.1 hp with rfl | hp
      · show k < i
        omega
      · exact h'.1 p hp

/-- `assocPut` keeps the canonical form. -/
theorem assocPut_sorted {m : Assoc α} (i : Nat) (x : α) (h : assocSorted m = true) :
    assocSorted (assocPut m i x) = true :=
  assocInsert_sorted x (assocErase_sorted i h) fun _ hp => (mem_assocErase.1 hp).2

theorem assocErase_length_le (m : Assoc α) (i : Nat) : (assocErase m i).length ≤ m.length := by
  induction m with
  | nil => simp [assocErase]
  | cons q rest ih =>
    obtain ⟨k, v⟩ := q
    by_cases hk : k = i <;> simp [assocErase, hk] <;> omega

@[simp] theorem assocInsert_length (m : Assoc α) (i : Nat) (x : α) : (assocInsert m i x).length = m.length + 1 := by
  induction m with
  | nil => rfl
  | cons q rest ih =>
    obtain ⟨k, v⟩ := q
    by_cases hlt : i < k <;> simp [assocInsert, hlt, ih]

theorem assocPut_length_le (m : Assoc α) (i : Nat) (x : α) : (assocPut m i x).length ≤ m.length + 1 := by
  have := assocErase_length_le m i
  simp only [assocPut, assocInsert_length]
  omega

/-- In canonical form a pair is in the map exactly when its index finds its value. -/
theorem assocFind_eq_some {m : Assoc α} (h : assocSorted m = true) {i : Nat} {x : α} :
    assocFind m i = some x ↔ (i, x) ∈ m := by
  rw [assocSorted_iff] at h
  induction m with
  | nil => simp
  | cons q rest ih =>
    obtain ⟨k, v⟩ := q
    have h' := List.pairwise_cons.1 h
    by_cases hk : k = i
    · subst hk
      simp only [assocFind, if_true, Option.some.injEq, List.mem_cons, Prod.mk.injEq, true_and]
      constructor
      · intro e; exact Or.inl e.symm
      · rintro (e | hm)
        · exact e.symm
        · exact absurd (h'.1 _ hm) (lt_irrefl _)
    · have hk' : ¬ i = k := fun e => hk e.symm
      simp [assocFind, hk, hk', ih h'.2]

/-- Two maps in canonical form that find the same are the same map. -/
theorem assoc_ext {m n : Assoc α} (hm : assocSorted m = true) (hn : assocSorted n = true)
    (h : ∀ i, assocFind m i = assocFind n i) : m = n := by
  have hmem : ∀ p, p ∈ m ↔ p ∈ n := fun p => by
    rw [← assocFind_eq_some hm, ← assocFind_eq_some hn, h]
  have hm' := (assocSorted_iff m).1 hm
  have hn' := (assocSorted_iff n).1 hn
  have nodup : ∀ {l : Assoc α}, l.Pairwise (fun p q => p.1 < q.1) → l.Nodup := fun hl =>
    hl.imp fun hlt e => absurd hlt (by rw [e]; exact lt_irrefl _)
  have hp : m.Perm n := (List.perm_ext_iff_of_nodup (nodup hm') (nodup hn')).2 hmem
  exact hp.eq_of_pairwise (fun a b _ _ hab hba => absurd (lt_trans hab hba) (lt_irrefl _)) hm' hn'

end Assoc

/-! ### Tables -/

section Tables

variable {w : Nat}

@[simp] theorem tableGet_nil (i : Nat) : tableGet ([] : Table w) i = 0 := rfl

/-- A read after a write to the same entry gives the value written. -/
@[simp] theorem tableGet_tableSet_self (t : Table w) (i : Nat) (v : BitVec w) : tableGet (tableSet t i v) i = v := by
  unfold tableGet tableSet
  split
  · rename_i hv; simp [hv]
  · simp

/-- A write leaves every other entry alone. -/
theorem tableGet_tableSet_ne (t : Table w) {i j : Nat} (v : BitVec w) (h : j ≠ i) :
    tableGet (tableSet t i v) j = tableGet t j := by
  unfold tableGet tableSet
  split
  · rw [assocFind_assocErase_ne _ h]
  · rw [assocFind_assocPut_ne _ _ h]

theorem tableGet_tableSet (t : Table w) (i j : Nat) (v : BitVec w) :
    tableGet (tableSet t i v) j = if j = i then v else tableGet t j := by
  by_cases h : j = i
  · simp [h]
  · simp [h, tableGet_tableSet_ne]

theorem tableWf_iff {lo hi : Nat} {t : Table w} :
    tableWf lo hi t = true ↔ assocSorted t = true ∧ ∀ p ∈ t, lo ≤ p.1 ∧ p.1 < hi ∧ p.2 ≠ 0 := by
  simp only [tableWf, Bool.and_eq_true, List.all_eq_true, decide_eq_true_eq, and_assoc]

@[simp] theorem tableWf_nil (lo hi : Nat) : tableWf lo hi ([] : Table w) = true := rfl

/-- Every write to an entry of the table keeps the canonical form. -/
theorem tableSet_wf {lo hi : Nat} {t : Table w} (h : tableWf lo hi t = true) {i : Nat} (hlo : lo ≤ i) (hhi : i < hi)
    (v : BitVec w) : tableWf lo hi (tableSet t i v) = true := by
  rw [tableWf_iff] at h ⊢
  by_cases hv : v = 0
  · simp only [tableSet, hv, if_true]
    exact ⟨assocErase_sorted i h.1, fun p hp => h.2 p (mem_assocErase.1 hp).1⟩
  · simp only [tableSet, hv, if_false]
    refine ⟨assocPut_sorted i v h.1, fun p hp => ?_⟩
    rcases mem_assocPut.1 hp with rfl | ⟨hp, -⟩
    · exact ⟨hlo, hhi, hv⟩
    · exact h.2 p hp

/-- An entry outside a canonical table's range reads 0. -/
theorem tableGet_eq_zero_of_outside {lo hi : Nat} {t : Table w} (h : tableWf lo hi t = true) {i : Nat}
    (hi' : i < lo ∨ hi ≤ i) : tableGet t i = 0 := by
  rw [tableWf_iff] at h
  cases hf : assocFind t i with
  | none => simp [tableGet, hf]
  | some v =>
    have := h.2 _ ((assocFind_eq_some h.1).1 hf)
    omega

/-- Two canonical tables that read the same are the same table. -/
theorem table_ext {lo hi : Nat} {t u : Table w} (ht : tableWf lo hi t = true) (hu : tableWf lo hi u = true)
    (h : ∀ i, tableGet t i = tableGet u i) : t = u := by
  rw [tableWf_iff] at ht hu
  refine assoc_ext ht.1 hu.1 fun i => ?_
  have hi := h i
  simp only [tableGet] at hi
  cases hft : assocFind t i with
  | none =>
    cases hfu : assocFind u i with
    | none => rfl
    | some v =>
      simp only [hft, hfu, Option.getD_none, Option.getD_some] at hi
      exact absurd hi.symm (hu.2 _ ((assocFind_eq_some hu.1).1 hfu)).2.2
  | some v =>
    cases hfu : assocFind u i with
    | none =>
      simp only [hft, hfu, Option.getD_none, Option.getD_some] at hi
      exact absurd hi (ht.2 _ ((assocFind_eq_some ht.1).1 hft)).2.2
    | some v' =>
      simp only [hft, hfu, Option.getD_some] at hi
      rw [hi]

end Tables

@[simp] theorem mem_symbols {s : Nat} : s ∈ symbols ↔ s ≤ Config.endSym := by
  simp [symbols, Config.nsym, Config.endSym]; omega

@[simp] theorem mem_byteValues {s : Nat} : s ∈ byteValues ↔ s < Config.endSym := by simp [byteValues]

@[simp] theorem operandIndex_eq (b : Byte) : operandIndex b = b.toNat := by
  have := b.isLt
  simp only [operandIndex, operandSymbol, BitVec.toNat_setWidth]
  omega

theorem umax_toNat {w : Nat} (a b : BitVec w) : (umax a b).toNat = max a.toNat b.toNat := by
  unfold umax
  split <;> rename_i h <;> simp only [BitVec.lt_def] at h <;> omega

/-! ### The sequencer -/

/-- What the sequencer can do with a command (R80): its own rule where the phase allows it, nothing in FAULT,
`BadSequence` elsewhere. -/
theorem sequenced_cases (i : Instr) (body : State → State) (s : State) :
    (legal i s.phase = true ∧ sequenced i body s = body s)
      ∨ (legal i s.phase = false ∧ s.phase = .fault ∧ sequenced i body s = s)
      ∨ (legal i s.phase = false ∧ s.phase ≠ .fault ∧ sequenced i body s = raise .badSequence (encodeWord i) s) := by
  unfold sequenced
  by_cases h : legal i s.phase = true
  · exact Or.inl ⟨h, if_pos h⟩
  · rw [if_neg h]
    by_cases hf : s.phase = .fault
    · exact Or.inr (Or.inl ⟨Bool.eq_false_iff.2 h, hf, if_pos hf⟩)
    · exact Or.inr (Or.inr ⟨Bool.eq_false_iff.2 h, hf, if_neg hf⟩)

theorem sequenced_of_legal {i : Instr} {body : State → State} {s : State} (h : legal i s.phase = true) :
    sequenced i body s = body s := if_pos h

/-- A property of states that each command's rule keeps where it is legal, and that raising a fault keeps, is kept by the
sequencer. -/
theorem sequenced_keeps {P : State → Prop} {i : Instr} {body : State → State} {s : State} (hs : P s)
    (hb : legal i s.phase = true → P (body s)) (hr : s.phase ≠ .fault → P (raise .badSequence (encodeWord i) s)) :
    P (sequenced i body s) := by
  rcases sequenced_cases i body s with ⟨h, e⟩ | ⟨-, -, e⟩ | ⟨-, h, e⟩ <;> rw [e]
  · exact hb h
  · exact hs
  · exact hr h

end Sys2Proof.Machine
end

