-- ==== Sys2Proof/Laws/Step.lean ====
section
/-! SUPPORT. What a command and a step can do, said once: every command answers the state its own rule gives, through the
sequencer (R80), and every step answers one of four states. -/

namespace Sys2Proof.Machine

/-- The rule of each command, as a function of states. -/
def bodyOf : Instr → State → State
  | .clr => clear
  | .cnt b => cntBody b
  | .bld => bldBody Config.emptyReject
  | .len => lenBody
  | .asg => asgBody
  | .whd => whdBody
  | .pkb b => pkbBody b
  | .pke => pkeBody
  | .rhb b => rhbBody b
  | .tri => triBody
  | .dcb b => dcbBody b
  | .eoi => eoiBody

/-- Every command answers a next state: its rule's, where the sequencer lets it run (R80). -/
theorem exec_eq (i : Instr) (s : State) : exec i s = .next (sequenced i (bodyOf i) s) := by
  cases i <;> rfl

theorem exec_eq_next_iff {i : Instr} {s t : State} : exec i s = .next t ↔ t = sequenced i (bodyOf i) s := by
  rw [exec_eq]
  constructor
  · intro h; injection h with h; exact h.symm
  · rintro rfl; rfl

/-- What a step can do (R41, R80, R210): nothing when nothing is presented; a reset; a command; a reserved word. -/
theorem step_cases (s : State) :
    (s.input = [] ∧ step s = .next s)
      ∨ (∃ rest, s.input = .rst :: rest ∧ step s = .next (resetBlock { s with input := rest }))
      ∨ (∃ w rest i, s.input = .word w :: rest ∧ decodeWord w = .ok i
          ∧ step s = .next (sequenced i (bodyOf i) { s with input := rest }))
      ∨ (∃ w rest e, s.input = .word w :: rest ∧ decodeWord w = .error e
          ∧ step s = .next (reservedWord w { s with input := rest })) := by
  unfold step takeInput
  split
  · rename_i h; exact Or.inl ⟨h, rfl⟩
  · rename_i rest h; exact Or.inr (Or.inl ⟨rest, h, rfl⟩)
  · rename_i w rest h
    cases hd : decodeWord w with
    | ok i =>
      refine Or.inr (Or.inr (Or.inl ⟨w, rest, i, h, hd, ?_⟩))
      rw [executeWord, hd, ← exec_eq]
    | error e =>
      refine Or.inr (Or.inr (Or.inr ⟨w, rest, e, h, hd, ?_⟩))
      rw [executeWord, hd]

/-- Every step answers a next state. -/
theorem step_next (s : State) : ∃ t, step s = .next t := by
  rcases step_cases s with ⟨-, h⟩ | ⟨_, -, h⟩ | ⟨_, _, _, -, -, h⟩ | ⟨_, _, _, -, -, h⟩ <;> exact ⟨_, h⟩

/-- The induction every invariant needs, packaged: a property that does not look at `input`, that reset has, that raising
a fault outside FAULT keeps, and that each command's rule keeps in its legal phases, is kept by every step. -/
theorem step_keeps {P : State → Prop} (hin : ∀ s l, P s → P { s with input := l })
    (hreset : ∀ s, P (resetBlock s)) (hraise : ∀ f w s, f ≠ .noFault → s.phase ≠ .fault → P s → P (raise f w s))
    (hbody : ∀ i s, legal i s.phase = true → P s → P (bodyOf i s)) {s t : State} (hs : P s) (h : step s = .next t) : P t := by
  have key : ∀ u, step s = .next u → P u → P t := fun u hu hp => by
    rw [hu] at h; injection h with h; exact h ▸ hp
  rcases step_cases s with ⟨-, e⟩ | ⟨rest, -, e⟩ | ⟨w, rest, i, -, -, e⟩ | ⟨w, rest, er, -, -, e⟩
  · exact key _ e hs
  · exact key _ e (hreset _)
  · exact key _ e (sequenced_keeps (hin s rest hs) (fun hl => hbody i _ hl (hin s rest hs))
      (fun hf => hraise _ _ _ (by decide) hf (hin s rest hs)))
  · refine key _ e ?_
    unfold reservedWord
    split
    · exact hin s rest hs
    · rename_i hf; exact hraise _ _ _ (by decide) hf (hin s rest hs)

end Sys2Proof.Machine
end

