-- ==== Sys2Proof/Laws/BitPacker.lean ====
section
/-! SUPPORT. What appending bits can do (R141): the bits held and the bits appended are the bytes emitted and the bits
held after it. -/

namespace Sys2Proof.Machine

open Sys2Proof.Safety

/-! ### Bit strings -/

@[simp] theorem bitsMsb_length {w : Nat} (c : BitVec w) (n : Nat) : (bitsMsb c n).length = n := by
  induction n with
  | zero => rfl
  | succ n ih => simp [bitsMsb, ih]

@[simp] theorem streamBits_nil : streamBits [] = [] := rfl

@[simp] theorem streamBits_cons (b : Byte) (bs : List Byte) : streamBits (b :: bs) = byteBits b ++ streamBits bs := rfl

theorem streamBits_append (a b : List Byte) : streamBits (a ++ b) = streamBits a ++ streamBits b := List.flatMap_append ..

@[simp] theorem streamBits_length (bs : List Byte) : (streamBits bs).length = 8 * bs.length := by
  induction bs with
  | nil => rfl
  | cons b bs ih => simp [byteBits, ih]; omega

/-- The bits of a byte after a bit was shifted in: those it had, then the new one. -/
theorem bitsMsb_shiftIn (acc : Byte) (bit : Bool) {n : Nat} (hn : n ≤ 7) :
    bitsMsb (shiftIn acc bit) (n + 1) = bitsMsb acc n ++ [bit] := by
  induction n with
  | zero =>
    simp only [bitsMsb, shiftIn, List.nil_append, List.cons.injEq, and_true]
    cases bit <;> simp
  | succ n ih =>
    have hb : (shiftIn acc bit).getLsbD (n + 1) = acc.getLsbD n := by
      simp only [shiftIn, BitVec.getLsbD_or, BitVec.getLsbD_shiftLeft, BitVec.getLsbD_setWidth]
      have : n + 1 < 8 := by omega
      cases bit <;> simp [this]
    rw [bitsMsb, ih (by omega), hb, bitsMsb, List.cons_append]

theorem shiftIn_toNat (acc : Byte) (bit : Bool) (h : acc.toNat < 128) :
    (shiftIn acc bit).toNat = 2 * acc.toNat + bit.toNat := by
  have e : (shiftIn acc bit).toNat = (acc.toNat <<< 1) % 256 ||| bit.toNat := by
    cases bit <;> simp [shiftIn]
  rw [e, Nat.shiftLeft_eq]
  have h1 : acc.toNat * 2 ^ 1 % 256 = 2 ^ 1 * acc.toNat := by omega
  rw [h1, ← Nat.two_pow_add_eq_or_of_lt (by cases bit <;> decide)]

/-! ### append_bits -/

/-- What one turn of `append_bits` can do (R141): hold the bit, or emit a full byte and hold none. -/
theorem appendBit_cases (bit : Bool) (s : State) :
    (s.nacc ≠ 7 ∧ appendBit bit s = { s with acc := shiftIn s.acc bit, nacc := s.nacc + 1 })
      ∨ (s.nacc = 7 ∧ appendBit bit s = { s with acc := 0, nacc := 0, out := s.out ++ [shiftIn s.acc bit] }) := by
  unfold appendBit
  by_cases h : s.nacc = 7
  · exact Or.inr ⟨h, by rw [if_pos (by rw [h]; decide)]; rfl⟩
  · refine Or.inl ⟨h, if_neg fun e => h ?_⟩
    have := congrArg BitVec.toNat e
    apply BitVec.eq_of_toNat_eq
    simp at this ⊢
    omega

/-- `append_bits` changes `ACC`, `NACC` and appends to `OUT`, whatever the state. -/
theorem appendBits_frame (c : CodeVal) (L : Nat) (s : State) :
    ∃ bs, appendBits c L s
      = { s with acc := (appendBits c L s).acc, nacc := (appendBits c L s).nacc, out := s.out ++ bs } := by
  induction L generalizing s with
  | zero => exact ⟨[], by simp [appendBits]⟩
  | succ L ih =>
    obtain ⟨bs, h⟩ := ih (appendBit (c.getLsbD L) s)
    rcases appendBit_cases (c.getLsbD L) s with ⟨-, e⟩ | ⟨-, e⟩
    · refine ⟨bs, ?_⟩
      show appendBits c L (appendBit (c.getLsbD L) s) = _
      rw [h, e]
      simp [appendBits, e]
    · refine ⟨[shiftIn s.acc (c.getLsbD L)] ++ bs, ?_⟩
      show appendBits c L (appendBit (c.getLsbD L) s) = _
      rw [h, e]
      simp [appendBits, e]

/-- What `append_bits(c, L)` does to a state whose accumulator is in order (R141): the bytes it emits and the bits held
after it are the bits held before it and the `L` bits of `c`; at most seven bits are held. -/
theorem appendBits_spec (c : CodeVal) (L : Nat) (s : State) (hs : AccHeld s) :
    ∃ bs, (appendBits c L s).out = s.out ++ bs
      ∧ streamBits bs ++ pendingBits (appendBits c L s) = pendingBits s ++ bitsMsb c L
      ∧ AccHeld (appendBits c L s) := by
  induction L generalizing s with
  | zero => exact ⟨[], by simp [appendBits], by simp [appendBits, bitsMsb], hs⟩
  | succ L ih =>
    have h7 := hs.atMostSeven
    have hacc := hs.highZero
    have hlt : s.acc.toNat < 128 :=
      lt_of_lt_of_le hacc (le_trans (Nat.pow_le_pow_right (by decide) h7) (by decide))
    have hbits := bitsMsb_shiftIn s.acc (c.getLsbD L) h7
    rcases appendBit_cases (c.getLsbD L) s with ⟨hne, e⟩ | ⟨heq, e⟩
    · have hn : (s.nacc + 1).toNat = s.nacc.toNat + 1 := by
        rw [BitVec.toNat_add]; simp; omega
      have hne' : s.nacc.toNat ≠ 7 := fun h => hne (BitVec.eq_of_toNat_eq (by simpa using h))
      have hheld : AccHeld (appendBit (c.getLsbD L) s) := by
        rw [e]
        refine ⟨by show (s.nacc + 1).toNat ≤ 7; omega, ?_⟩
        show (shiftIn s.acc (c.getLsbD L)).toNat < 2 ^ (s.nacc + 1).toNat
        rw [shiftIn_toNat _ _ hlt, hn, pow_succ]
        cases c.getLsbD L <;> simp <;> omega
      obtain ⟨bs, h1, h2, h3⟩ := ih _ hheld
      refine ⟨bs, ?_, ?_, h3⟩
      · show (appendBits c L (appendBit (c.getLsbD L) s)).out = _
        rw [h1, e]
      · show _ ++ pendingBits (appendBits c L (appendBit (c.getLsbD L) s)) = _
        rw [h2, e]
        simp only [pendingBits, hn, hbits, bitsMsb, List.append_assoc, List.cons_append, List.nil_append]
    · have hheld : AccHeld (appendBit (c.getLsbD L) s) := by
        rw [e]; exact ⟨by simp, by simp⟩
      obtain ⟨bs, h1, h2, h3⟩ := ih _ hheld
      refine ⟨shiftIn s.acc (c.getLsbD L) :: bs, ?_, ?_, h3⟩
      · show (appendBits c L (appendBit (c.getLsbD L) s)).out = _
        rw [h1, e]; simp
      · show _ ++ pendingBits (appendBits c L (appendBit (c.getLsbD L) s)) = _
        rw [streamBits_cons, List.append_assoc, h2, e]
        have h8 : byteBits (shiftIn s.acc (c.getLsbD L)) = bitsMsb s.acc s.nacc.toNat ++ [c.getLsbD L] := by
          rw [← hbits, heq]; rfl
        simp [pendingBits, h8, bitsMsb]

end Sys2Proof.Machine
end

