-- ==== Sys2Proof/Laws/Canonicalizer.lean ====
section
/-! SUPPORT. What the walk of `LEN` lists, what its length table holds, and what one bucket of `ASG` can do (R110, R111,
R115). -/

namespace Sys2Proof.Machine

/-! ### LEN -/

/-- A node the walk lists at depth at most `LMAX` is a leaf. -/
theorem leafDepths_leaf {left right : Table 10} {fuel node : Nat} {p : Nat × Nat} (h : p ∈ leafDepths left right fuel node)
    (hp : p.2 ≤ Config.lmax) : p.1 ≤ Config.endSym := by
  induction fuel generalizing node with
  | zero =>
    simp only [leafDepths, List.mem_singleton] at h
    rw [h] at hp
    exact absurd (show walkLimit ≤ Config.lmax from hp) (by decide)
  | succ fuel ih =>
    simp only [leafDepths] at h
    split at h
    · rename_i hn
      rw [List.mem_singleton.1 h]; exact hn
    · rcases List.mem_append.1 h with h | h <;> exact ih h

/-- The walk from a node at depth `walkLimit - fuel` lists nothing above that depth and nothing below `walkLimit`. -/
theorem leafDepths_depth {left right : Table 10} {fuel node : Nat} {p : Nat × Nat} (hf : fuel ≤ walkLimit)
    (h : p ∈ leafDepths left right fuel node) : walkLimit - fuel ≤ p.2 ∧ p.2 ≤ walkLimit := by
  induction fuel generalizing node with
  | zero => rw [List.mem_singleton.1 h]; simp
  | succ fuel ih =>
    simp only [leafDepths] at h
    split at h
    · rw [List.mem_singleton.1 h]; simp
    · rcases List.mem_append.1 h with h | h <;> have := ih (by omega) h <;> omega

/-- A symbol the walk does not list has length 0 (R110). -/
theorem lengthTable_of_not_mem {d : List (Nat × Nat)} {x : Nat} (h : ∀ p ∈ d, p.1 ≠ x) : tableGet (lengthTable d) x = 0 := by
  have key : ∀ (d : List (Nat × Nat)) (t : Table 8), (∀ p ∈ d, p.1 ≠ x) →
      tableGet (d.foldl (fun t p => tableSet t p.1 (BitVec.ofNat 8 p.2)) t) x = tableGet t x := by
    intro d
    induction d with
    | nil => intro t _; rfl
    | cons p rest ih =>
      intro t h
      rw [List.foldl_cons, ih _ fun q hq => h q (List.mem_cons_of_mem _ hq),
        tableGet_tableSet_ne _ _ (h p List.mem_cons_self).symm]
  exact key d [] h

/-- A symbol the walk lists with one depth only has that length (R110). -/
theorem lengthTable_of_mem {d : List (Nat × Nat)} {x n : Nat} (h : (x, n) ∈ d) (hu : ∀ p ∈ d, p.1 = x → p.2 = n) :
    tableGet (lengthTable d) x = BitVec.ofNat 8 n := by
  have key : ∀ (d : List (Nat × Nat)) (t : Table 8), (∀ p ∈ d, p.1 = x → p.2 = n) →
      ((x, n) ∈ d ∨ tableGet t x = BitVec.ofNat 8 n) →
      tableGet (d.foldl (fun t p => tableSet t p.1 (BitVec.ofNat 8 p.2)) t) x = BitVec.ofNat 8 n := by
    intro d
    induction d with
    | nil => intro t _ h; exact h.resolve_left (by simp)
    | cons p rest ih =>
      intro t hu h
      refine ih _ (fun q hq => hu q (List.mem_cons_of_mem _ hq)) ?_
      by_cases hp : p.1 = x
      · right
        rw [← hp, tableGet_tableSet_self, hu p List.mem_cons_self hp]
      · rcases h with h | h
        · rcases List.mem_cons.1 h with rfl | h
          · exact absurd rfl hp
          · exact Or.inl h
        · right
          rw [tableGet_tableSet_ne _ _ fun e => hp e.symm, h]
  exact key d [] hu (Or.inl h)

/-- `maxLength` is the largest entry over all symbols (R22). -/
theorem maxLength_spec (lent : Table 8) :
    (∀ a, a ≤ Config.endSym → (tableGet lent a).toNat ≤ (maxLength lent).toNat)
      ∧ (maxLength lent ≠ 0 → ∃ a, a ≤ Config.endSym ∧ tableGet lent a = maxLength lent) := by
  have key : ∀ (l : List Nat) (m : Byte),
      (m.toNat ≤ (l.foldl (fun m s => umax m (tableGet lent s)) m).toNat
        ∧ ∀ a ∈ l, (tableGet lent a).toNat ≤ (l.foldl (fun m s => umax m (tableGet lent s)) m).toNat)
      ∧ (l.foldl (fun m s => umax m (tableGet lent s)) m = m
        ∨ ∃ a ∈ l, tableGet lent a = l.foldl (fun m s => umax m (tableGet lent s)) m) := by
    intro l
    induction l with
    | nil => intro m; simp
    | cons x rest ih =>
      intro m
      obtain ⟨⟨h1, h2⟩, h3⟩ := ih (umax m (tableGet lent x))
      rw [List.foldl_cons]
      rw [umax_toNat] at h1
      refine ⟨⟨by omega, fun a ha => ?_⟩, ?_⟩
      · rcases List.mem_cons.1 ha with rfl | ha
        · omega
        · exact h2 a ha
      · rcases h3 with h3 | ⟨a, ha, h3⟩
        · rw [h3]
          unfold umax
          split
          · exact Or.inr ⟨x, List.mem_cons_self, rfl⟩
          · exact Or.inl rfl
        · exact Or.inr ⟨a, List.mem_cons_of_mem _ ha, h3⟩
  obtain ⟨⟨-, h⟩, h'⟩ := key symbols 0
  refine ⟨fun a ha => h a (mem_symbols.2 ha), fun hne => ?_⟩
  rcases h' with h' | ⟨a, ha, h'⟩
  · exact absurd h' hne
  · exact ⟨a, mem_symbols.1 ha, h'⟩

/-! ### ASG -/

/-- What one bucket can do (R115, R118): it fails exactly when the counter reaches `2^L` with a symbol still to serve;
else the counter goes up by the number of symbols served, and only those symbols' entries are written. -/
theorem assignBucket_cases (lent : Table 8) (L : Nat) (l : List Nat) (a : Assign) (hL : L ≤ Config.lmax)
    (ha : a.code.toNat ≤ 2 ^ L) :
    (assignBucket lent L l a = none
        ∧ 2 ^ L < a.code.toNat + (l.filter fun s => (tableGet lent s).toNat = L).length)
      ∨ ∃ a', assignBucket lent L l a = some a'
          ∧ a'.code.toNat = a.code.toNat + (l.filter fun s => (tableGet lent s).toNat = L).length
          ∧ a'.code.toNat ≤ 2 ^ L
          ∧ ∀ x, (x ∉ l ∨ (tableGet lent x).toNat ≠ L) → tableGet a'.table x = tableGet a.table x := by
  have hpow : 2 ^ L ≤ 2 ^ Config.lmax := Nat.pow_le_pow_right (by decide) hL
  have hmax : (2 : Nat) ^ Config.lmax + 1 < 2 ^ Config.codeW := by decide
  induction l generalizing a with
  | nil => exact Or.inr ⟨a, rfl, by simp, ha, fun _ _ => rfl⟩
  | cons s rest ih =>
    unfold assignBucket
    by_cases hs : (tableGet lent s).toNat = L
    · rw [if_pos hs]
      by_cases hfull : 2 ^ L ≤ a.code.toNat
      · rw [if_pos hfull]
        exact Or.inl ⟨rfl, by simp [hs]; omega⟩
      · rw [if_neg hfull]
        have hc : (a.code + 1).toNat = a.code.toNat + 1 := by
          have h1 : (1 : CodeVal).toNat = 1 := by decide
          rw [BitVec.toNat_add, h1, Nat.mod_eq_of_lt (by omega)]
        rcases ih { code := a.code + 1, table := tableSet a.table s a.code } (by simp only [hc]; omega) with
          ⟨h, hlt⟩ | ⟨a', h, hcode, hle, hother⟩
        · refine Or.inl ⟨h, ?_⟩
          simp only [hc] at hlt
          simp only [List.filter_cons, hs, decide_true, if_true, List.length_cons]
          omega
        · refine Or.inr ⟨a', h, ?_, hle, fun x hx => ?_⟩
          · simp only [hc] at hcode
            simp only [List.filter_cons, hs, decide_true, if_true, List.length_cons]
            omega
          · have hxs : x ≠ s := by
              rintro rfl
              rcases hx with hx | hx
              · exact hx List.mem_cons_self
              · exact hx hs
            rw [hother x (hx.imp_left fun h hm => h (List.mem_cons_of_mem _ hm)), tableGet_tableSet_ne _ _ hxs]
    · rw [if_neg hs]
      rcases ih a ha with ⟨h, hlt⟩ | ⟨a', h, hcode, hle, hother⟩
      · exact Or.inl ⟨h, by simpa [List.filter_cons, hs] using hlt⟩
      · exact Or.inr ⟨a', h, by simpa [List.filter_cons, hs] using hcode, hle,
          fun x hx => hother x (hx.imp_left fun h hm => h (List.mem_cons_of_mem _ hm))⟩

/-- The level-up is half the counter, rounded up (R116). -/
theorem levelUp_toNat {a : Assign} (h : a.code.toNat ≤ 2 ^ Config.lmax) :
    (levelUp a).code.toNat = (a.code.toNat + 1) / 2 := by
  have hmax : (2 : Nat) ^ Config.lmax + 1 < 2 ^ Config.codeW := by decide
  have h1 : (1 : CodeVal).toNat = 1 := by decide
  show ((a.code + 1) >>> 1).toNat = _
  rw [BitVec.toNat_ushiftRight, BitVec.toNat_add, h1, Nat.mod_eq_of_lt (by omega), Nat.shiftRight_eq_div_pow]

end Sys2Proof.Machine
end

