-- ==== Sys2Proof/Laws/PerInstr.lean ====
section
/-! SUPPORT. Laws stated per instruction. Family EncodeRow: the word of a command selects the row of the opcode map (R59)
whose pattern is its opcode, with the mask R59 gives it. -/

namespace Sys2Proof.Laws.EncodeRow

/-- The mask of R59 for a command: 0xFF00 with an operand byte, 0xFFFF without. -/
def maskOf : Instr → Word
  | .cnt _ | .pkb _ | .rhb _ | .dcb _ => 0xFF00
  | .clr | .bld | .len | .asg | .whd | .pke | .tri | .eoi => 0xFFFF

/-- The command's row stands in the opcode map, and the command's word selects it. -/
def Statement (i : Instr) : Prop :=
  (⟨maskOf i, i.op ++ (0 : Byte)⟩ : OpcodeRow) ∈ opcodeRows
    ∧ (⟨maskOf i, i.op ++ (0 : Byte)⟩ : OpcodeRow).selects (encodeWord i) = true

/-- Masking off the operand byte leaves the opcode byte. -/
theorem mask_operand (op arg : Byte) : (op ++ arg : Word) &&& 0xFF00 = op ++ (0 : Byte) := by
  have h : (0xFF00 : Word) = BitVec.allOnes 8 ++ (0 : Byte) := by decide
  rw [h, BitVec.and_append, BitVec.and_allOnes, show arg &&& (0 : Byte) = 0 from BitVec.and_zero]

theorem clr : Statement .clr := by unfold Statement; decide
theorem cnt (arg : Byte) : Statement (.cnt arg) :=
  ⟨show (⟨0xFF00, (0x01 : Byte) ++ (0 : Byte)⟩ : OpcodeRow) ∈ opcodeRows by decide,
    by simpa [OpcodeRow.selects, maskOf, encodeWord] using mask_operand _ _⟩
theorem bld : Statement .bld := by unfold Statement; decide
theorem len : Statement .len := by unfold Statement; decide
theorem asg : Statement .asg := by unfold Statement; decide
theorem whd : Statement .whd := by unfold Statement; decide
theorem pkb (arg : Byte) : Statement (.pkb arg) :=
  ⟨show (⟨0xFF00, (0x06 : Byte) ++ (0 : Byte)⟩ : OpcodeRow) ∈ opcodeRows by decide,
    by simpa [OpcodeRow.selects, maskOf, encodeWord] using mask_operand _ _⟩
theorem pke : Statement .pke := by unfold Statement; decide
theorem rhb (arg : Byte) : Statement (.rhb arg) :=
  ⟨show (⟨0xFF00, (0x08 : Byte) ++ (0 : Byte)⟩ : OpcodeRow) ∈ opcodeRows by decide,
    by simpa [OpcodeRow.selects, maskOf, encodeWord] using mask_operand _ _⟩
theorem tri : Statement .tri := by unfold Statement; decide
theorem dcb (arg : Byte) : Statement (.dcb arg) :=
  ⟨show (⟨0xFF00, (0x0A : Byte) ++ (0 : Byte)⟩ : OpcodeRow) ∈ opcodeRows by decide,
    by simpa [OpcodeRow.selects, maskOf, encodeWord] using mask_operand _ _⟩
theorem eoi : Statement .eoi := by unfold Statement; decide

end Sys2Proof.Laws.EncodeRow

namespace Sys2Proof.Laws

/-- Every instruction is well formed: its operand is a byte by its type. -/
theorem wf_all (i : Instr) : i.wf = true := by
  have h : EncodeRow.Statement i := by
    cases i with
    | clr => exact EncodeRow.clr
    | cnt b => exact EncodeRow.cnt b
    | bld => exact EncodeRow.bld
    | len => exact EncodeRow.len
    | asg => exact EncodeRow.asg
    | whd => exact EncodeRow.whd
    | pkb b => exact EncodeRow.pkb b
    | pke => exact EncodeRow.pke
    | rhb b => exact EncodeRow.rhb b
    | tri => exact EncodeRow.tri
    | dcb b => exact EncodeRow.dcb b
    | eoi => exact EncodeRow.eoi
  exact List.any_eq_true.2 ⟨_, h.1, h.2⟩

end Sys2Proof.Laws
end

