-- ==== Sys2Proof/Laws/Decode.lean ====
section
/-! SUPPORT. The two fields of a command word (R57): taking a word apart and putting it together. -/

namespace Sys2Proof

theorem opField_toNat (w : Word) : (opField w).toNat = w.toNat / 256 := by
  have := w.isLt
  simp only [opField, BitVec.extractLsb'_toNat, Nat.shiftRight_eq_div_pow]; omega

theorem argField_toNat (w : Word) : (argField w).toNat = w.toNat % 256 := by
  simp only [argField, BitVec.extractLsb'_toNat, Nat.shiftRight_eq_div_pow]; omega

theorem word_toNat (op arg : Byte) : (op ++ arg : Word).toNat = 256 * op.toNat + arg.toNat := by
  rw [BitVec.toNat_append, ← Nat.shiftLeft_add_eq_or_of_lt arg.isLt, Nat.shiftLeft_eq]; omega

/-- The word of two fields has them. -/
@[simp] theorem opField_append (op arg : Byte) : opField (op ++ arg : Word) = op := by
  apply BitVec.eq_of_toNat_eq
  rw [opField_toNat, word_toNat]
  have := arg.isLt
  omega

@[simp] theorem argField_append (op arg : Byte) : argField (op ++ arg : Word) = arg := by
  apply BitVec.eq_of_toNat_eq
  rw [argField_toNat, word_toNat]
  have := arg.isLt
  omega

/-- A word is the word of its two fields. -/
theorem append_fields (w : Word) : (opField w ++ argField w : Word) = w := by
  apply BitVec.eq_of_toNat_eq
  rw [word_toNat, opField_toNat, argField_toNat]
  omega

/-- What the decoder can answer (R59, R60): a command with the word's own fields, or one of the two refusals. -/
theorem decodeWord_cases (w : Word) :
    (∃ i : Instr, decodeWord w = .ok i ∧ i.op = opField w ∧ i.arg = argField w)
      ∨ (∃ i : Instr, decodeWord w = .error (.operandNotZero i.op (argField w)) ∧ i.op = opField w ∧ argField w ≠ 0)
      ∨ (decodeWord w = .error (.unassignedOpcode (opField w)) ∧ 0x0C ≤ (opField w).toNat) := by
  have e : ∀ {k : Nat} (b : Byte), (opField w).toNat = k → b.toNat = k → b = opField w := fun b h1 h2 =>
    BitVec.eq_of_toNat_eq (by omega)
  unfold decodeWord decodePlain
  split
  all_goals first
    | (rename_i hk
       split
       · rename_i ha
         exact Or.inl ⟨_, rfl, e _ hk rfl, ha.symm⟩
       · rename_i ha
         exact Or.inr (Or.inl ⟨_, rfl, e _ hk rfl, ha⟩))
    | (rename_i hk
       exact Or.inl ⟨_, rfl, e _ hk rfl, rfl⟩)
    | skip
  refine Or.inr (Or.inr ⟨rfl, ?_⟩)
  rename_i h0 h1 h2 h3 h4 h5 h6 h7 h8 h9 h10 h11
  by_contra hlt
  have : (opField w).toNat < 12 := by omega
  interval_cases h : (opField w).toNat <;> simp_all

end Sys2Proof
end

