-- ==== Sys2Proof/Laws/HeaderCodec.lean ====
section
/-! SUPPORT. The header's list of coded bytes and its length (R125, R126), and the five cases of `RHB` (R127). -/

namespace Sys2Proof.Machine

@[simp] theorem mem_codedBytes {lent : Table 8} {s : Nat} :
    s ∈ codedBytes lent ↔ s < Config.endSym ∧ tableGet lent s ≠ 0 := by
  simp [codedBytes]

theorem codedBytes_ascending (lent : Table 8) : (codedBytes lent).Pairwise (· < ·) :=
  List.Pairwise.filter _ List.pairwise_lt_range

theorem codedBytes_length_le (lent : Table 8) : (codedBytes lent).length ≤ Config.endSym := by
  have := List.length_filter_le (fun s => decide (tableGet lent s ≠ 0)) byteValues
  simpa [codedBytes, byteValues] using this

/-- R126: three bytes, and two for each byte value that has a codeword. -/
theorem headerBytes_length (lent : Table 8) : (headerBytes lent).length = 3 + 2 * (codedBytes lent).length := by
  have h : ∀ l : List Nat, (l.flatMap fun s => [BitVec.ofNat 8 s, tableGet lent s]).length = 2 * l.length := by
    intro l
    induction l with
    | nil => rfl
    | cons x rest ih => simp only [List.flatMap_cons, List.length_append, ih]; simp; omega
  simp only [headerBytes, List.length_append, h]
  rfl

theorem alphabetSize_toNat (lent : Table 8) : (alphabetSize lent).toNat = (codedBytes lent).length + 1 := by
  have := codedBytes_length_le lent
  simp only [Config.endSym] at this
  simp only [alphabetSize, BitVec.toNat_ofNat]
  omega

/-- The case of `RHB` that the header cursor selects (R127). -/
theorem rhbBody_cases (arg : Byte) (s : State) :
    (s.hpos.toNat = 0 ∧ rhbBody arg s = rhbSizeHigh arg s)
      ∨ (s.hpos.toNat = 1 ∧ rhbBody arg s = rhbSizeLow arg s)
      ∨ (s.hpos.toNat = 2 ∧ rhbBody arg s = rhbEndLength arg s)
      ∨ (3 ≤ s.hpos.toNat ∧ s.hpos.toNat % 2 = 1 ∧ rhbBody arg s = rhbSymbol arg s)
      ∨ (4 ≤ s.hpos.toNat ∧ s.hpos.toNat % 2 = 0 ∧ rhbBody arg s = rhbLength arg s) := by
  have e : ∀ k : BitVec 10, s.hpos = k ↔ s.hpos.toNat = k.toNat := fun k => BitVec.toNat_inj.symm
  unfold rhbBody
  simp only [e]
  have h0 : (0 : BitVec 10).toNat = 0 := rfl
  have h1 : (1 : BitVec 10).toNat = 1 := rfl
  have h2 : (2 : BitVec 10).toNat = 2 := rfl
  rw [h0, h1, h2]
  split
  · rename_i h; exact Or.inl ⟨h, rfl⟩
  · split
    · rename_i h; exact Or.inr (Or.inl ⟨h, rfl⟩)
    · split
      · rename_i h; exact Or.inr (Or.inr (Or.inl ⟨h, rfl⟩))
      · split
        · rename_i h; exact Or.inr (Or.inr (Or.inr (Or.inl ⟨by omega, h, rfl⟩)))
        · exact Or.inr (Or.inr (Or.inr (Or.inr ⟨by omega, by omega, rfl⟩)))

end Sys2Proof.Machine
end

