-- ==== Sys2Proof/Laws/Procedures.lean ====
section
/-! SUPPORT. What issuing words can do: a host procedure runs the block by its own step, one word at a time. -/

namespace Sys2Proof.Machine

theorem settle_of_step {s t : State} (h : step s = .next t) : settle s = t := by
  simp only [settle, h]

/-- Issuing a word executes it on the state as it was, whatever else is presented. -/
theorem issueWord_of_execute {w : Word} {s t : State} (h : executeWord w s = .next t) : issueWord w s = t :=
  settle_of_step h

@[simp] theorem issueAll_nil (s : State) : issueAll [] s = s := rfl

@[simp] theorem issueAll_cons (i : Instr) (is : List Instr) (s : State) :
    issueAll (i :: is) s = issueAll is (issue i s) := rfl

theorem issueAll_append (is js : List Instr) (s : State) : issueAll (is ++ js) s = issueAll js (issueAll is s) :=
  List.foldl_append ..

end Sys2Proof.Machine
end

