-- ==== Sys2Proof/Laws/TreeBuilder.lean ====
section
/-! SUPPORT. What the queue of `BLD` and one turn of its loop can do (R102 to R104). -/

namespace Sys2Proof.Machine

/-! ### The queue order -/

theorem queueBefore_iff (wt : Table Config.cntW) (x y : Nat) :
    queueBefore wt x y = true ↔ tableGet wt x < tableGet wt y ∨ (tableGet wt x = tableGet wt y ∧ x < y) := by
  simp [queueBefore]

theorem queueBefore_irrefl (wt : Table Config.cntW) (x : Nat) : queueBefore wt x x = false := by
  simp [queueBefore]

theorem queueBefore_trans {wt : Table Config.cntW} {x y z : Nat} (hxy : queueBefore wt x y = true)
    (hyz : queueBefore wt y z = true) : queueBefore wt x z = true := by
  rw [queueBefore_iff] at *
  simp only [BitVec.lt_def, ← BitVec.toNat_inj] at *
  omega

/-- The order is total on different nodes (R102: "identifiers are distinct"). -/
theorem queueBefore_total {wt : Table Config.cntW} {x y : Nat} (h : x ≠ y) :
    queueBefore wt x y = true ∨ queueBefore wt y x = true := by
  simp only [queueBefore_iff, BitVec.lt_def, ← BitVec.toNat_inj]
  omega

theorem queueFirst_mem (wt : Table Config.cntW) (x : Nat) (l : List Nat) : queueFirst wt x l ∈ x :: l := by
  induction l generalizing x with
  | nil => simp [queueFirst]
  | cons y rest ih =>
    have := ih (if queueBefore wt y x then y else x)
    simp only [queueFirst, List.mem_cons] at this ⊢
    split at this <;> rename_i h <;> simp only [h, if_true, Bool.false_eq_true, if_false] at this ⊢ <;> tauto

/-- The first node of a list comes before every other node of it. -/
theorem queueFirst_before (wt : Table Config.cntW) (x : Nat) (l : List Nat) :
    ∀ y ∈ x :: l, y = queueFirst wt x l ∨ queueBefore wt (queueFirst wt x l) y = true := by
  induction l generalizing x with
  | nil => simp [queueFirst]
  | cons z rest ih =>
    have ih' := ih (if queueBefore wt z x then z else x)
    have hhead := ih' _ List.mem_cons_self
    intro y hy
    have keep : ∀ {a b : Nat}, queueBefore wt a b = true →
        (a = queueFirst wt x (z :: rest) ∨ queueBefore wt (queueFirst wt x (z :: rest)) a = true) →
        queueBefore wt (queueFirst wt x (z :: rest)) b = true := by
      rintro a b hab (rfl | h)
      · exact hab
      · exact queueBefore_trans h hab
    simp only [List.mem_cons] at hy
    by_cases hzx : queueBefore wt z x = true
    · simp only [hzx, if_true] at hhead
      rcases hy with rfl | rfl | hy
      · exact Or.inr (keep hzx (by simpa only [queueFirst, hzx, if_true] using hhead))
      · simpa only [queueFirst, hzx, if_true] using hhead
      · simpa only [queueFirst, hzx, if_true] using ih' y (List.mem_cons_of_mem _ hy)
    · simp only [hzx, if_false, Bool.false_eq_true] at hhead
      have hx : x = queueFirst wt x (z :: rest) ∨ queueBefore wt (queueFirst wt x (z :: rest)) x = true := by
        simpa only [queueFirst, hzx, if_false, Bool.false_eq_true] using hhead
      rcases hy with rfl | rfl | hy
      · exact hx
      · by_cases hne : y = x
        · subst hne; exact hx
        · exact Or.inr (keep ((queueBefore_total (wt := wt) hne).resolve_left hzx) hx)
      · simpa only [queueFirst, hzx, if_false, Bool.false_eq_true] using ih' y (List.mem_cons_of_mem _ hy)

/-! ### extract_min -/

theorem extractMin_eq_none {wt : Table Config.cntW} {q : List Nat} : extractMin wt q = none ↔ q = [] := by
  cases q <;> simp [extractMin]

/-- What `extract_min` answers (R102): a node of the queue that comes before every other one, and the queue without it. -/
theorem extractMin_eq_some {wt : Table Config.cntW} {q rest : List Nat} {a : Nat} (h : extractMin wt q = some (a, rest)) :
    q.Perm (a :: rest) ∧ ∀ y ∈ q, y = a ∨ queueBefore wt a y = true := by
  cases q with
  | nil => simp [extractMin] at h
  | cons x l =>
    simp only [extractMin, Option.some.injEq, Prod.mk.injEq] at h
    obtain ⟨rfl, rfl⟩ := h
    exact ⟨List.perm_cons_erase (queueFirst_mem wt x l), queueFirst_before wt x l⟩

/-- What one turn of the loop can do (R104): nothing with fewer than two nodes queued, else merge the two first. -/
theorem mergeTurn_cases (m : Merge) :
    (m.queue.length < 2 ∧ mergeTurn m = m)
      ∨ ∃ a b q rest, extractMin m.wt m.queue = some (a, q) ∧ extractMin m.wt q = some (b, rest)
          ∧ m.queue.Perm (a :: b :: rest) ∧ mergeTurn m = mergeNodes a b rest m := by
  unfold mergeTurn
  cases ha : extractMin m.wt m.queue with
  | none => exact Or.inl ⟨by simp [extractMin_eq_none.1 ha], rfl⟩
  | some p =>
    obtain ⟨a, q⟩ := p
    have hpa := (extractMin_eq_some ha).1
    cases hb : extractMin m.wt q with
    | none =>
      have hq := extractMin_eq_none.1 hb
      rw [hq] at hpa
      exact Or.inl ⟨by rw [hpa.length_eq]; simp, by simp only [hb]⟩
    | some p' =>
      obtain ⟨b, rest⟩ := p'
      exact Or.inr ⟨a, b, q, rest, rfl, hb, hpa.trans ((extractMin_eq_some hb).1.cons a), by simp only [hb]⟩

/-- A turn with two nodes queued leaves one fewer, and counts one merge. -/
theorem mergeTurn_counts {m : Merge} (h : 2 ≤ m.queue.length) :
    (mergeTurn m).queue.length + 1 = m.queue.length ∧ (mergeTurn m).k = m.k + 1 := by
  rcases mergeTurn_cases m with ⟨hlt, -⟩ | ⟨a, b, q, rest, -, -, hp, e⟩
  · omega
  · rw [e, hp.length_eq]
    simp [mergeNodes]

/-- The loop of R104 ends with one node queued after as many merges as there were nodes but one. -/
theorem mergeLoop_counts (n : Nat) (m : Merge) (h : m.queue.length = n + 1) :
    (mergeLoop n m).queue.length = 1 ∧ (mergeLoop n m).k = m.k + n := by
  induction n generalizing m with
  | zero => exact ⟨h, rfl⟩
  | succ n ih =>
    obtain ⟨h1, h2⟩ := mergeTurn_counts (m := m) (by omega)
    obtain ⟨h3, h4⟩ := ih (mergeTurn m) (by omega)
    exact ⟨h3, by rw [mergeLoop, h4, h2]; omega⟩

/-! ### The leaves -/

@[simp] theorem mem_presentSymbols {freq : Table Config.cntW} {s : Nat} :
    s ∈ presentSymbols freq ↔ s < Config.endSym ∧ tableGet freq s ≠ 0 := by
  simp [presentSymbols]

theorem presentSymbols_nodup (freq : Table Config.cntW) : (presentSymbols freq).Nodup :=
  List.Nodup.filter _ List.nodup_range

theorem presentSymbols_length_le (freq : Table Config.cntW) : (presentSymbols freq).length ≤ Config.endSym := by
  have := List.length_filter_le (fun s => decide (tableGet freq s ≠ 0)) byteValues
  simpa [presentSymbols, byteValues] using this

end Sys2Proof.Machine
end

