-- ==== Sys2Proof/Laws/TrieDecoder.lean ====
section
/-! SUPPORT. What the walk of payload bits can do, one bit at a time (R155), and what it leaves alone. -/

namespace Sys2Proof.Machine

/-- What one turn of the walk can do (R155): fault at depth `MAXLEN`; go on below an empty slot; end at END; emit a real
symbol and go on from the start slot. -/
theorem walkBits_succ (w : Word) (arg : Byte) (k : Nat) (s : State) :
    (s.depth = s.maxlen ∧ walkBits w arg (k + 1) s = raise .corruptStream w s)
      ∨ (s.depth ≠ s.maxlen ∧ assocFind s.trie (child s.slot (operandBit arg k)).toNat = none
          ∧ walkBits w arg (k + 1) s = walkBits w arg k (stepDown (operandBit arg k) s))
      ∨ (s.depth ≠ s.maxlen ∧ ∃ sym, assocFind s.trie (child s.slot (operandBit arg k)).toNat = some sym
          ∧ sym.toNat = Config.endSym ∧ walkBits w arg (k + 1) s = { s with slot := 0, depth := 0, phase := .decDone })
      ∨ (s.depth ≠ s.maxlen ∧ ∃ sym, assocFind s.trie (child s.slot (operandBit arg k)).toNat = some sym
          ∧ sym.toNat ≠ Config.endSym
          ∧ walkBits w arg (k + 1) s
              = walkBits w arg k { s with slot := 0, depth := 0, out := s.out ++ [symbolByte sym] }) := by
  by_cases hd : s.depth = s.maxlen
  · exact Or.inl ⟨hd, by rw [walkBits, if_pos hd]⟩
  · right
    rw [walkBits, if_neg hd]
    cases hf : assocFind s.trie (child s.slot (operandBit arg k)).toNat with
    | none =>
      have hf' : assocFind (stepDown (operandBit arg k) s).trie (stepDown (operandBit arg k) s).slot.toNat = none := hf
      exact Or.inl ⟨hd, rfl, by rw [hf']⟩
    | some sym =>
      have hf' : assocFind (stepDown (operandBit arg k) s).trie (stepDown (operandBit arg k) s).slot.toNat = some sym := hf
      right
      by_cases he : sym.toNat = Config.endSym
      · exact Or.inl ⟨hd, sym, rfl, he, by simp only [hf', he, if_true]; rfl⟩
      · exact Or.inr ⟨hd, sym, rfl, he, by simp only [hf', he, if_false]; rfl⟩

/-- The walk changes `SLOT`, `DEPTH`, `PHASE`, and on a fault `ERR` and `ERRCMD`, and appends to `OUT`. -/
theorem walkBits_frame (w : Word) (arg : Byte) (k : Nat) (s : State) :
    ∃ bs, walkBits w arg k s
      = { s with
          slot := (walkBits w arg k s).slot, depth := (walkBits w arg k s).depth, phase := (walkBits w arg k s).phase,
          err := (walkBits w arg k s).err, errcmd := (walkBits w arg k s).errcmd, out := s.out ++ bs } := by
  induction k generalizing s with
  | zero => exact ⟨[], by simp [walkBits]⟩
  | succ k ih =>
    rcases walkBits_succ w arg k s with ⟨-, e⟩ | ⟨-, -, e⟩ | ⟨-, sym, -, -, e⟩ | ⟨-, sym, -, -, e⟩ <;> rw [e]
    · exact ⟨[], by simp [raise]⟩
    · obtain ⟨bs, h⟩ := ih (stepDown (operandBit arg k) s)
      exact ⟨bs, h⟩
    · exact ⟨[], by simp⟩
    · obtain ⟨bs, h⟩ := ih { s with slot := 0, depth := 0, out := s.out ++ [symbolByte sym] }
      exact ⟨symbolByte sym :: bs, by rw [h]; simp⟩

/-- The three phases a walk can end in. -/
theorem walkBits_phase (w : Word) (arg : Byte) (k : Nat) (s : State) :
    ((walkBits w arg k s).phase = .dec ∨ (walkBits w arg k s).phase = .decDone)
        ∧ (walkBits w arg k s).err = s.err ∧ (walkBits w arg k s).errcmd = s.errcmd
      ∨ (walkBits w arg k s).phase = .fault ∧ (walkBits w arg k s).err = .corruptStream ∧ (walkBits w arg k s).errcmd = w := by
  induction k generalizing s with
  | zero => exact Or.inl ⟨Or.inl rfl, rfl, rfl⟩
  | succ k ih =>
    rcases walkBits_succ w arg k s with ⟨-, e⟩ | ⟨-, -, e⟩ | ⟨-, sym, -, -, e⟩ | ⟨-, sym, -, -, e⟩ <;> rw [e]
    · exact Or.inr ⟨rfl, rfl, rfl⟩
    · exact ih (stepDown (operandBit arg k) s)
    · exact Or.inl ⟨Or.inr rfl, rfl, rfl⟩
    · exact ih { s with slot := 0, depth := 0, out := s.out ++ [symbolByte sym] }

end Sys2Proof.Machine
end

