-- ==== Sys2Proof/Tests/Slice0.lean ====
section
/-! SUPPORT. The model's own tests: command words written out bit by bit from R57 and R59, ill-formed words and source lines
refused (R60, R61), one step of each command against the vectors of 95_test_vectors.md, and a witness for the hypotheses
of each statement. -/

namespace Sys2Proof.Tests

set_option Elab.async false

open Sys2Proof Sys2Proof.Machine Sys2Proof.Safety

/-! ### Decoding: each command's word, bit by bit (R57: `op` in bits 15 to 8, `arg` in bits 7 to 0; R59) -/

theorem test_decode_clr : decodeWord 0b00000000_00000000 = .ok .clr := by decide
theorem test_decode_cnt : decodeWord 0b00000001_01000001 = .ok (.cnt 0x41) := by decide
theorem test_decode_bld : decodeWord 0b00000010_00000000 = .ok .bld := by decide
theorem test_decode_len : decodeWord 0b00000011_00000000 = .ok .len := by decide
theorem test_decode_asg : decodeWord 0b00000100_00000000 = .ok .asg := by decide
theorem test_decode_whd : decodeWord 0b00000101_00000000 = .ok .whd := by decide
theorem test_decode_pkb : decodeWord 0b00000110_01011010 = .ok (.pkb 0x5A) := by decide
theorem test_decode_pke : decodeWord 0b00000111_00000000 = .ok .pke := by decide
theorem test_decode_rhb : decodeWord 0b00001000_10000001 = .ok (.rhb 0x81) := by decide
theorem test_decode_tri : decodeWord 0b00001001_00000000 = .ok .tri := by decide
theorem test_decode_dcb : decodeWord 0b00001010_10101011 = .ok (.dcb 0xAB) := by decide
theorem test_decode_eoi : decodeWord 0b00001011_00000000 = .ok .eoi := by decide

/-- The host's numbering: one 16-bit word, bit 0 the least significant (R56). -/
theorem test_decodeTableWord : decodeTableWord 16 0x0642 = some (.pkb 0x42) ∧ decodeTableWord 16 0x0C00 = none := by decide

/-- `State.withFetchWord` has the very next step run the word. -/
theorem test_withFetchWord :
    step (State.reset.withFetchWord 16 0x0141)
      = .next { State.reset with phase := .count, nbytes := 1, freq := [(0x41, 1)] } := by rfl

/-! ### Ill-formed words and source lines (R60, R61; vectors Q1 to Q4) -/

theorem test_wf_refuses_unassigned_opcode : commandWordWf 0x0C00 = false ∧ commandWordWf 0xFFFF = false := by decide
theorem test_wf_refuses_operand_not_zero : commandWordWf 0x0201 = false ∧ commandWordWf 0x0001 = false := by decide
theorem test_decode_refuses_unassigned_opcode : decodeWord 0x0C41 = .error (.unassignedOpcode 0x0C) := by decide
theorem test_decode_refuses_operand_not_zero : decodeWord 0x0B80 = .error (.operandNotZero 0x0B 0x80) := by decide
theorem test_row_not_selected : OpcodeRow.selects ⟨0xFF00, 0x0100⟩ 0x0641 = false := by decide
theorem test_wf_instr : Instr.wf (.cnt 0xFF) = true ∧ Instr.wf .eoi = true := by decide

theorem test_line_operand_missing : SourceLine.wf ⟨.CNT, none⟩ = false := by decide
theorem test_line_operand_unwanted : SourceLine.wf ⟨.BLD, some (.hex 0)⟩ = false := by decide
theorem test_line_operand_too_large : SourceLine.wf ⟨.PKB, some (.dec 256)⟩ = false := by decide
theorem test_line_hex_too_large : SourceOperand.wf (.hex 0x100) = false := by decide
theorem test_line_not_ascii : SourceOperand.wf (.chr 'é') = false := by decide

/-- R61: "`CNT 'A'` is the word `0x0141`; `BLD` is `0x0200`". -/
theorem test_assemble :
    (assemble ⟨.CNT, some (.chr 'A')⟩).map encodeWord = some 0x0141
      ∧ (assemble ⟨.CNT, some (.dec 65)⟩).map encodeWord = some 0x0141
      ∧ (assemble ⟨.BLD, none⟩).map encodeWord = some 0x0200 ∧ assemble ⟨.DCB, none⟩ = none := by decide

/-- R62. -/
theorem test_pseudo :
    (Pseudo.encode [0x41]).expand.map encodeWord
      = [0x0000, 0x0141, 0x0200, 0x0300, 0x0400, 0x0500, 0x0641, 0x0700] := by decide

/-! ### The states of the calls on "A" (vectors T4, K3, H3, B3, D3, D9) -/

/-- IDLE after an earlier call that emitted a byte. -/
def idleA : State := { State.reset with out := [0x41] }

/-- COUNT: "A" counted (F1). -/
def countA : State := { State.reset with phase := .count, nbytes := 1, freq := [(0x41, 1)] }

/-- COUNT at the limit (F7). -/
def countFull : State :=
  { State.reset with phase := .count, nbytes := 0xFFFFFFFFFFFFFFFE, freq := [(0x41, 0xFFFFFFFFFFFFFFFE)] }

/-- TREE: (A1, END1) -> 257 w2 (T4). -/
def treeA : State :=
  { countA with
    phase := .tree, nodeWt := [(65, 1), (256, 1), (257, 2)], nodeL := [(257, 65)], nodeR := [(257, 256)],
    root := 257, nint := 1 }

/-- LENS: A1 END1 (K3). -/
def lensA : State := { countA with phase := .lens, lent := [(65, 1), (256, 1)], maxlen := 1 }

/-- CODES: A=0, END=1 (K3). -/
def codesA : State := { lensA with phase := .codes, code := [(256, 1)] }

/-- PACK: the header is out (H3). -/
def packA : State := { codesA with phase := .pack, out := [0x00, 0x02, 0x01, 0x41, 0x01] }

/-- HDR_DONE: the header of "A" read (H10). -/
def hdrDoneA : State :=
  { State.reset with
    phase := .hdrDone, hpos := 5, hsize := 2, hsym := 0x41, hprev := 0x41, lent := [(65, 1), (256, 1)], maxlen := 1 }

/-- HDR_DONE with lengths A1 B1 END1, Kraft sum 3/2 (K9). -/
def hdrDoneOver : State :=
  { State.reset with
    phase := .hdrDone, hpos := 7, hsize := 3, hsym := 0x42, hprev := 0x42, lent := [(65, 1), (66, 1), (256, 1)], maxlen := 1 }

/-- DCODES: A=0, END=1 (K3). -/
def dcodesA : State := { hdrDoneA with phase := .dcodes, code := [(256, 1)] }

/-- DEC: TRIE[1] = 'A', TRIE[2] = END (D3). -/
def decA : State := { dcodesA with phase := .dec, trie := [(1, 65), (2, 256)] }

/-- DEC of the under-subscribed code A=00, END=01 (D5, K10). -/
def decUnder : State :=
  { State.reset with
    phase := .dec, hpos := 5, hsize := 2, hsym := 0x41, hprev := 0x41, lent := [(65, 2), (256, 2)], maxlen := 2,
    code := [(256, 1)], trie := [(3, 65), (4, 256)] }

/-- DEC_DONE after the payload of "A". -/
def decDoneA : State := { decA with phase := .decDone, out := [0x41] }

/-- HDR after the bytes `00 02 01 41` (H21). -/
def hdrA4 : State :=
  { State.reset with phase := .hdr, hpos := 4, hsize := 2, hsym := 0x41, lent := [(256, 1)], maxlen := 1 }

/-- FAULT: a `DCB 0x80` left the trie (Q16). -/
def faultA : State := { decUnder with phase := .fault, err := .corruptStream, errcmd := 0x0A80, slot := 5, depth := 2 }

/-! ### One step of each command -/

/-- Q16. -/
theorem test_clr_leaves_fault : issueWord 0x0000 { faultA with out := [0x41] } = { State.reset with out := [0x41] } := by
  decide +kernel

/-- F1, F6. -/
theorem test_cnt_counts :
    issueWord 0x0141 State.reset = countA
      ∧ (issueWord 0x0141 { countFull with nbytes := 0xFFFFFFFFFFFFFFFD, freq := [(65, 0xFFFFFFFFFFFFFFFD)] }) = countFull := by
  decide +kernel

/-- F7. -/
theorem test_cnt_overflow :
    issueWord 0x0141 countFull = { countFull with phase := .fault, err := .countOverflow, errcmd := 0x0141 } := by
  decide +kernel

/-- T4. -/
theorem test_bld_tie_goes_to_real_symbol : issueWord 0x0200 countA = treeA := by decide +kernel

/-- T7: 257 before 258 at equal weight. -/
theorem test_bld_abcd :
    (issueWord 0x0200 { State.reset with phase := .count, nbytes := 4, freq := [(65, 1), (66, 1), (67, 1), (68, 1)] }).nodeL
        = [(257, 65), (258, 67), (259, 256), (260, 258)]
      ∧ (issueWord 0x0200 { State.reset with phase := .count, nbytes := 4, freq := [(65, 1), (66, 1), (67, 1), (68, 1)] }).nodeR
        = [(257, 66), (258, 68), (259, 257), (260, 259)] := by decide +kernel

/-- K3: the tree is discarded. -/
theorem test_len_discards_tree : issueWord 0x0300 treeA = lensA := by decide +kernel

/-- K2: the single leaf gets length 1. -/
theorem test_len_end_only :
    issueWord 0x0300 { State.reset with phase := .tree, root := 256, nodeWt := [(256, 1)] }
      = { State.reset with phase := .lens, lent := [(256, 1)], maxlen := 1 } := by decide +kernel

/-- K1. -/
theorem test_asg_scenario :
    (issueWord 0x0400
        { State.reset with phase := .lens, lent := [(65, 2), (66, 2), (67, 2), (68, 3), (256, 3)], maxlen := 3 }).code
      = [(65, 1), (66, 2), (67, 3), (256, 1)] := by decide +kernel

/-- K9, and K11: the `+ 1` of the level-up. -/
theorem test_asg_over_and_under :
    issueWord 0x0400 hdrDoneOver = { hdrDoneOver with phase := .fault, err := .corruptHeader, errcmd := 0x0400 }
      ∧ (issueWord 0x0400 { State.reset with phase := .hdrDone, lent := [(65, 3), (256, 1)], maxlen := 3 }).code
          = [(256, 1)] := by decide +kernel

/-- H6: a pair for byte 0. -/
theorem test_whd_pairs :
    (issueWord 0x0500 { State.reset with phase := .codes, lent := [(0, 1), (65, 2), (256, 2)], maxlen := 2 }).out
      = [0x00, 0x03, 0x02, 0x00, 0x01, 0x41, 0x02] := by decide +kernel

/-- B1: the last of four `PKB 'A'` of the scenario emits `55`. -/
theorem test_pkb_emits :
    issueWord 0x0641 { packA with lent := [(65, 2)], code := [(65, 1)], acc := 0b010101, nacc := 6 }
      = { packA with lent := [(65, 2)], code := [(65, 1)], out := packA.out ++ [0x55] } := by decide +kernel

/-- `PKB 'Z'` on the table of "A" (2.6). -/
theorem test_pkb_no_code :
    issueWord 0x065A packA = { packA with phase := .fault, err := .noCode, errcmd := 0x065A } := by decide +kernel

/-- B4: `0000` held, END=`1`, padded on the right. -/
theorem test_pke_pads :
    issueWord 0x0700 { packA with nacc := 4 } = { packA with phase := .encDone, out := packA.out ++ [0x08] } := by
  decide +kernel

/-- H10: the byte that completes the header. -/
theorem test_rhb_completes : issueWord 0x0801 hdrA4 = hdrDoneA := by decide +kernel

/-- H13: size 258. -/
theorem test_rhb_size_too_large :
    issueWord 0x0802 { State.reset with phase := .hdr, hpos := 1, hsize := 0x0100 }
      = { State.reset with phase := .fault, err := .corruptHeader, errcmd := 0x0802, hpos := 1, hsize := 0x0100 } := by
  decide +kernel

/-- D1. -/
theorem test_tri_slots :
    (issueWord 0x0900
        { State.reset with
          phase := .dcodes, lent := [(65, 2), (66, 2), (67, 2), (68, 3), (256, 3)], maxlen := 3,
          code := [(65, 1), (66, 2), (67, 3), (256, 1)] }).trie
      = [(4, 65), (5, 66), (6, 67), (7, 68), (8, 256)] := by decide +kernel

/-- D9: `40` is A, END and six ignored bits. -/
theorem test_dcb_ends : issueWord 0x0A40 decA = decDoneA := by decide +kernel

/-- P5: `21` emits 41, then leaves the trie at slot 5. -/
theorem test_dcb_fault_keeps_earlier_bits :
    issueWord 0x0A21 decUnder
      = { decUnder with
          phase := .fault, err := .corruptStream, errcmd := 0x0A21, slot := 5, depth := 2, out := [0x41] } := by
  decide +kernel

/-- H21, and Q15: a no-op in DEC_DONE. -/
theorem test_eoi_truncation :
    issueWord 0x0B00 hdrA4 = { hdrA4 with phase := .fault, err := .corruptHeader, errcmd := 0x0B00 }
      ∧ issueWord 0x0B00 decDoneA = decDoneA := by decide +kernel

/-- Q1, and the priority of `BadOpcode` over `BadSequence`. -/
theorem test_reserved_word :
    issueWord 0x0C00 treeA = { treeA with phase := .fault, err := .badOpcode, errcmd := 0x0C00 } := by decide +kernel

/-- Q5, Q8: the first fault is kept. -/
theorem test_bad_sequence :
    issueWord 0x0300 State.reset = { State.reset with phase := .fault, err := .badSequence, errcmd := 0x0300 }
      ∧ issueWord 0x0C00 faultA = faultA := by decide +kernel

/-- Z2: a reset empties `OUT` too. -/
theorem test_reset_event : settle { faultA with out := [0x41], input := [.rst] } = State.reset := by decide +kernel

/-- R188, Z1 to Z5: `STATUS`. -/
theorem test_status :
    faultA.status = 0x4F ∧ decDoneA.status = 0x0B ∧ hdrDoneA.hdrDoneOut = true ∧ decDoneA.doneOut = true
      ∧ faultA.faultOut = true := by decide

/-- K13's longest code stays in 256 bits: the slot of a codeword of 255 ones is `2^256 - 2`. -/
theorem test_deepest_slot : (childWalk (2 ^ 255 - 1 : CodeVal) 255 0).toNat = 2 ^ 256 - 2 := by decide +kernel

/-! ### The invariants on the states above

Checks that evaluate, and that they give the invariants. -/

/-- What evaluates of `Inv`. -/
def invChecks (s : State) : Bool :=
  decide (s.err ≠ .noFault ↔ s.phase = .fault) && decide (s.err = .noFault → s.errcmd = 0)
    && decide (s.nbytes.toNat = freqSum s) && decide (s.nbytes.toNat ≤ 2 ^ Config.cntW - 2)
    && decide (s.nacc.toNat ≤ 7) && decide (s.acc.toNat < 2 ^ s.nacc.toNat)
    && decide (2 ^ s.depth.toNat - 1 ≤ s.slot.toNat) && decide (s.slot.toNat ≤ 2 ^ (s.depth.toNat + 1) - 2)
    && decide (s.slot = 0 ↔ s.depth = 0) && decide (s.phase = .dec → s.depth.toNat ≤ s.maxlen.toNat)
    && assocSorted s.trie
    && decide (∀ p ∈ s.trie, 1 ≤ p.1 ∧ p.1 ≤ 2 ^ Config.slotW - 2 ∧ p.2.toNat ≤ Config.endSym)
    && decide (s.trie.length ≤ Config.nsym)
    && tableWf 0 Config.endSym s.freq && tableWf 0 Config.nnode s.nodeWt
    && tableWf Config.firstInternal Config.nnode s.nodeL && tableWf Config.firstInternal Config.nnode s.nodeR
    && tableWf 0 Config.nsym s.lent && tableWf 0 Config.nsym s.code
    && decide (s.phase = .idle → s = { State.reset with input := s.input, out := s.out })
    && decide (s.phase = .count →
        s = { State.reset with input := s.input, out := s.out, phase := .count, nbytes := s.nbytes, freq := s.freq })
    && decide (s.hpos.toNat ≤ 515) && decide (s.phase = .hdr → 1 ≤ s.hpos.toNat)
    && decide (s.phase = .hdr → 2 ≤ s.hpos.toNat → 1 ≤ s.hsize.toNat ∧ s.hsize.toNat ≤ Config.nsym)
    && decide (s.phase = .hdr → 3 ≤ s.hpos.toNat → s.hpos.toNat < 3 + 2 * (s.hsize.toNat - 1))
    && decide (s.phase = .hdr → s.hpos.toNat ≤ 2 → s.lent = [] ∧ s.maxlen = 0)
    && decide (s.phase = .hdr → 3 ≤ s.hpos.toNat → tableGet s.lent Config.endSym ≠ 0)
    && decide (s.phase = .hdr → ∀ b ∈ byteValues, tableGet s.lent b ≠ 0 → 4 < s.hpos.toNat ∧ b ≤ s.hprev.toNat)
    && decide (s.phase = .hdr → s.hpos.toNat % 2 = 0 → 4 < s.hpos.toNat → s.hprev.toNat < s.hsym.toNat)
    && decide (∀ a ∈ symbols, (tableGet s.lent a).toNat ≤ s.maxlen.toNat)
    && decide (s.maxlen ≠ 0 → ∃ a ∈ symbols, tableGet s.lent a = s.maxlen)

theorem inv_of_checks {s : State} (h : invChecks s = true) : Inv s := by
  simp only [invChecks, Bool.and_eq_true, decide_eq_true_eq, and_assoc] at h
  obtain ⟨a1, a2, b1, b2, c1, c2, d1, d2, d3, d4, e1, e2, e3, f1, f2, f3, f4, f5, f6, g1, g2, h1, h2, h3, h4, h5, h6, h7,
    h8, i1, i2⟩ := h
  refine ⟨⟨a1, a2⟩, ⟨b1, b2⟩, ⟨c1, c2⟩, ⟨d1, d2, d3, d4⟩, ⟨e1, e2, e3⟩, ⟨f1, f2, f3, f4, f5, f6⟩, ⟨g1, g2⟩,
    ⟨h1, h2, h3, h4, h5, h6, fun hp b hb => h7 hp b (mem_byteValues.2 hb), h8⟩,
    ⟨fun a ha => i1 a (mem_symbols.2 ha), fun hm => ?_⟩⟩
  obtain ⟨a, ha, e⟩ := i2 hm
  exact ⟨a, mem_symbols.1 ha, e⟩

/-- The symbols that have a codeword, as a list. -/
def codedList (lent : Table 8) : List Nat := symbols.filter fun a => tableGet lent a ≠ 0

theorem coded_iff_mem {lent : Table 8} {a : Nat} : Coded lent a ↔ a ∈ codedList lent := by
  simp [Coded, codedList]

/-- What evaluates of the four properties of a code table. -/
def codeChecks (s : State) : Bool :=
  decide (∀ a ∈ codedList s.lent, (tableGet s.code a).toNat = canonicalValue s.lent s.maxlen.toNat a)
    && decide (∀ a ∈ codedList s.lent, (tableGet s.code a).toNat < 2 ^ (tableGet s.lent a).toNat)
    && decide (∀ a ∈ codedList s.lent, ∀ b ∈ codedList s.lent, a ≠ b →
        ¬ codewordOf s.lent s.code a <+: codewordOf s.lent s.code b)
    && decide (∀ a ∈ codedList s.lent, ∀ b ∈ codedList s.lent, tableGet s.lent a = tableGet s.lent b → a < b →
        (tableGet s.code b).toNat
          = (tableGet s.code a).toNat
            + (countOfLength s.lent (tableGet s.lent a).toNat b - countOfLength s.lent (tableGet s.lent a).toNat a))

theorem codes_of_checks {s : State} (h : codeChecks s = true) :
    CodesAssigned s.lent s.maxlen.toNat s.code ∧ CodesInRange s.lent s.code ∧ PrefixFree s.lent s.code
      ∧ CanonicalOrder s.lent s.code := by
  simp only [codeChecks, Bool.and_eq_true, decide_eq_true_eq, and_assoc] at h
  exact ⟨fun a ha => h.1 a (coded_iff_mem.1 ha), fun a ha => h.2.1 a (coded_iff_mem.1 ha),
    fun a b ha hb => h.2.2.1 a (coded_iff_mem.1 ha) b (coded_iff_mem.1 hb),
    fun a b ha hb => h.2.2.2 a (coded_iff_mem.1 ha) b (coded_iff_mem.1 hb)⟩

/-- What evaluates of `TrieHolds`. -/
def trieChecks (s : State) : Bool :=
  assocSorted s.trie
    && decide (∀ p ∈ s.trie, p.2.toNat ∈ codedList s.lent
        ∧ p.1 = 2 ^ (tableGet s.lent p.2.toNat).toNat - 1 + (tableGet s.code p.2.toNat).toNat)
    && decide (∀ a ∈ codedList s.lent,
        assocFind s.trie (2 ^ (tableGet s.lent a).toNat - 1 + (tableGet s.code a).toNat) = some (BitVec.ofNat 9 a))

theorem trie_of_checks {s : State} (h : trieChecks s = true) : TrieHolds s.lent s.code s.trie := by
  simp only [trieChecks, Bool.and_eq_true, decide_eq_true_eq, and_assoc] at h
  intro k sym
  constructor
  · intro hf
    have := h.2.1 _ ((assocFind_eq_some h.1).1 hf)
    exact ⟨coded_iff_mem.2 this.1, this.2⟩
  · rintro ⟨hc, rfl⟩
    rw [h.2.2 _ (coded_iff_mem.1 hc)]
    congr 1
    exact BitVec.eq_of_toNat_eq (by simp)

/-- What evaluates of `FlowInv` outside TREE. -/
def flowChecks (s : State) : Bool :=
  decide (s.phase ≠ .tree)
    && decide (s.phase ∈ encodeLengthPhases → ∀ x ∈ symbols,
        (tableGet s.lent x ≠ 0 ↔ (x = Config.endSym ∨ (x < Config.endSym ∧ tableGet s.freq x ≠ 0))))
    && decide (s.phase ∈ encodeLengthPhases → kraftSum s.lent ≤ kraftOne)
    && decide (s.phase ∈ encodeLengthPhases → presentSymbols s.freq ≠ [] → kraftSum s.lent = kraftOne)
    && decide (s.phase ∈ decodeLengthPhases → tableGet s.lent Config.endSym ≠ 0)
    && decide (s.phase ∈ codePhases → codeChecks s = true)
    && decide (s.phase = .dec → trieChecks s = true)

theorem flow_of_checks {s : State} (h : flowChecks s = true) : FlowInv s := by
  simp only [flowChecks, Bool.and_eq_true, decide_eq_true_eq, and_assoc] at h
  exact ⟨fun e => absurd e h.1,
    fun e => ⟨fun x hx => h.2.1 e x (mem_symbols.2 hx), h.2.2.1 e, h.2.2.2.1 e⟩,
    h.2.2.2.2.1, fun e => codes_of_checks (h.2.2.2.2.2.1 e), fun e => trie_of_checks (h.2.2.2.2.2.2 e)⟩

theorem idleA_inv : Inv idleA ∧ FlowInv idleA :=
  ⟨inv_of_checks (by decide +kernel), flow_of_checks (by decide +kernel)⟩
theorem countA_inv : Inv countA ∧ FlowInv countA :=
  ⟨inv_of_checks (by decide +kernel), flow_of_checks (by decide +kernel)⟩
theorem countFull_inv : Inv countFull ∧ FlowInv countFull :=
  ⟨inv_of_checks (by decide +kernel), flow_of_checks (by decide +kernel)⟩
theorem lensA_inv : Inv lensA ∧ FlowInv lensA :=
  ⟨inv_of_checks (by decide +kernel), flow_of_checks (by decide +kernel)⟩
theorem codesA_inv : Inv codesA ∧ FlowInv codesA :=
  ⟨inv_of_checks (by decide +kernel), flow_of_checks (by decide +kernel)⟩
theorem packA_inv : Inv packA ∧ FlowInv packA :=
  ⟨inv_of_checks (by decide +kernel), flow_of_checks (by decide +kernel)⟩
theorem hdrA4_inv : Inv hdrA4 ∧ FlowInv hdrA4 :=
  ⟨inv_of_checks (by decide +kernel), flow_of_checks (by decide +kernel)⟩
theorem hdrDoneA_inv : Inv hdrDoneA ∧ FlowInv hdrDoneA :=
  ⟨inv_of_checks (by decide +kernel), flow_of_checks (by decide +kernel)⟩
theorem hdrDoneOver_inv : Inv hdrDoneOver ∧ FlowInv hdrDoneOver :=
  ⟨inv_of_checks (by decide +kernel), flow_of_checks (by decide +kernel)⟩
theorem dcodesA_inv : Inv dcodesA ∧ FlowInv dcodesA :=
  ⟨inv_of_checks (by decide +kernel), flow_of_checks (by decide +kernel)⟩
theorem decA_inv : Inv decA ∧ FlowInv decA :=
  ⟨inv_of_checks (by decide +kernel), flow_of_checks (by decide +kernel)⟩
theorem decUnder_inv : Inv decUnder ∧ FlowInv decUnder :=
  ⟨inv_of_checks (by decide +kernel), flow_of_checks (by decide +kernel)⟩
theorem decDoneA_inv : Inv decDoneA ∧ FlowInv decDoneA :=
  ⟨inv_of_checks (by decide +kernel), flow_of_checks (by decide +kernel)⟩
theorem faultA_inv : Inv faultA ∧ FlowInv faultA :=
  ⟨inv_of_checks (by decide +kernel), flow_of_checks (by decide +kernel)⟩

/-- The tree of "A" (T4): which node stands where. -/
theorem treeA_depths {x d : Nat} (h : AtDepth treeA x d) : (x = 257 ∧ d = 0) ∨ (x = 65 ∧ d = 1) ∨ (x = 256 ∧ d = 1) := by
  induction h with
  | root => exact Or.inl ⟨by decide, rfl⟩
  | left h hn ih =>
    rcases ih with ⟨rfl, rfl⟩ | ⟨rfl, rfl⟩ | ⟨rfl, rfl⟩
    · exact Or.inr (Or.inl ⟨by decide, rfl⟩)
    · exact absurd hn (by decide)
    · exact absurd hn (by decide)
  | right h hn ih =>
    rcases ih with ⟨rfl, rfl⟩ | ⟨rfl, rfl⟩ | ⟨rfl, rfl⟩
    · exact Or.inr (Or.inr ⟨by decide, rfl⟩)
    · exact absurd hn (by decide)
    · exact absurd hn (by decide)

theorem treeA_root : AtDepth treeA 257 0 := AtDepth.root (s := treeA)

theorem treeA_a : AtDepth treeA 65 1 := AtDepth.left treeA_root (by decide)

theorem treeA_end : AtDepth treeA 256 1 := AtDepth.right treeA_root (by decide)

theorem below_leaf {s : State} {n x : Nat} (h : Below s n x) (hn : n ≤ Config.endSym) : x = n := by
  cases h with
  | here => rfl
  | left h => exact absurd h (by omega)
  | right h => exact absurd h (by omega)

theorem treeA_shaped : TreeShaped treeA where
  childrenSmaller := by
    intro n d h hn
    rcases treeA_depths h with ⟨rfl, -⟩ | ⟨rfl, -⟩ | ⟨rfl, -⟩
    · decide
    · exact absurd hn (by decide)
    · exact absurd hn (by decide)
  oneDepth := by
    intro x d e hd he
    have := treeA_depths hd
    have := treeA_depths he
    omega

theorem treeA_leaf {x : Nat} : IsLeafSymbol treeA x ↔ x = 256 ∨ x = 65 := by
  constructor
  · rintro (h | ⟨-, h⟩)
    · exact Or.inl h
    · right
      by_contra hx
      apply h
      have hx' : ¬ 65 = x := fun e => hx e.symm
      simp [treeA, countA, tableGet, assocFind, hx']
  · rintro (rfl | rfl)
    · exact Or.inl rfl
    · exact Or.inr ⟨by decide, by decide⟩

theorem treeA_inv : Inv treeA ∧ FlowInv treeA := by
  refine ⟨inv_of_checks (by decide +kernel), fun _ => ?_, fun e => absurd e (by decide), fun e => absurd e (by decide),
    fun e => absurd e (by decide), fun e => absurd e (by decide)⟩
  refine ⟨treeA_shaped, by decide +kernel, by decide +kernel, fun x hx => ?_, fun x hx => ?_, fun n d h hn => ?_,
    fun n d x h hn => ?_⟩
  · rw [treeA_leaf]
    constructor
    · rintro ⟨d, h⟩
      rcases treeA_depths h with ⟨rfl, -⟩ | ⟨rfl, -⟩ | ⟨rfl, -⟩
      · exact absurd hx (by decide)
      · exact Or.inr rfl
      · exact Or.inl rfl
    · rintro (rfl | rfl)
      · exact ⟨1, treeA_end⟩
      · exact ⟨1, treeA_a⟩
  · rcases treeA_leaf.1 hx with rfl | rfl <;> decide
  · rcases treeA_depths h with ⟨rfl, -⟩ | ⟨rfl, -⟩ | ⟨rfl, -⟩
    · decide
    · exact absurd hn (by decide)
    · exact absurd hn (by decide)
  · rcases treeA_depths h with ⟨rfl, -⟩ | ⟨rfl, -⟩ | ⟨rfl, -⟩
    · rintro ⟨h1, h2⟩
      have e1 := below_leaf h1 (by decide)
      have e2 := below_leaf h2 (by decide)
      rw [e1] at e2
      exact absurd e2 (by decide)
    · exact absurd hn (by decide)
    · exact absurd hn (by decide)

/-- A node memory in which node `n` has `n - 1` and the leaf `n - 257` below it, so that END is at depth `r - 256` of the
tree of `r`: the most skewed tree there is, for the clauses of `LEN` at depths 255 and 256. -/
def chain (r : Nat) : State :=
  { State.reset with
    phase := .tree, root := BitVec.ofNat 10 r
    nodeL := (List.range 256).map fun k => (257 + k, BitVec.ofNat 10 (256 + k))
    nodeR := (List.range 256).map fun k => (257 + k, BitVec.ofNat 10 k) }

theorem chain_find (f : Nat → NodeId) {k : Nat} (hk : k < 256) :
    tableGet ((List.range 256).map fun k => (257 + k, f k)) (257 + k) = f k := by
  have hs : assocSorted ((List.range 256).map fun k => (257 + k, f k)) = true := by
    rw [assocSorted_iff, List.pairwise_map]
    exact List.pairwise_lt_range.imp fun h => Nat.add_lt_add_left h 257
  have hf := (assocFind_eq_some hs).2 (List.mem_map.2 ⟨k, List.mem_range.2 hk, rfl⟩)
  rw [tableGet, hf]; rfl

theorem chain_children (r : Nat) {k : Nat} (hk : k < 256) :
    (tableGet (chain r).nodeL (257 + k)).toNat = 256 + k ∧ (tableGet (chain r).nodeR (257 + k)).toNat = k := by
  constructor
  · rw [show tableGet (chain r).nodeL (257 + k) = _ from chain_find (fun k => BitVec.ofNat 10 (256 + k)) hk]
    simp; omega
  · rw [show tableGet (chain r).nodeR (257 + k) = _ from chain_find (fun k => BitVec.ofNat 10 k) hk]
    simp; omega

theorem chain_below {r n : Nat} (hn : Config.endSym < n) (h : n ≤ 512) :
    (tableGet (chain r).nodeL n).toNat = n - 1 ∧ (tableGet (chain r).nodeR n).toNat = n - 257 := by
  have hn' : 256 < n := hn
  have := chain_children r (k := n - 257) (by omega)
  rw [show 257 + (n - 257) = n by omega] at this
  omega

theorem chain_depths {r x d : Nat} (hr : r ≤ 512) (hr' : 256 ≤ r) (h : AtDepth (chain r) x d) :
    (256 ≤ x ∧ x ≤ r ∧ d = r - x) ∨ (x < 256 ∧ x + 257 ≤ r ∧ d = r - (x + 257) + 1) := by
  induction h with
  | root =>
    have : (chain r).root.toNat = r := by simp [chain]; omega
    rw [this]; omega
  | left h hn ih => have := chain_below (r := r) hn; simp only [Config.endSym] at hn; omega
  | right h hn ih => have := chain_below (r := r) hn; simp only [Config.endSym] at hn; omega

theorem chain_shaped {r : Nat} (hr : r ≤ 512) (hr' : 256 ≤ r) : TreeShaped (chain r) where
  childrenSmaller := by
    intro n d h hn
    have h1 := chain_depths hr hr' h
    have h2 := chain_below (r := r) hn
    simp only [Config.endSym] at hn
    omega
  oneDepth := by
    intro x d e hd he
    have := chain_depths hr hr' hd
    have := chain_depths hr hr' he
    omega

theorem chain_end {r : Nat} (hr : r ≤ 512) (hr' : 256 ≤ r) : AtDepth (chain r) 256 (r - 256) := by
  have key : ∀ j, j ≤ r - 256 → AtDepth (chain r) (r - j) j := by
    intro j
    induction j with
    | zero =>
      intro _
      have h : AtDepth (chain r) (chain r).root.toNat 0 := AtDepth.root
      have e : (chain r).root.toNat = r := by simp [chain]; omega
      rwa [e] at h
    | succ j ih =>
      intro hj
      have h := ih (by omega)
      have hn : Config.endSym < r - j := by simp only [Config.endSym]; omega
      have h' := AtDepth.left h hn
      rwa [(chain_below (r := r) hn (by omega)).1, show r - j - 1 = r - (j + 1) by omega] at h'
  have := key (r - 256) le_rfl
  rwa [show r - (r - 256) = 256 by omega] at this

/-! ### Witnesses: for each statement with hypotheses, a concrete state and operands that meet them -/

/-- A word that decodes to nothing. -/
theorem reserved_of_error {w : Word} {e : DecodeError} (h : decodeWord w = .error e) : ∀ i, decodeWord w ≠ .ok i := by
  intro i hi
  rw [h] at hi
  exact nomatch hi

theorem witness_DecodeInvertsEncode : Instr.wf (.dcb 0xFF) = true ∧ decodeWord 0x0AFF = .ok (.dcb 0xFF) := by decide

theorem witness_DecodeFollowsOpcodeMap :
    (⟨0xFF00, 0x0A00⟩ : OpcodeRow) ∈ opcodeRows ∧ OpcodeRow.selects ⟨0xFF00, 0x0A00⟩ 0x0AFF = true
      ∧ decodeWord 0x0AFF = .ok (.dcb 0xFF) := by decide

/-- The first and the last reserved word, and the first and the last of a command without operand, outside and in FAULT. -/
theorem witness_ReservedWordsRaiseBadOpcode :
    (∀ w ∈ [(0x0C00 : Word), 0xFFFF, 0x0001, 0x0BFF], ∀ i, decodeWord w ≠ .ok i)
      ∧ ({ treeA with input := [.word 0x0C00] } : State).phase ≠ .fault
      ∧ ({ faultA with input := [.word 0x0C00] } : State).phase = .fault := by
  refine ⟨?_, by decide, by decide⟩
  intro w hw
  simp only [List.mem_cons, List.not_mem_nil, or_false] at hw
  rcases hw with rfl | rfl | rfl | rfl
  · exact reserved_of_error (e := .unassignedOpcode 0x0C) (by decide)
  · exact reserved_of_error (e := .unassignedOpcode 0xFF) (by decide)
  · exact reserved_of_error (e := .operandNotZero 0x00 0x01) (by decide)
  · exact reserved_of_error (e := .operandNotZero 0x0B 0xFF) (by decide)

theorem witness_StepRunsTheDecodedCommand :
    ({ countA with input := [.word 0x0141, .rst] } : State).input = .word 0x0141 :: [.rst]
      ∧ decodeWord 0x0141 = .ok (.cnt 0x41) := by decide

theorem witness_ResetClearsEverything :
    ({ faultA with input := [.rst] } : State).input = .rst :: []
      ∧ ({ faultA with input := [.word 0x0000] } : State).input = .word 0x0000 :: [] := ⟨rfl, rfl⟩

theorem witness_PhasesFollowTheTable :
    (Inv idleA ∧ idleA.phase ≠ .fault ∧ legal (.cnt 0x41) idleA.phase = true ∧ legal .len idleA.phase = false)
      ∧ (Inv hdrA4 ∧ hdrA4.phase ≠ .fault ∧ legal (.rhb 0) hdrA4.phase = true)
      ∧ (Inv decUnder ∧ decUnder.phase ≠ .fault ∧ legal .eoi decUnder.phase = true) ∧ faultA.phase = .fault :=
  ⟨⟨idleA_inv.1, by decide, by decide, by decide⟩, ⟨hdrA4_inv.1, by decide, by decide⟩,
    ⟨decUnder_inv.1, by decide, by decide⟩, rfl⟩

theorem witness_FaultDiscardsAllButClear :
    ({ faultA with input := [.word 0x0C00] } : State).phase = .fault
      ∧ ({ faultA with input := [.word 0x0000] } : State).input = .word 0x0000 :: [] := ⟨rfl, rfl⟩

/-- For each command, two states that differ in what its unit does not read, in a phase in which it is legal. -/
theorem witness_UnitsReadOnlyTheirState :
    ReadsAgree .clr faultA { faultA with out := [], slot := 0, depth := 0 }
      ∧ ReadsAgree (.cnt 0x41) countA { countA with out := [0x41], freq := [(0x41, 1), (0x42, 1)] }
      ∧ ReadsAgree .bld countA { countA with nodeWt := [(3, 4)] }
      ∧ ReadsAgree .len treeA { treeA with lent := [(3, 4)], maxlen := 4, nint := 0 }
      ∧ ReadsAgree .asg lensA { lensA with code := [(3, 4)] }
      ∧ ReadsAgree .whd codesA { codesA with acc := 1, nacc := 1 }
      ∧ ReadsAgree (.pkb 0x41) packA { packA with freq := [], out := [] }
      ∧ ReadsAgree .pke packA { packA with freq := [], out := [] }
      ∧ ReadsAgree (.rhb 0x01) hdrA4 { hdrA4 with lent := [(256, 9)], maxlen := 9 }
      ∧ ReadsAgree .tri dcodesA { dcodesA with trie := [(9, 9)], slot := 5, depth := 2 }
      ∧ ReadsAgree (.dcb 0x40) decA { decA with lent := [], code := [] }
      ∧ ReadsAgree .eoi decA { decA with lent := [], code := [], trie := [] } :=
  ⟨trivial, ⟨rfl, rfl⟩, fun _ _ => rfl, ⟨rfl, rfl, rfl⟩, ⟨rfl, rfl⟩, rfl, ⟨rfl, rfl, rfl, rfl⟩, ⟨rfl, rfl, rfl, rfl⟩,
    ⟨rfl, rfl, rfl, rfl⟩, ⟨rfl, rfl⟩, ⟨rfl, ⟨rfl, rfl⟩, rfl⟩, trivial⟩

theorem witness_OutIsAppendedToAndNeverRead : AccHeld { packA with acc := 0x7F, nacc := 7 } := ⟨by decide, by decide⟩

theorem witness_FaultsArePrecise :
    exec .len State.reset = .next (raise .badSequence 0x0300 State.reset) ∧ State.reset.phase ≠ .fault
      ∧ (raise .badSequence 0x0300 State.reset).phase = .fault := ⟨rfl, by decide, rfl⟩

/-- Each clause of the causes: the counter at its limit and below it, a tree, lengths that fit and that do not, a payload
byte, every kind of header byte, the walk at depth `MAXLEN` and below it, the end of the input in each phase. -/
theorem witness_EveryFaultHasItsCause :
    (Inv countFull ∧ FlowInv countFull ∧ legal (.cnt 0x41) countFull.phase = true
        ∧ countFull.nbytes.toNat = 2 ^ Config.cntW - 2)
      ∧ (Inv treeA ∧ FlowInv treeA ∧ legal .len treeA.phase = true)
      ∧ (Inv lensA ∧ FlowInv lensA ∧ legal .asg lensA.phase = true ∧ ¬ kraftOne < kraftSum lensA.lent)
      ∧ (Inv hdrDoneOver ∧ FlowInv hdrDoneOver ∧ legal .asg hdrDoneOver.phase = true
        ∧ kraftOne < kraftSum hdrDoneOver.lent)
      ∧ (Inv packA ∧ FlowInv packA ∧ legal (.pkb 0x42) packA.phase = true ∧ tableGet packA.lent 0x42 = 0)
      ∧ (Inv idleA ∧ FlowInv idleA ∧ legal (.rhb 0) idleA.phase = true ∧ idleA.hpos.toNat = 0)
      ∧ (Inv hdrA4 ∧ FlowInv hdrA4 ∧ legal (.rhb 0) hdrA4.phase = true ∧ 4 ≤ hdrA4.hpos.toNat)
      ∧ (Inv { decUnder with slot := 5, depth := 2 } ∧ FlowInv { decUnder with slot := 5, depth := 2 }
        ∧ (5 : SlotIdx).toNat = pathSlot [true, false] ∧ (2 : Byte).toNat = [true, false].length
        ∧ (walkPath decUnder.trie 2 [true, false] (byteBits 0x00)).2 = .stuck [true, false])
      ∧ (Inv decDoneA ∧ FlowInv decDoneA ∧ legal .eoi decDoneA.phase = true) :=
  ⟨⟨countFull_inv.1, countFull_inv.2, by decide, by decide⟩,
    ⟨treeA_inv.1, treeA_inv.2, by decide⟩,
    ⟨lensA_inv.1, lensA_inv.2, by decide, by decide +kernel⟩,
    ⟨hdrDoneOver_inv.1, hdrDoneOver_inv.2, by decide, by decide +kernel⟩,
    ⟨packA_inv.1, packA_inv.2, by decide, by decide⟩,
    ⟨idleA_inv.1, idleA_inv.2, by decide, by decide⟩,
    ⟨hdrA4_inv.1, hdrA4_inv.2, by decide, by decide⟩,
    ⟨inv_of_checks (by decide +kernel), flow_of_checks (by decide +kernel), by decide, by decide, by decide⟩,
    ⟨decDoneA_inv.1, decDoneA_inv.2, by decide⟩⟩

/-- Header bytes at the positions 1, 2, 3 and 5 in states that keep the invariants, for the same statement. -/
theorem witness_EveryFaultHasItsCause_header :
    (∀ s ∈ [({ State.reset with phase := .hdr, hpos := 1, hsize := 0x0100 } : State),
        { State.reset with phase := .hdr, hpos := 2, hsize := 257 },
        { State.reset with phase := .hdr, hpos := 3, hsize := 2, lent := [(256, 1)], maxlen := 1 },
        { State.reset with
          phase := .hdr, hpos := 5, hsize := 3, hsym := 0x42, hprev := 0x42, lent := [(0x42, 1), (256, 1)], maxlen := 1 }],
      Inv s ∧ FlowInv s ∧ legal (.rhb 0x42) s.phase = true) := by
  intro s hs
  simp only [List.mem_cons, List.not_mem_nil, or_false] at hs
  rcases hs with rfl | rfl | rfl | rfl <;>
    exact ⟨inv_of_checks (by decide +kernel), flow_of_checks (by decide +kernel), by decide⟩

theorem witness_ClrClearsAllButOut :
    Inv idleA ∧ idleA.phase = .idle ∧ Instr.cnt 0x41 ≠ .clr ∧ faultA.phase = .fault :=
  ⟨idleA_inv.1, rfl, by decide, rfl⟩

theorem witness_EoiReportsTruncation :
    hdrA4.phase = .hdr ∧ hdrDoneA.phase = .hdrDone ∧ dcodesA.phase = .dcodes ∧ decA.phase = .dec
      ∧ decDoneA.phase = .decDone ∧ idleA.phase = .idle := by decide

/-- The last byte that may be counted, and the first that may not. -/
theorem witness_CntCountsOneByte :
    (idleA.phase = .idle ∧ idleA.nbytes.toNat ≠ 2 ^ Config.cntW - 2 ∧ CountsAgree idleA)
      ∧ ({ countFull with nbytes := countLimit - 1 } : State).nbytes.toNat = 2 ^ Config.cntW - 3
      ∧ (countFull.phase = .count ∧ countFull.nbytes.toNat = 2 ^ Config.cntW - 2) :=
  ⟨⟨rfl, by decide, idleA_inv.1.counts⟩, by decide, rfl, by decide⟩

theorem witness_CntSequenceCountsOccurrences :
    Inv idleA ∧ idleA.phase = .idle ∧ [(0x41 : Byte), 0x00, 0x41].length ≤ 2 ^ Config.cntW - 2
      ∧ [(0x41 : Byte), 0x00, 0x41].Perm [0x41, 0x41, 0x00] := ⟨idleA_inv.1, rfl, by decide, by decide⟩

theorem witness_BldMergesTheTwoFirst :
    countA.phase = .count ∧ presentSymbols countA.freq ≠ [] ∧ 0 < (presentSymbols countA.freq).length := by decide +kernel

theorem witness_BldOnEmptyInput : idleA.phase = .idle ∧ ∀ x, x < Config.endSym → tableGet idleA.freq x = 0 :=
  ⟨rfl, fun _ _ => rfl⟩

theorem witness_OneRealSymbolGivesTwoLeaves :
    (Inv countA ∧ countA.phase = .count ∧ presentSymbols countA.freq = [65] ∧ tableGet countA.freq 65 = 1)
      ∧ (Inv countFull ∧ countFull.phase = .count ∧ presentSymbols countFull.freq = [65]
        ∧ tableGet countFull.freq 65 ≠ 1) :=
  ⟨⟨countA_inv.1, rfl, by decide +kernel, by decide⟩, ⟨countFull_inv.1, rfl, by decide +kernel, by decide⟩⟩

theorem witness_BldBuildsAFullTree : (Inv idleA ∧ idleA.phase = .idle) ∧ (Inv countA ∧ countA.phase = .count) :=
  ⟨⟨idleA_inv.1, rfl⟩, ⟨countA_inv.1, rfl⟩⟩

theorem witness_TreeDependsOnFreqOnly :
    countA.phase = .count ∧ ({ countA with out := [0x41], nodeL := [(257, 1)] } : State).phase = .count
      ∧ ∀ x, tableGet countA.freq x = tableGet ({ countA with out := [0x41], nodeL := [(257, 1)] } : State).freq x :=
  ⟨rfl, rfl, fun _ => rfl⟩

/-- Depth 256 (the fault), depth 255 (the largest length) and the tree of "A". -/
theorem witness_LenTakesLeafDepths :
    ((chain 512).phase = .tree ∧ (chain 512).root.toNat ≠ Config.endSym ∧ TreeShaped (chain 512)
        ∧ ∃ x d, x ≤ Config.endSym ∧ AtDepth (chain 512) x d ∧ Config.lmax < d)
      ∧ ((chain 511).phase = .tree ∧ (chain 511).root.toNat ≠ Config.endSym ∧ TreeShaped (chain 511)
        ∧ AtDepth (chain 511) Config.endSym Config.lmax
        ∧ ∀ x d, x ≤ Config.endSym → AtDepth (chain 511) x d → d ≤ Config.lmax)
      ∧ (treeA.phase = .tree ∧ treeA.root.toNat ≠ Config.endSym ∧ TreeShaped treeA
        ∧ ∀ x d, x ≤ Config.endSym → AtDepth treeA x d → d ≤ Config.lmax) := by
  refine ⟨⟨rfl, by decide, chain_shaped (by decide) (by decide),
      256, 256, le_rfl, chain_end (r := 512) (by decide) (by decide), by decide⟩,
    ⟨rfl, by decide, chain_shaped (by decide) (by decide), chain_end (r := 511) (by decide) (by decide), ?_⟩,
    ⟨rfl, by decide, treeA_shaped, ?_⟩⟩
  · intro x d hx h
    have := chain_depths (by decide) (by decide) h
    simp only [Config.endSym, Config.lmax] at *
    omega
  · intro x d hx h
    have := treeA_depths h
    simp only [Config.lmax]
    omega

theorem witness_LenOfTheSingleLeaf : (chain 256).phase = .tree ∧ (chain 256).root.toNat = Config.endSym := ⟨rfl, by decide⟩

theorem witness_LengthsNeverOverflow : Inv countFull ∧ countFull.phase = .count := ⟨countFull_inv.1, rfl⟩

/-- A full code (Kraft sum 1) in either phase, and an over-subscribed one. -/
theorem witness_AsgAssignsCanonicalValues :
    (lensA.phase = .lens ∧ MaxLenRight lensA ∧ kraftSum lensA.lent = kraftOne)
      ∧ (hdrDoneA.phase = .hdrDone ∧ MaxLenRight hdrDoneA ∧ kraftSum hdrDoneA.lent ≤ kraftOne)
      ∧ (hdrDoneOver.phase = .hdrDone ∧ MaxLenRight hdrDoneOver ∧ kraftOne < kraftSum hdrDoneOver.lent) :=
  ⟨⟨rfl, lensA_inv.1.maxlen, by decide +kernel⟩, ⟨rfl, hdrDoneA_inv.1.maxlen, by decide +kernel⟩,
    ⟨rfl, hdrDoneOver_inv.1.maxlen, by decide +kernel⟩⟩

theorem witness_AsgTableProperties :
    lensA.phase = .lens ∧ MaxLenRight lensA ∧ exec .asg lensA = .next codesA ∧ codesA.phase ≠ .fault
      ∧ FlowInv lensA ∧ presentSymbols lensA.freq ≠ [] ∧ kraftSum codesA.lent = kraftOne ∧ codesA.maxlen ≠ 0 := by
  refine ⟨rfl, lensA_inv.1.maxlen, ?_, by decide, lensA_inv.2, by decide +kernel, by decide +kernel, by decide⟩
  have h : sequenced .asg asgBody lensA = codesA := by decide +kernel
  rw [exec_eq]
  exact congrArg _ h

theorem witness_WhdWritesTheHeader : codesA.phase = .codes ∧ FlowInv codesA := ⟨rfl, codesA_inv.2⟩

/-- Every header position at which a clause begins or ends, the last (514) too, with a byte that is taken and one that is
not. -/
theorem witness_RhbReadsOneHeaderByte :
    (State.reset.phase = .idle ∧ State.reset.hpos.toNat = 0)
      ∧ (({ hdrA4 with hpos := 1, hsize := 0x0100 } : State).hsize.toNat / 256 * 256 + (0x01 : Byte).toNat = 257)
      ∧ (({ hdrA4 with hpos := 1, hsize := 0x0100 } : State).hsize.toNat / 256 * 256 + (0x02 : Byte).toNat = 258)
      ∧ (({ hdrA4 with hpos := 2, hsize := 1 } : State).hpos.toNat = 2)
      ∧ (¬ (3 < ({ hdrA4 with hpos := 3 } : State).hpos.toNat ∧ (0x00 : Byte).toNat ≤ hdrA4.hprev.toNat))
      ∧ (3 < ({ hdrA4 with hpos := 5, hprev := 0x42 } : State).hpos.toNat ∧ (0x42 : Byte).toNat ≤ (0x42 : Byte).toNat)
      ∧ (hdrA4.phase = .hdr ∧ hdrA4.hpos.toNat = 4)
      ∧ (4 ≤ ({ hdrA4 with hpos := 514, hsize := 257 } : State).hpos.toNat
        ∧ ({ hdrA4 with hpos := 514, hsize := 257 } : State).hpos.toNat % 2 = 0 ∧ 514 + 1 = 3 + 2 * (257 - 1)) := by decide

theorem witness_HeaderRoundTrip : Inv codesA ∧ FlowInv codesA ∧ codesA.phase = .codes ∧ Inv idleA ∧ idleA.phase = .idle :=
  ⟨codesA_inv.1, codesA_inv.2, rfl, idleA_inv.1, rfl⟩

/-- Seven bits held, a byte with a codeword and one without. -/
theorem witness_PkbAppendsTheCodeword :
    ({ packA with acc := 0x7F, nacc := 7 } : State).phase = .pack ∧ AccHeld { packA with acc := 0x7F, nacc := 7 }
      ∧ tableGet packA.lent (0x41 : Byte).toNat ≠ 0 ∧ tableGet packA.lent (0x42 : Byte).toNat = 0 :=
  ⟨rfl, ⟨by decide, by decide⟩, by decide, by decide⟩

theorem witness_PkeAppendsEndAndFlushes : packA.phase = .pack ∧ AccHeld packA := ⟨rfl, packA_inv.1.acc⟩

theorem witness_PayloadIsTheCodewordsInOrder :
    codesA.phase = .codes ∧ ∀ b ∈ [(0x41 : Byte), 0x41], tableGet codesA.lent b.toNat ≠ 0 := by decide

/-- The deepest slot with a child, the longest walk, and a code of two symbols. -/
theorem witness_TrieSlotsInClosedForm :
    (2 ^ 255 - 2 : SlotIdx).toNat ≤ 2 ^ 255 - 2 ∧ (255 : Nat) ≤ Config.lmax ∧ CodesInRange decA.lent decA.code
      ∧ PrefixFree decA.lent decA.code ∧ Coded decA.lent 65 ∧ Coded decA.lent Config.endSym :=
  ⟨by decide +kernel, le_rfl, (decA_inv.2.codes (by decide)).2.1, (decA_inv.2.codes (by decide)).2.2.1,
    ⟨by decide, by decide⟩, ⟨by decide, by decide⟩⟩

theorem witness_TriStoresTheCodewords :
    dcodesA.phase = .dcodes ∧ CodesInRange dcodesA.lent dcodesA.code ∧ PrefixFree dcodesA.lent dcodesA.code :=
  ⟨rfl, (dcodesA_inv.2.codes (by decide)).2.1, (dcodesA_inv.2.codes (by decide)).2.2.1⟩

/-- At the start slot, and at depth `MAXLEN` where the next bit faults. -/
theorem witness_DcbWalksEightBits :
    (decA.phase = .dec ∧ decA.slot.toNat = pathSlot [] ∧ decA.depth.toNat = ([] : List Bool).length
        ∧ ([] : List Bool).length ≤ decA.maxlen.toNat)
      ∧ (({ decUnder with slot := 5, depth := 2 } : State).slot.toNat = pathSlot [true, false]
        ∧ ({ decUnder with slot := 5, depth := 2 } : State).depth.toNat = [true, false].length
        ∧ [true, false].length ≤ ({ decUnder with slot := 5, depth := 2 } : State).maxlen.toNat)
      ∧ decDoneA.phase = .decDone := by decide

theorem witness_DcbAfterEndChangesNothing : decDoneA.phase = .decDone := rfl

theorem witness_PayloadBytesAreOneWalk :
    decA.phase = .dec ∧ decA.slot.toNat = pathSlot [] ∧ decA.depth.toNat = ([] : List Bool).length
      ∧ ([] : List Bool).length ≤ decA.maxlen.toNat := by decide

/-- "A", then END, then six bits of anything: the byte `7F` with A=`0`, END=`1` (D3). -/
theorem witness_WalkRecognisesCodewords :
    decA.phase = .dec ∧ decA.slot = 0 ∧ decA.depth = 0
      ∧ streamBits [0x7F] = ([(0x41 : Byte)].flatMap fun b => codewordOf decA.lent decA.code b.toNat)
          ++ codewordOf decA.lent decA.code Config.endSym ++ List.replicate 6 true
      ∧ MaxLenRight decA ∧ CodesInRange decA.lent decA.code ∧ PrefixFree decA.lent decA.code
      ∧ TrieHolds decA.lent decA.code decA.trie ∧ tableGet decA.lent Config.endSym ≠ 0
      ∧ ∀ b ∈ [(0x41 : Byte)], tableGet decA.lent b.toNat ≠ 0 :=
  ⟨rfl, rfl, rfl, by decide, decA_inv.1.maxlen, (decA_inv.2.codes (by decide)).2.1, (decA_inv.2.codes (by decide)).2.2.1,
    decA_inv.2.trieHeld rfl, by decide, by decide⟩

/-- A state that keeps every invariant and takes a step, for the eight statements that a step keeps one. -/
theorem witness_StepKeeps :
    ∃ s t, Inv s ∧ FlowInv s ∧ FaultLatch s ∧ CountsAgree s ∧ AccHeld s ∧ WalkHeld s ∧ TrieCanonical s ∧ TablesCanonical s
      ∧ step s = .next t ∧ t.phase = .decDone := by
  have h : Inv { decA with input := [.word 0x0A40] } := inv_of_checks (by decide +kernel)
  refine ⟨{ decA with input := [.word 0x0A40] }, issueWord 0x0A40 decA, h, flow_of_checks (by decide +kernel), h.latch,
    h.counts, h.acc, h.walk, h.trie, h.tables, rfl, by decide +kernel⟩

theorem witness_EncodeIsHeaderThenPayload : [(0x41 : Byte), 0x00].length ≤ 2 ^ Config.cntW - 2 := by decide

theorem witness_EncodeOfOneRepeatedByte : 1 ≤ 4 ∧ 4 ≤ 2 ^ Config.cntW - 2 := by decide

theorem witness_DecodeOfEncodeIsIdentity : ([] : List Byte).length ≤ 2 ^ Config.cntW - 2 := by decide

/-- The code of "A" and another prefix-free one on the same symbols. -/
theorem witness_LengthsAreOptimal :
    Inv countA ∧ countA.phase = .count
      ∧ ∃ cw : Nat → List Bool, (∀ x, IsLeafSymbol countA x → cw x ≠ [])
        ∧ ∀ x y, IsLeafSymbol countA x → IsLeafSymbol countA y → x ≠ y → ¬ cw x <+: cw y := by
  refine ⟨countA_inv.1, rfl, fun x => if x = 65 then [false] else [true, true], fun x _ => by dsimp only; split <;> simp,
    fun x y hx hy hne => ?_⟩
  have hx' := treeA_leaf.1 hx
  have hy' := treeA_leaf.1 hy
  rcases hx' with rfl | rfl <;> rcases hy' with rfl | rfl
  · exact absurd rfl hne
  · decide
  · decide
  · exact absurd rfl hne

end Sys2Proof.Tests
end

section
/-! SUPPORT. Which state a step answers, by the input it takes (R41, R80, R210). -/

namespace Sys2Proof.Machine

/-- R210: a reset event is taken as one input. -/
theorem step_of_rst {s : State} {rest : List Input} (h : s.input = .rst :: rest) :
    step s = .next (resetBlock { s with input := rest }) := by
  simp only [step, takeInput, h]

/-- R41: the word is taken before it is executed. -/
theorem step_of_word {s : State} {w : Word} {rest : List Input} (h : s.input = .word w :: rest) :
    step s = executeWord w { s with input := rest } := by
  simp only [step, takeInput, h]

theorem executeWord_of_ok {w : Word} {i : Instr} (h : decodeWord w = .ok i) (s : State) :
    executeWord w s = exec i s := by
  simp only [executeWord, h]

/-- R83: `CLR` is legal in every phase. -/
@[simp] theorem legal_clr (p : Phase) : legal .clr p = true := by cases p <;> rfl

theorem exec_clr (s : State) : exec .clr s = .next (clear s) := by
  rw [exec_eq, sequenced_of_legal (legal_clr s.phase)]; rfl

/-- R59: the word of `CLR`. -/
theorem decodeWord_clr : decodeWord 0x0000 = .ok .clr := rfl

theorem step_of_clr_word {s : State} {rest : List Input} (h : s.input = .word 0x0000 :: rest) :
    step s = .next (clear { s with input := rest }) := by
  rw [step_of_word h, executeWord_of_ok decodeWord_clr, exec_clr]

end Sys2Proof.Machine
end

section
/-! SUPPORT. What `clear` leaves (R31, R83), and with it a reset: the clearing of a block that has emitted nothing (R211). -/

namespace Sys2Proof.Machine

open Sys2Proof.Safety

/-- R211: a reset is `CLR` on an empty `OUT`. -/
theorem resetBlock_eq_clear (s : State) : resetBlock s = clear { s with out := [] } := rfl

theorem clear_scalarsZero (s : State) : ScalarsZero (clear s) := by simp [ScalarsZero]

theorem clear_tablesZero (s : State) : TablesZero (clear s) := by simp [TablesZero]

theorem resetBlock_scalarsZero (s : State) : ScalarsZero (resetBlock s) :=
  resetBlock_eq_clear s ▸ clear_scalarsZero _

theorem resetBlock_tablesZero (s : State) : TablesZero (resetBlock s) :=
  resetBlock_eq_clear s ▸ clear_tablesZero _

end Sys2Proof.Machine
end

section
/-! SUPPORT. What the host reads (R15): the two halves of `STATUS`, and the three outputs as functions of `PHASE`. -/

namespace Sys2Proof.Machine

/-- `STATUS` as a number: `ERR` above the four bits of `PHASE`. -/
theorem status_toNat (s : State) : s.status.toNat = 16 * s.err.code.toNat + s.phase.code.toNat := by
  rw [State.status, BitVec.toNat_append, ← Nat.shiftLeft_add_eq_or_of_lt s.phase.code.isLt, Nat.shiftLeft_eq]
  omega

/-- `STATUS[3:0]`. -/
theorem status_toNat_mod (s : State) : s.status.toNat % 16 = s.phase.code.toNat := by
  rw [status_toNat, Nat.mul_add_mod, Nat.mod_eq_of_lt s.phase.code.isLt]

/-- `STATUS[7:4]`. -/
theorem status_toNat_div (s : State) : s.status.toNat / 16 = s.err.code.toNat := by
  have := s.phase.code.isLt
  rw [status_toNat]; omega

theorem faultOut_iff (s : State) : s.faultOut = true ↔ s.phase = .fault := by simp [State.faultOut]

theorem doneOut_iff (s : State) : s.doneOut = true ↔ s.phase = .encDone ∨ s.phase = .decDone := by
  simp [State.doneOut]

theorem hdrDoneOut_iff (s : State) : s.hdrDoneOut = true ↔ s.phase = .hdrDone := by simp [State.hdrDoneOut]

/-- R15: no phase raises two of the outputs. -/
theorem outputs_at_most_one (s : State) : s.faultOut.toNat + s.doneOut.toNat + s.hdrDoneOut.toNat ≤ 1 := by
  simp only [State.faultOut, State.doneOut, State.hdrDoneOut]
  cases s.phase <;> decide

theorem outputs_low_of_idle {s : State} (h : s.phase = .idle) :
    s.faultOut = false ∧ s.doneOut = false ∧ s.hdrDoneOut = false := by
  simp [State.faultOut, State.doneOut, State.hdrDoneOut, h]

end Sys2Proof.Machine
end

section
/-! The statements of 10_state.md on reset and on `STATUS`, settled. -/

namespace Sys2Proof.Proofs

open Sys2Proof.Machine

/-- Settles O7: a reset event steps to `resetBlock` and the word of `CLR` to `clear`, both with the input taken. -/
theorem resetClearsEverything : Obligations.ResetClearsEverything := by
  refine ⟨fun s rest h => ?_, fun s rest h => ?_⟩
  · obtain ⟨hfault, hdone, hhdr⟩ := outputs_low_of_idle (resetBlock_phase { s with input := rest })
    exact ⟨_, step_of_rst h, resetBlock_scalarsZero _, resetBlock_tablesZero _, resetBlock_out _, resetBlock_input _,
      hfault, hdone, hhdr, rfl⟩
  · exact ⟨_, step_of_clr_word h, clear_scalarsZero _, clear_tablesZero _, clear_out _, clear_input _⟩

/-- Settles O9: each half of `STATUS` is its register's code, and the codes of R12 and R185 are checked one by one. -/
theorem statusShowsPhaseAndErr : Obligations.StatusShowsPhaseAndErr := by
  intro s
  refine ⟨?phaseCodes, ?errCodes, status_toNat_mod s, status_toNat_div s, rfl, faultOut_iff s, doneOut_iff s,
    hdrDoneOut_iff s, outputs_at_most_one s⟩
  case phaseCodes =>
    rw [status_toNat_mod]
    cases s.phase <;> rfl
  case errCodes =>
    rw [status_toNat_div]
    cases s.err <;> rfl

end Sys2Proof.Proofs
end

section
/-! SUPPORT. The opcode map as the table of the commands (R57, R59): which commands take an operand byte, the decoder as the
inverse of the encoder, and the row a word selects. -/

namespace Sys2Proof

open Sys2Proof.Laws

/-- The opcodes of the eight commands without operand (R59, R60). -/
def plainOpcodes : List Nat := [0x00, 0x02, 0x03, 0x04, 0x05, 0x07, 0x09, 0x0B]

/-- R57, R59: a command takes every operand byte, or it has none, and its mask and its opcode say which. -/
theorem operand_or_plain (i : Instr) :
    (EncodeRow.maskOf i = 0xFF00 ∧ i.op.toNat ∉ plainOpcodes
        ∧ ∀ b, ∃ j : Instr, j.op = i.op ∧ j.arg = b ∧ EncodeRow.maskOf j = 0xFF00)
      ∨ (EncodeRow.maskOf i = 0xFFFF ∧ i.op.toNat ∈ plainOpcodes ∧ i.arg = 0) := by
  cases i with
  | cnt _ => exact Or.inl ⟨rfl, by simp [Instr.op, plainOpcodes], fun b => ⟨.cnt b, rfl, rfl, rfl⟩⟩
  | pkb _ => exact Or.inl ⟨rfl, by simp [Instr.op, plainOpcodes], fun b => ⟨.pkb b, rfl, rfl, rfl⟩⟩
  | rhb _ => exact Or.inl ⟨rfl, by simp [Instr.op, plainOpcodes], fun b => ⟨.rhb b, rfl, rfl, rfl⟩⟩
  | dcb _ => exact Or.inl ⟨rfl, by simp [Instr.op, plainOpcodes], fun b => ⟨.dcb b, rfl, rfl, rfl⟩⟩
  | clr | bld | len | asg | whd | pke | tri | eoi => exact Or.inr ⟨rfl, by decide, rfl⟩

/-- R59: the twelve opcodes are 0x00 to 0x0B. -/
theorem op_toNat_lt (i : Instr) : i.op.toNat < 0x0C := by cases i <;> simp [Instr.op]

/-! ### The decoder and the encoder -/

@[simp] theorem opField_encodeWord (i : Instr) : opField (encodeWord i) = i.op := opField_append _ _

@[simp] theorem argField_encodeWord (i : Instr) : argField (encodeWord i) = i.arg := argField_append _ _

theorem encodeWord_eq_iff {i : Instr} {w : Word} : encodeWord i = w ↔ i.op = opField w ∧ i.arg = argField w := by
  constructor
  · rintro rfl
    simp
  · rintro ⟨hop, harg⟩
    rw [encodeWord, hop, harg, append_fields]

theorem decodeWord_encodeWord (i : Instr) : decodeWord (encodeWord i) = .ok i := by
  unfold decodeWord
  rw [opField_encodeWord, argField_encodeWord]
  cases i <;> rfl

/-- R59: a word decodes to the command whose word it is, and to no other. -/
theorem decodeWord_eq_ok_iff {w : Word} {i : Instr} : decodeWord w = .ok i ↔ encodeWord i = w := by
  constructor
  · intro h
    rcases decodeWord_cases w with ⟨j, hj, hop, harg⟩ | ⟨_, he, -⟩ | ⟨he, -⟩
    · obtain rfl : j = i := Except.ok.inj (hj.symm.trans h)
      exact encodeWord_eq_iff.2 ⟨hop, harg⟩
    · exact nomatch he.symm.trans h
    · exact nomatch he.symm.trans h
  · rintro rfl
    exact decodeWord_encodeWord i

/-! ### The rows of the opcode map -/

/-- The row of R59 for a command: its mask, and `op << 8`. -/
def Instr.row (i : Instr) : OpcodeRow := ⟨EncodeRow.maskOf i, i.op ++ (0 : Byte)⟩

theorem encodeRow_statement (i : Instr) : EncodeRow.Statement i := by
  cases i with
  | clr => exact EncodeRow.clr
  | cnt b => exact EncodeRow.cnt b
  | bld => exact EncodeRow.bld
  | len => exact EncodeRow.len
  | asg => exact EncodeRow.asg
  | whd => exact EncodeRow.whd
  | pkb b => exact EncodeRow.pkb b
  | pke => exact EncodeRow.pke
  | rhb b => exact EncodeRow.rhb b
  | tri => exact EncodeRow.tri
  | dcb b => exact EncodeRow.dcb b
  | eoi => exact EncodeRow.eoi

theorem row_mem (i : Instr) : i.row ∈ opcodeRows := (encodeRow_statement i).1

theorem row_selects_encodeWord (i : Instr) : i.row.selects (encodeWord i) = true := (encodeRow_statement i).2

/-- R59: the opcode map holds no row but the commands'. -/
theorem eq_row_of_mem {r : OpcodeRow} (h : r ∈ opcodeRows) : ∃ i : Instr, r = i.row := by
  simp only [opcodeRows, operandRows, plainRows, List.cons_append, List.nil_append, List.mem_cons, List.not_mem_nil,
    or_false] at h
  rcases h with rfl | rfl | rfl | rfl | rfl | rfl | rfl | rfl | rfl | rfl | rfl | rfl
  exacts [⟨.cnt 0, rfl⟩, ⟨.pkb 0, rfl⟩, ⟨.rhb 0, rfl⟩, ⟨.dcb 0, rfl⟩, ⟨.clr, rfl⟩, ⟨.bld, rfl⟩, ⟨.len, rfl⟩, ⟨.asg, rfl⟩,
    ⟨.whd, rfl⟩, ⟨.pke, rfl⟩, ⟨.tri, rfl⟩, ⟨.eoi, rfl⟩]

/-- With the mask 0xFF00 a row selects by the opcode alone. -/
theorem opField_eq_of_masked {w : Word} {op : Byte} (h : w &&& 0xFF00 = op ++ (0 : Byte)) : opField w = op := by
  rw [← append_fields w, EncodeRow.mask_operand] at h
  simpa using congrArg opField h

/-- A command's row selects no word but that command's, whatever its operand. -/
theorem exists_command_of_row_selects {i : Instr} {w : Word} (h : i.row.selects w = true) :
    ∃ j : Instr, encodeWord j = w ∧ j.row = i.row := by
  have hsel : w &&& EncodeRow.maskOf i = i.op ++ (0 : Byte) := beq_iff_eq.1 h
  rcases operand_or_plain i with ⟨hmask, -, hany⟩ | ⟨hmask, -, harg⟩ <;> rw [hmask] at hsel
  · obtain ⟨j, hop, harg, hmask'⟩ := hany (argField w)
    refine ⟨j, encodeWord_eq_iff.2 ⟨hop.trans (opField_eq_of_masked hsel).symm, harg⟩, ?_⟩
    rw [Instr.row, Instr.row, hmask, hmask', hop]
  · refine ⟨i, ?_, rfl⟩
    rw [encodeWord, harg, ← hsel]
    exact BitVec.and_allOnes

/-- R59: a row selects a word exactly when it is the row of the word's own command. -/
theorem mem_and_selects_iff {r : OpcodeRow} {w : Word} :
    (r ∈ opcodeRows ∧ r.selects w = true) ↔ ∃ i, decodeWord w = .ok i ∧ r = i.row := by
  constructor
  · rintro ⟨hr, hsel⟩
    obtain ⟨i, rfl⟩ := eq_row_of_mem hr
    obtain ⟨j, hj, hrow⟩ := exists_command_of_row_selects hsel
    exact ⟨j, decodeWord_eq_ok_iff.2 hj, hrow.symm⟩
  · rintro ⟨i, hi, rfl⟩
    obtain rfl := decodeWord_eq_ok_iff.1 hi
    exact ⟨row_mem i, row_selects_encodeWord i⟩

theorem commandWordWf_iff {w : Word} : commandWordWf w = true ↔ ∃ i, decodeWord w = .ok i := by
  rw [commandWordWf, List.any_eq_true]
  constructor
  · rintro ⟨r, hr⟩
    obtain ⟨i, hi, -⟩ := mem_and_selects_iff.1 hr
    exact ⟨i, hi⟩
  · rintro ⟨i, hi⟩
    exact ⟨i.row, mem_and_selects_iff.2 ⟨i, hi, rfl⟩⟩

/-! ### The reserved words -/

/-- R60: the two kinds of reserved word. -/
theorem reserved_iff {w : Word} :
    (∀ i, decodeWord w ≠ .ok i)
      ↔ 0x0C ≤ (opField w).toNat ∨ ((opField w).toNat ∈ plainOpcodes ∧ argField w ≠ 0) := by
  constructor
  · intro hno
    rcases decodeWord_cases w with ⟨i, hi, -⟩ | ⟨i, -, hop, harg⟩ | ⟨-, hop⟩
    · exact absurd hi (hno i)
    · rcases operand_or_plain i with ⟨-, -, hany⟩ | ⟨-, hplain, -⟩
      · obtain ⟨j, hop', harg', -⟩ := hany (argField w)
        exact absurd (decodeWord_eq_ok_iff.2 (encodeWord_eq_iff.2 ⟨hop'.trans hop, harg'⟩)) (hno j)
      · exact Or.inr ⟨hop ▸ hplain, harg⟩
    · exact Or.inl hop
  · intro hres i hi
    obtain ⟨hop, harg⟩ := encodeWord_eq_iff.1 (decodeWord_eq_ok_iff.1 hi)
    rw [← hop, ← harg] at hres
    rcases hres with hge | ⟨hmem, hne⟩
    · exact absurd (op_toNat_lt i) (Nat.not_lt.2 hge)
    · rcases operand_or_plain i with ⟨-, hnot, -⟩ | ⟨-, -, hzero⟩
      · exact hnot hmem
      · exact hne hzero

end Sys2Proof
end

section
/-! SUPPORT. What executing a reserved word does (R60, R80, R193). -/

namespace Sys2Proof.Machine

theorem executeWord_of_reserved {w : Word} (h : ∀ i, decodeWord w ≠ .ok i) (s : State) :
    executeWord w s = .next (reservedWord w s) := by
  unfold executeWord
  split
  next i hi => exact absurd hi (h i)
  next => rfl

/-- R193: FAULT discards it. -/
theorem reservedWord_of_fault {w : Word} {s : State} (h : s.phase = .fault) : reservedWord w s = s := if_pos h

theorem reservedWord_of_not_fault {w : Word} {s : State} (h : s.phase ≠ .fault) :
    reservedWord w s = raise .badOpcode w s := if_neg h

end Sys2Proof.Machine
end

section
/-! The statements of 30_encoding.md on the opcode map and on its reserved words, settled. -/

namespace Sys2Proof.Proofs

open Sys2Proof.Machine

/-- Settles O2: the rows that select a word are those of its command, of which there is at most one. -/
theorem decodeFollowsOpcodeMap : Obligations.DecodeFollowsOpcodeMap := by
  refine ⟨fun b => ⟨rfl, rfl, rfl, rfl, rfl, rfl, rfl, rfl, rfl, rfl, rfl, rfl⟩, fun w => ⟨commandWordWf_iff, ?once, ?own⟩⟩
  case once =>
    intro r hr r' hr' hsel hsel'
    obtain ⟨i, hi, rfl⟩ := mem_and_selects_iff.1 ⟨hr, hsel⟩
    obtain ⟨j, hj, rfl⟩ := mem_and_selects_iff.1 ⟨hr', hsel'⟩
    rw [Except.ok.inj (hi.symm.trans hj)]
  case own =>
    intro i hi
    obtain ⟨hmem, hsel⟩ := mem_and_selects_iff.2 ⟨i, hi, rfl⟩
    exact ⟨i.row, hmem, hsel, rfl⟩

/-- Settles O4: the two kinds of reserved word are read off its fields, and a step executes one by `reservedWord`. -/
theorem reservedWordsRaiseBadOpcode : Obligations.ReservedWordsRaiseBadOpcode := by
  intro w
  refine ⟨?words, fun s rest hin hres => ⟨reservedWord w { s with input := rest }, ?steps, ?discarded, ?raised⟩⟩
  case words =>
    rw [reserved_iff, opField_toNat, ← argField_toNat, Ne, ← BitVec.toNat_inj]
    rfl
  case steps => rw [step_of_word hin, executeWord_of_reserved hres]
  case discarded => exact fun hf => reservedWord_of_fault hf
  case raised => exact fun hf => reservedWord_of_not_fault hf

end Sys2Proof.Proofs
end

section
/-! SUPPORT. What a command does, by the legality table (R80, R81, R193): its own rule, `BadSequence`, or nothing. -/

namespace Sys2Proof.Machine

theorem exec_of_legal {i : Instr} {s : State} (h : legal i s.phase = true) : exec i s = .next (bodyOf i s) := by
  rw [exec_eq, sequenced_of_legal h]

theorem exec_of_illegal {i : Instr} {s : State} (h : legal i s.phase = false) (hf : s.phase ≠ .fault) :
    exec i s = .next (raise .badSequence (encodeWord i) s) := by
  rw [exec_eq, sequenced, if_neg (Bool.eq_false_iff.1 h), if_neg hf]

/-- R81: the column of FAULT is blank but for `CLR`. -/
theorem legal_fault {i : Instr} (h : i ≠ .clr) : legal i .fault = false := by
  cases i with
  | clr => exact absurd rfl h
  | cnt | bld | len | asg | whd | pkb | pke | rhb | tri | dcb | eoi => rfl

/-- R193: FAULT discards every command but `CLR`. -/
theorem exec_of_fault {i : Instr} {s : State} (hi : i ≠ .clr) (hf : s.phase = .fault) : exec i s = .next s := by
  have hl : legal i s.phase = false := hf ▸ legal_fault hi
  rw [exec_eq, sequenced, if_neg (Bool.eq_false_iff.1 hl), if_pos hf]

end Sys2Proof.Machine
end

section
/-! SUPPORT. How the rule of each command ends: in the phase of its row of R81, or with the fault it raises (R186). -/

namespace Sys2Proof.Machine

theorem cntBody_outcome (b : Byte) (s : State) :
    cntBody b s = raise .countOverflow (encodeWord (.cnt b)) s ∨ (cntBody b s).phase = .count := by
  unfold cntBody
  split
  · exact Or.inl rfl
  · exact Or.inr rfl

/-- R106: this hardware takes zero-byte input, so its `BLD` always completes. -/
theorem bldBody_phase (s : State) : (bldBody Config.emptyReject s).phase = .tree := by
  unfold bldBody
  split <;> rfl

theorem lenBody_outcome (s : State) :
    lenBody s = raise .lengthOverflow (encodeWord .len) s ∨ (lenBody s).phase = .lens := by
  unfold lenBody
  split
  · exact Or.inl rfl
  · exact Or.inr rfl

theorem asgBody_outcome (s : State) :
    asgBody s = raise .corruptHeader (encodeWord .asg) s
      ∨ (asgBody s).phase = if s.phase = .lens then .codes else .dcodes := by
  unfold asgBody
  split
  · exact Or.inl rfl
  · exact Or.inr rfl

theorem pkbBody_outcome (b : Byte) (s : State) :
    pkbBody b s = raise .noCode (encodeWord (.pkb b)) s ∨ (pkbBody b s).phase = .pack := by
  unfold pkbBody
  split
  · exact Or.inl rfl
  · exact Or.inr rfl

/-- R127: the byte at position 0 opens the header; a later one leaves the phase or completes the header. -/
theorem rhbBody_outcome (b : Byte) (s : State) :
    rhbBody b s = raise .corruptHeader (encodeWord (.rhb b)) s
      ∨ (s.hpos.toNat = 0 ∧ (rhbBody b s).phase = .hdr)
      ∨ (s.hpos.toNat ≠ 0 ∧ ((rhbBody b s).phase = s.phase ∨ (rhbBody b s).phase = .hdrDone)) := by
  rcases rhbBody_cases b s with ⟨h, e⟩ | ⟨h, e⟩ | ⟨h, e⟩ | ⟨h, -, e⟩ | ⟨h, -, e⟩ <;> rw [e]
  · exact Or.inr (Or.inl ⟨h, rfl⟩)
  · unfold rhbSizeLow
    split
    · exact Or.inl rfl
    · exact Or.inr (Or.inr ⟨by omega, Or.inl rfl⟩)
  · unfold rhbEndLength
    split
    · exact Or.inl rfl
    · exact Or.inr (Or.inr ⟨by omega, (ite_eq_or_eq ..).symm⟩)
  · unfold rhbSymbol
    split
    · exact Or.inl rfl
    · exact Or.inr (Or.inr ⟨by omega, Or.inl rfl⟩)
  · unfold rhbLength
    split
    · exact Or.inl rfl
    · exact Or.inr (Or.inr ⟨by omega, (ite_eq_or_eq ..).symm⟩)

theorem dcbBody_of_decDone (b : Byte) {s : State} (h : s.phase = .decDone) : dcbBody b s = s := if_pos h

theorem dcbBody_of_dec (b : Byte) {s : State} (h : s.phase = .dec) :
    dcbBody b s = walkBits (encodeWord (.dcb b)) b 8 s := if_neg (by rw [h]; decide)

theorem eoiBody_of_hdr {s : State} (h : s.phase = .hdr) : eoiBody s = raise .corruptHeader (encodeWord .eoi) s := by
  simp only [eoiBody, h]

theorem eoiBody_of_truncated {s : State} (h : s.phase = .hdrDone ∨ s.phase = .dcodes ∨ s.phase = .dec) :
    eoiBody s = raise .corruptStream (encodeWord .eoi) s := by
  rcases h with h | h | h <;> simp only [eoiBody, h]

theorem eoiBody_of_decDone {s : State} (h : s.phase = .decDone) : eoiBody s = s := by
  simp only [eoiBody, h]

end Sys2Proof.Machine
end

section
/-! SUPPORT. The legality table as a graph of phases (R81): its filled cells, and that every command keeps to them. -/

namespace Sys2Proof.Machine

open Sys2Proof.Safety

/-- The table of R81, cell by cell: a command is legal where it has a phase to go to, and `EOI` also where it can only
fault. -/
theorem legal_iff_filled (i : Instr) (p : Phase) :
    legal i p = true
      ↔ nextPhases i p ≠ [] ∨ (i = .eoi ∧ p ∈ [Phase.hdr, Phase.hdrDone, Phase.dcodes, Phase.dec]) := by
  have cell : legal i p
      = decide (nextPhases i p ≠ [] ∨ (i = .eoi ∧ p ∈ [Phase.hdr, Phase.hdrDone, Phase.dcodes, Phase.dec])) := by
    cases i <;> cases p <;> rfl
  rw [cell, decide_eq_true_iff]

/-- From `s` the command ends in a phase of its cell of R81, or in FAULT with a fault of its own (R186). -/
def FollowsTable (i : Instr) (s t : State) : Prop :=
  t.phase ∈ nextPhases i s.phase ∨ (t.phase = .fault ∧ t.err ∈ ownFaults i s.phase ∧ t.errcmd = encodeWord i)

theorem followsTable_of_phase {i : Instr} {s t : State} {p : Phase} (ht : t.phase = p) (hp : p ∈ nextPhases i s.phase) :
    FollowsTable i s t := Or.inl (ht ▸ hp)

theorem followsTable_of_raise {i : Instr} {s t : State} {f : Err} (ht : t = raise f (encodeWord i) s)
    (hf : f ∈ ownFaults i s.phase) : FollowsTable i s t := by
  subst ht
  exact Or.inr ⟨rfl, hf, rfl⟩

theorem followsTable_of_outcome {i : Instr} {s t : State} {f : Err} {p : Phase}
    (ht : t = raise f (encodeWord i) s ∨ t.phase = p) (hf : f ∈ ownFaults i s.phase) (hp : p ∈ nextPhases i s.phase) :
    FollowsTable i s t :=
  ht.elim (fun h => followsTable_of_raise h hf) (fun h => followsTable_of_phase h hp)

/-- R12, R23: in IDLE the header cursor is 0, so the first `RHB` takes byte 0 of the header and opens HDR. -/
theorem rhbBody_followsTable (b : Byte) {s : State} (hinv : Inv s) (hp : s.phase = .idle ∨ s.phase = .hdr) :
    FollowsTable (.rhb b) s (rhbBody b s) := by
  rcases rhbBody_outcome b s with h | ⟨-, h⟩ | ⟨hpos, h⟩
  · exact followsTable_of_raise h (List.mem_singleton.2 rfl)
  · exact followsTable_of_phase h (by rcases hp with hp | hp <;> simp [hp, nextPhases])
  · rcases hp with hp | hp
    · have hzero : s.hpos = 0 := by rw [hinv.fresh.idle hp]; rfl
      exact absurd (by rw [hzero]; rfl) hpos
    · rcases h with h | h <;> exact followsTable_of_phase h (by simp [hp, nextPhases])

theorem dcbBody_followsTable (b : Byte) {s : State} (hp : s.phase = .dec ∨ s.phase = .decDone) :
    FollowsTable (.dcb b) s (dcbBody b s) := by
  rcases hp with hp | hp
  · rw [dcbBody_of_dec b hp]
    rcases walkBits_phase (encodeWord (.dcb b)) b 8 s with ⟨h | h, -, -⟩ | ⟨hfault, herr, hcmd⟩
    · exact followsTable_of_phase h (by simp [hp, nextPhases])
    · exact followsTable_of_phase h (by simp [hp, nextPhases])
    · exact Or.inr ⟨hfault, by simp [hp, herr, ownFaults], hcmd⟩
  · exact followsTable_of_phase (by rw [dcbBody_of_decDone b hp, hp]) (by simp [hp, nextPhases])

theorem eoiBody_followsTable {s : State}
    (hp : s.phase = .hdr ∨ (s.phase = .hdrDone ∨ s.phase = .dcodes ∨ s.phase = .dec) ∨ s.phase = .decDone) :
    FollowsTable .eoi s (eoiBody s) := by
  rcases hp with hp | hp | hp
  · exact followsTable_of_raise (eoiBody_of_hdr hp) (by simp [hp, ownFaults])
  · exact followsTable_of_raise (eoiBody_of_truncated hp) (by rcases hp with hp | hp | hp <;> simp [hp, ownFaults])
  · exact followsTable_of_phase (by rw [eoiBody_of_decDone hp, hp]) (by simp [hp, nextPhases])

/-- R81, R186: where a command is legal, its rule keeps to the table. -/
theorem bodyOf_followsTable {i : Instr} {s : State} (hinv : Inv s) (hl : legal i s.phase = true) :
    FollowsTable i s (bodyOf i s) := by
  have hmem : s.phase ∈ legalPhases i := of_decide_eq_true hl
  cases i with
  | clr => exact followsTable_of_phase (clear_phase s) (by simp [nextPhases])
  | cnt b =>
    have hp : s.phase = .idle ∨ s.phase = .count := by simpa [legalPhases] using hmem
    exact followsTable_of_outcome (cntBody_outcome b s) (by simp [ownFaults])
      (by rcases hp with hp | hp <;> simp [hp, nextPhases])
  | bld =>
    have hp : s.phase = .idle ∨ s.phase = .count := by simpa [legalPhases] using hmem
    exact followsTable_of_phase (bldBody_phase s) (by rcases hp with hp | hp <;> simp [hp, nextPhases])
  | len =>
    have hp : s.phase = .tree := by simpa [legalPhases] using hmem
    exact followsTable_of_outcome (lenBody_outcome s) (by simp [ownFaults]) (by simp [hp, nextPhases])
  | asg =>
    have hp : s.phase = .lens ∨ s.phase = .hdrDone := by simpa [legalPhases] using hmem
    exact followsTable_of_outcome (asgBody_outcome s) (by simp [ownFaults])
      (by rcases hp with hp | hp <;> simp [hp, nextPhases])
  | whd =>
    have hp : s.phase = .codes := by simpa [legalPhases] using hmem
    exact followsTable_of_phase (p := .pack) rfl (by simp [hp, nextPhases])
  | pkb b =>
    have hp : s.phase = .pack := by simpa [legalPhases] using hmem
    exact followsTable_of_outcome (pkbBody_outcome b s) (by simp [ownFaults]) (by simp [hp, nextPhases])
  | pke =>
    have hp : s.phase = .pack := by simpa [legalPhases] using hmem
    exact followsTable_of_phase (p := .encDone) rfl (by simp [hp, nextPhases])
  | rhb b => exact rhbBody_followsTable b hinv (by simpa [legalPhases] using hmem)
  | tri =>
    have hp : s.phase = .dcodes := by simpa [legalPhases] using hmem
    exact followsTable_of_phase (p := .dec) rfl (by simp [hp, nextPhases])
  | dcb b => exact dcbBody_followsTable b (by simpa [legalPhases] using hmem)
  | eoi => exact eoiBody_followsTable (by simpa [legalPhases, or_assoc] using hmem)

/-- R12: in IDLE `CLR` finds nothing to clear. -/
theorem clear_of_idle {s : State} (hinv : Inv s) (hp : s.phase = .idle) : clear s = s := (hinv.fresh.idle hp).symm

end Sys2Proof.Machine
end

section
/-! The statements of 40_sequencer.md on the legality table, on `CLR` and on `EOI`, settled. -/

namespace Sys2Proof.Proofs

open Sys2Proof.Machine

/-- Settles O10: FAULT discards, a blank cell raises `BadSequence`, and in a filled cell each command's rule keeps to the
table. -/
theorem phasesFollowTheTable : Obligations.PhasesFollowTheTable := by
  refine ⟨?inFault, fun i s hinv hf => ⟨legal_iff_filled i s.phase, ?outside⟩⟩
  case inFault =>
    intro i s hf
    by_cases hi : i = .clr
    · subst hi
      exact ⟨_, exec_clr s, fun _ => clear_phase s, fun h => absurd rfl h⟩
    · exact ⟨s, exec_of_fault hi hf, fun h => absurd h hi, fun _ => rfl⟩
  case outside =>
    cases hl : legal i s.phase with
    | true => exact ⟨_, exec_of_legal hl, nofun, fun _ => bodyOf_followsTable hinv hl⟩
    | false => exact ⟨_, exec_of_illegal hl hf, fun _ => rfl, nofun⟩

/-- Settles O17: `CLR` executes as `clear` in every phase, and FAULT discards every other command. -/
theorem clrClearsAllButOut : Obligations.ClrClearsAllButOut := by
  refine ⟨rfl, fun s => ⟨legal_clr s.phase, _, exec_clr s, clear_scalarsZero s, clear_tablesZero s, clear_out s,
    clear_input s, outputs_low_of_idle (clear_phase s)⟩, fun s hinv hp => ?idle, fun i s => exec_of_fault⟩
  case idle => rw [exec_clr, clear_of_idle hinv hp]

/-- Settles O18: where `EOI` is legal its rule answers by the phase; in IDLE it is out of sequence. -/
theorem eoiReportsTruncation : Obligations.EoiReportsTruncation := by
  refine ⟨rfl, fun s => ?_⟩
  have hexec : s.phase ∈ legalPhases .eoi → exec .eoi s = .next (eoiBody s) := fun h => exec_of_legal (decide_eq_true h)
  refine ⟨decide_eq_true_iff, ?hdr, ?truncated, ?decDone, ?idle⟩
  case hdr => exact fun h => ⟨_, hexec (by simp [h, legalPhases]), eoiBody_of_hdr h⟩
  case truncated =>
    exact fun h => ⟨_, hexec (by rcases h with h | h | h <;> simp [h, legalPhases]), eoiBody_of_truncated h⟩
  case decDone =>
    intro h
    rw [hexec (by simp [h, legalPhases]), eoiBody_of_decDone h]
  case idle => exact fun h => ⟨_, exec_of_illegal (h ▸ rfl) (by simp [h]), rfl⟩

end Sys2Proof.Proofs
end

section
/-! SUPPORT. Issuing a command is executing it, whatever else the host has presented (R41, R80). -/

namespace Sys2Proof.Machine

theorem issue_of_exec {i : Instr} {s t : State} (h : exec i s = .next t) : issue i s = t :=
  issueWord_of_execute ((executeWord_of_ok (decodeWord_encodeWord i) s).trans h)

end Sys2Proof.Machine
end

section
/-! SUPPORT. What `CNT` does (R95): where it is legal, the frequency table it leaves, its limit, and that no count wraps below
the limit. -/

namespace Sys2Proof.Machine

open Sys2Proof.Safety

/-- R81: the row of `CNT`. -/
theorem legal_cnt_iff {b : Byte} {p : Phase} : legal (.cnt b) p = true ↔ p = .idle ∨ p = .count := by
  simp [legal, legalPhases]

theorem eq_countLimit_iff {n : Count} : n = countLimit ↔ n.toNat = 2 ^ Config.cntW - 2 := BitVec.toNat_inj.symm

/-- Below the limit of R95 one more byte does not wrap a count. -/
theorem count_add_one_toNat {n : Count} (h : n.toNat < 2 ^ Config.cntW - 2) : (n + 1).toNat = n.toNat + 1 :=
  BitVec.toNat_add_of_lt (show n.toNat + 1 < 2 ^ Config.cntW by omega)

/-- One byte and then `k` more are `k + 1` bytes. -/
theorem count_add_one_add (n : Count) (k : Nat) :
    n + 1 + BitVec.ofNat Config.cntW k = n + BitVec.ofNat Config.cntW (k + 1) := by
  rw [BitVec.add_assoc, BitVec.add_comm 1, BitVec.ofNat_add]
  rfl

/-- R16: no byte value occurs more often than `NBYTES` says. -/
theorem freq_le_nbytes {s : State} (h : CountsAgree s) (b : Byte) :
    (tableGet s.freq b.toNat).toNat ≤ s.nbytes.toNat := by
  rw [h.total]
  exact List.le_sum_of_mem (List.mem_map_of_mem (mem_byteValues.2 b.isLt))

/-- `FREQ[b] <- FREQ[b] + 1` (R95). -/
def tally (freq : Table Config.cntW) (b : Byte) : Table Config.cntW :=
  tableSet freq b.toNat (tableGet freq b.toNat + 1)

@[simp] theorem tableGet_tally_self (freq : Table Config.cntW) (b : Byte) :
    tableGet (tally freq b) b.toNat = tableGet freq b.toNat + 1 := tableGet_tableSet_self ..

theorem tableGet_tally_ne (freq : Table Config.cntW) {b : Byte} {x : Nat} (h : x ≠ b.toNat) :
    tableGet (tally freq b) x = tableGet freq x := tableGet_tableSet_ne _ _ h

theorem tally_wf {freq : Table Config.cntW} (h : tableWf 0 Config.endSym freq = true) (b : Byte) :
    tableWf 0 Config.endSym (tally freq b) = true := tableSet_wf h (Nat.zero_le _) b.isLt _

theorem exec_cnt_of_ne_limit (b : Byte) {s : State} (hp : s.phase = .idle ∨ s.phase = .count)
    (h : s.nbytes.toNat ≠ 2 ^ Config.cntW - 2) :
    exec (.cnt b) s = .next { s with freq := tally s.freq b, nbytes := s.nbytes + 1, phase := .count } := by
  rw [exec_of_legal (legal_cnt_iff.2 hp), bodyOf, cntBody, if_neg (mt eq_countLimit_iff.1 h), operandIndex_eq, tally]

theorem exec_cnt_of_limit (b : Byte) {s : State} (hp : s.phase = .idle ∨ s.phase = .count)
    (h : s.nbytes.toNat = 2 ^ Config.cntW - 2) :
    exec (.cnt b) s = .next (raise .countOverflow (encodeWord (.cnt b)) s) := by
  rw [exec_of_legal (legal_cnt_iff.2 hp), bodyOf, cntBody, if_pos (eq_countLimit_iff.2 h)]

end Sys2Proof.Machine
end

section
/-! SUPPORT. What `CNT` of each byte of a sequence does (R96): the table after it holds, at every index, the number of places
with that byte value, so it is the same table for a permutation. -/

namespace Sys2Proof.Machine

open Sys2Proof.Safety

theorem tableGet_foldl_tally (S : List Byte) (freq : Table Config.cntW) (x : Nat) :
    tableGet (S.foldl tally freq) x = tableGet freq x + BitVec.ofNat Config.cntW ((S.map BitVec.toNat).count x) := by
  induction S generalizing freq with
  | nil => simp
  | cons b S ih =>
    rw [List.foldl_cons, ih, List.map_cons]
    by_cases hx : x = b.toNat
    · rw [hx, tableGet_tally_self, List.count_cons_self, count_add_one_add]
    · rw [tableGet_tally_ne _ hx, List.count_cons_of_ne (Ne.symm hx)]

theorem foldl_tally_wf (S : List Byte) {freq : Table Config.cntW} (h : tableWf 0 Config.endSym freq = true) :
    tableWf 0 Config.endSym (S.foldl tally freq) = true := by
  induction S generalizing freq with
  | nil => exact h
  | cons b S ih => exact ih (tally_wf h b)

/-- A canonical table is what it reads, and its reads after the sequence see only the number of occurrences. -/
theorem foldl_tally_perm {S S' : List Byte} (hperm : S.Perm S') {freq : Table Config.cntW}
    (h : tableWf 0 Config.endSym freq = true) : S'.foldl tally freq = S.foldl tally freq := by
  refine table_ext (foldl_tally_wf S' h) (foldl_tally_wf S h) fun x => ?_
  rw [tableGet_foldl_tally, tableGet_foldl_tally, (hperm.map BitVec.toNat).count_eq]

/-- R95, R96: below the limit `CNT` of each byte changes `FREQ`, `NBYTES` and `PHASE`, and nothing else. -/
theorem issueAll_cnt (S : List Byte) {s : State} (hp : s.phase = .idle ∨ s.phase = .count)
    (h : s.nbytes.toNat + S.length ≤ 2 ^ Config.cntW - 2) :
    issueAll (S.map .cnt) s
      = { s with
          freq := S.foldl tally s.freq
          nbytes := s.nbytes + BitVec.ofNat Config.cntW S.length
          phase := if S = [] then s.phase else .count } := by
  induction S generalizing s with
  | nil => simp
  | cons b S ih =>
    rw [List.length_cons] at h
    have hadd := count_add_one_toNat (n := s.nbytes) (by omega)
    rw [List.map_cons, issueAll_cons, issue_of_exec (exec_cnt_of_ne_limit b hp (by omega)),
      ih (Or.inr rfl) (by simp only [hadd]; omega)]
    simpa using count_add_one_add s.nbytes S.length

/-- R96: from IDLE, where nothing is counted (R12), the counts after the sequence are those of the sequence alone. -/
theorem issueAll_cnt_of_idle (S : List Byte) {s : State} (hinv : Inv s) (hp : s.phase = .idle)
    (hlen : S.length ≤ 2 ^ Config.cntW - 2) :
    issueAll (S.map .cnt) s
      = { s with
          freq := S.foldl tally []
          nbytes := BitVec.ofNat Config.cntW S.length
          phase := if S = [] then .idle else .count } := by
  have hfreq : s.freq = [] := by rw [hinv.fresh.idle hp]; rfl
  have hnbytes : s.nbytes = 0#Config.cntW := by rw [hinv.fresh.idle hp]; rfl
  rw [issueAll_cnt S (Or.inl hp) (by simpa [hnbytes] using hlen), hfreq, hnbytes, hp, BitVec.zero_add]

end Sys2Proof.Machine
end

section
/-! The statements of 41_frequency_counter.md, settled. -/

namespace Sys2Proof.Proofs

open Sys2Proof.Machine Sys2Proof.Safety

/-- Settles O20: in IDLE nothing is counted, so the table after the sequence holds its numbers of occurrences. -/
theorem cntSequenceCountsOccurrences : Obligations.CntSequenceCountsOccurrences := by
  intro S s hinv hp hlen
  have hfits : ∀ n, n ≤ S.length → (BitVec.ofNat Config.cntW n).toNat = n := fun n hn =>
    Nat.mod_eq_of_lt (hn.trans_lt (hlen.trans_lt (by decide)))
  rw [issueAll_cnt_of_idle S hinv hp hlen]
  refine ⟨fun b => ?occurrences, hfits _ le_rfl, rfl, fun S' hperm => ?permutation⟩
  case occurrences =>
    rw [tableGet_foldl_tally, tableGet_nil, List.count_map_of_injective _ _ BitVec.toNat_injective]
    exact (congrArg _ (BitVec.zero_add _)).trans (hfits _ List.count_le_length)
  case permutation =>
    have hnil : S' = [] ↔ S = [] := ⟨fun h => (h ▸ hperm).eq_nil, fun h => (h ▸ hperm).symm.eq_nil⟩
    rw [issueAll_cnt_of_idle S' hinv hp (hperm.length_eq ▸ hlen), foldl_tally_perm hperm (tableWf_nil ..),
      ← hperm.length_eq]
    simp only [hnil]

/-- Settles O19: the rule of `CNT` on either side of its limit, and R16 for the addition to `FREQ[b]`. -/
theorem cntCountsOneByte : Obligations.CntCountsOneByte := by
  refine fun b s => ⟨rfl, legal_cnt_iff, ?counts, fun hp h => ⟨_, exec_cnt_of_limit b hp h, rfl⟩⟩
  case counts =>
    intro hp h
    refine ⟨_, exec_cnt_of_ne_limit b hp h, tableGet_tally_self _ b, fun x => tableGet_tally_ne _, rfl, rfl, fun hc => ?nowrap,
      ⟨rfl, rfl⟩, ⟨rfl, rfl, rfl, rfl, rfl⟩, ⟨rfl, rfl⟩, rfl, ⟨rfl, rfl, rfl, rfl⟩, ⟨rfl, rfl⟩, rfl, ⟨rfl, rfl⟩, rfl, rfl⟩
    case nowrap =>
      have hlt : s.nbytes.toNat < 2 ^ Config.cntW - 2 := lt_of_le_of_ne hc.bounded h
      exact ⟨(congrArg _ (tableGet_tally_self _ b)).trans (count_add_one_toNat ((freq_le_nbytes hc b).trans_lt hlt)),
        count_add_one_toNat hlt⟩

end Sys2Proof.Proofs
end

section
/-! SUPPORT. The queue of R102 as the model searches it and as `Safety.FirstInQueue` describes it, and the nodes it reads:
those made so far and the leaves. -/

namespace Sys2Proof.Machine

open Sys2Proof.Safety

/-- The model's queue order is R102's. -/
theorem queueBefore_eq_true_iff_before {t : State} {x y : Nat} : queueBefore t.nodeWt x y = true ↔ Before t x y :=
  queueBefore_iff ..

theorem extractMin_nodup {wt : Table Config.cntW} {q rest : List Nat} {a : Nat} (hq : q.Nodup)
    (h : extractMin wt q = some (a, rest)) : a ∉ rest ∧ rest.Nodup :=
  List.nodup_cons.1 ((extractMin_eq_some h).1.nodup_iff.1 hq)

/-- The second `extract_min` of a merge searches the queue without the first node. -/
theorem extractMin_mem_rest {wt : Table Config.cntW} {q rest : List Nat} {a : Nat} (hq : q.Nodup)
    (h : extractMin wt q = some (a, rest)) (y : Nat) : y ∈ rest ↔ y ∈ q ∧ y ≠ a := by
  have ha := (extractMin_nodup hq h).1
  rw [(extractMin_eq_some h).1.mem_iff, List.mem_cons]
  exact ⟨fun hy => ⟨Or.inr hy, fun e => ha (e ▸ hy)⟩, fun ⟨hy, hne⟩ => hy.resolve_left hne⟩

/-- `extract_min` of a list that holds the queue but for the nodes taken answers the first of the queue (R102). -/
theorem firstInQueue_of_extractMin {s t : State} {k a : Nat} {gone q rest : List Nat}
    (hq : ∀ y, y ∈ q ↔ InQueue s t k y ∧ y ∉ gone) (h : extractMin t.nodeWt q = some (a, rest)) :
    FirstInQueue s t k gone a := by
  obtain ⟨hperm, hmin⟩ := extractMin_eq_some h
  obtain ⟨ha, hgone⟩ := (hq a).1 (hperm.mem_iff.2 List.mem_cons_self)
  exact ⟨ha, hgone, fun y hy hyg hne =>
    queueBefore_eq_true_iff_before.1 ((hmin y ((hq y).2 ⟨hy, hyg⟩)).resolve_left hne)⟩

theorem isLeafSymbol_le {s : State} {x : Nat} (h : IsLeafSymbol s x) : x ≤ Config.endSym :=
  h.elim le_of_eq fun h => h.1.le

theorem leaf_ne_internal {s : State} {x : Nat} (h : IsLeafSymbol s x) (k : Nat) : x ≠ Config.firstInternal + k :=
  ((Nat.lt_succ_of_le (isLeafSymbol_le h)).trans_le (Nat.le_add_right ..)).ne

theorem isLeafSymbol_iff_mem {s : State} {x : Nat} :
    IsLeafSymbol s x ↔ x ∈ presentSymbols s.freq ++ [Config.endSym] := by
  simp [IsLeafSymbol, or_comm]

/-- Before the `k`-th merge the queue holds no identifier from `257 + k` on (R101). -/
theorem inQueue_lt {s t : State} {k x : Nat} (h : InQueue s t k x) : x < Config.firstInternal + k := by
  rcases h.1 with h | h
  · exact (Nat.lt_succ_of_le (isLeafSymbol_le h)).trans_le (Nat.le_add_right ..)
  · exact h.2

theorem firstInQueue_lt {s t : State} {k x : Nat} {gone : List Nat} (h : FirstInQueue s t k gone x) :
    x < Config.firstInternal + k := inQueue_lt h.1

/-- Before the first merge the queue holds the leaves. -/
theorem inQueue_zero_iff {s t : State} {x : Nat} : InQueue s t 0 x ↔ IsLeafSymbol s x :=
  ⟨fun h => h.1.resolve_right fun h => absurd h.1 (Nat.not_le.2 h.2), fun h => ⟨Or.inl h, nofun⟩⟩

/-- Two node memories agree on the nodes below identifier `n`. -/
def SameNodesBelow (n : Nat) (t t' : State) : Prop :=
  ∀ x, x < n → tableGet t'.nodeL x = tableGet t.nodeL x ∧ tableGet t'.nodeR x = tableGet t.nodeR x
    ∧ tableGet t'.nodeWt x = tableGet t.nodeWt x

theorem SameNodesBelow.mono {m n : Nat} {t t' : State} (h : SameNodesBelow n t t') (hmn : m ≤ n) :
    SameNodesBelow m t t' := fun x hx => h x (hx.trans_le hmn)

theorem SameNodesBelow.weight {n x : Nat} {t t' : State} (h : SameNodesBelow n t t') (hx : x < n) :
    tableGet t'.nodeWt x = tableGet t.nodeWt x := (h x hx).2.2

theorem inQueue_congr {s t t' : State} {k x : Nat} (h : SameNodesBelow (Config.firstInternal + k) t t') :
    InQueue s t' k x ↔ InQueue s t k x := by
  refine and_congr_right' (forall₂_congr fun j hj => ?_)
  obtain ⟨hL, hR, -⟩ := h _ (Nat.add_lt_add_left hj Config.firstInternal)
  rw [hL, hR]

/-- The queue before the `k`-th merge and its order depend on the nodes below `257 + k` alone. -/
theorem firstInQueue_congr {s t t' : State} {k x : Nat} {gone : List Nat}
    (h : SameNodesBelow (Config.firstInternal + k) t t') (hx : FirstInQueue s t k gone x) :
    FirstInQueue s t' k gone x := by
  obtain ⟨hin, hgone, hfirst⟩ := hx
  refine ⟨(inQueue_congr h).2 hin, hgone, fun y hy hyg hne => ?_⟩
  have hyt := (inQueue_congr h).1 hy
  rw [Before, h.weight (inQueue_lt hin), h.weight (inQueue_lt hyt)]
  exact hfirst y hyt hyg hne

end Sys2Proof.Machine
end

section
/-! SUPPORT. What the loop of `BLD` keeps (R103, R104): every internal node made so far is the merge of the two that were
first in the queue, and the loop's list is the queue. -/

namespace Sys2Proof.Machine

open Sys2Proof.Safety

/-- The `k`-th merge in a node memory (R103): node `257 + k` has the first of the queue as left child, the first of the rest
as right child, and the sum of their weights. -/
def MergedAt (s t : State) (k : Nat) : Prop :=
  FirstInQueue s t k [] (tableGet t.nodeL (Config.firstInternal + k)).toNat
    ∧ FirstInQueue s t k [(tableGet t.nodeL (Config.firstInternal + k)).toNat]
        (tableGet t.nodeR (Config.firstInternal + k)).toNat
    ∧ tableGet t.nodeWt (Config.firstInternal + k)
        = tableGet t.nodeWt (tableGet t.nodeL (Config.firstInternal + k)).toNat
          + tableGet t.nodeWt (tableGet t.nodeR (Config.firstInternal + k)).toNat

/-- R101: children have smaller identifiers than their parent. -/
theorem MergedAt.children_lt {s t : State} {k : Nat} (h : MergedAt s t k) :
    (tableGet t.nodeL (Config.firstInternal + k)).toNat < Config.firstInternal + k
      ∧ (tableGet t.nodeR (Config.firstInternal + k)).toNat < Config.firstInternal + k :=
  ⟨firstInQueue_lt h.1, firstInQueue_lt h.2.1⟩

/-- What writes to later nodes leave of a merge: all of it. -/
theorem MergedAt.congr {s t t' : State} {k : Nat} (h : MergedAt s t k)
    (hsame : SameNodesBelow (Config.firstInternal + (k + 1)) t t') : MergedAt s t' k := by
  have hbelow : SameNodesBelow (Config.firstInternal + k) t t' := hsame.mono (Nat.le_succ _)
  obtain ⟨hlt, hrt⟩ := h.children_lt
  obtain ⟨hleft, hright, hsum⟩ := h
  obtain ⟨hL, hR, hW⟩ := hsame (Config.firstInternal + k) (Nat.lt_succ_self _)
  rw [MergedAt, hL, hR, hW, hbelow.weight hlt, hbelow.weight hrt]
  exact ⟨firstInQueue_congr hbelow hleft, firstInQueue_congr hbelow hright, hsum⟩

/-- A merge puts the node made into the queue and takes its children out. -/
theorem inQueue_succ_iff {s t : State} {k x : Nat} (h : ∀ j, j < k + 1 → MergedAt s t j) :
    InQueue s t (k + 1) x ↔ x = Config.firstInternal + k
      ∨ (InQueue s t k x ∧ (tableGet t.nodeL (Config.firstInternal + k)).toNat ≠ x
        ∧ (tableGet t.nodeR (Config.firstInternal + k)).toNat ≠ x) := by
  by_cases hx : x = Config.firstInternal + k
  · subst hx
    refine iff_of_true ⟨Or.inr ⟨Nat.le_add_right .., Nat.lt_succ_self _⟩, fun j hj => ?_⟩ (Or.inl rfl)
    have hle : Config.firstInternal + j ≤ Config.firstInternal + k := Nat.add_le_add_left (Nat.le_of_lt_succ hj) _
    obtain ⟨hL, hR⟩ := (h j hj).children_lt
    exact ⟨(hL.trans_le hle).ne, (hR.trans_le hle).ne⟩
  · have hlt : x < Config.firstInternal + (k + 1) ↔ x < Config.firstInternal + k := by omega
    simp only [InQueue, hlt, Nat.forall_lt_succ_right, hx, false_or, and_assoc]

/-- The state whose node memory is what the loop works on. -/
def withNodes (m : Merge) (s : State) : State := { s with nodeWt := m.wt, nodeL := m.left, nodeR := m.right }

/-- The state of the merge loop after `m.k` turns, for the leaves of `s` (R104). -/
structure MergeInv (s : State) (m : Merge) : Prop where
  queued : ∀ x, x ∈ m.queue ↔ InQueue s (withNodes m s) m.k x
  nodup : m.queue.Nodup
  newest : m.k = 0 ∨ m.queue.head? = some (Config.endSym + m.k)
  merged : ∀ j, j < m.k → MergedAt s (withNodes m s) j
  leaves : ∀ x, IsLeafSymbol s x → tableGet m.wt x = leafWeight s x
  frame : ∀ x, ¬ (Config.firstInternal ≤ x ∧ x < Config.firstInternal + m.k) →
    tableGet m.left x = tableGet s.nodeL x ∧ tableGet m.right x = tableGet s.nodeR x
      ∧ (¬ IsLeafSymbol s x → tableGet m.wt x = tableGet s.nodeWt x)

/-! ### The loop's start -/

theorem tableGet_foldl_leaves (freq : Table Config.cntW) (l : List Nat) (wt : Table Config.cntW) (x : Nat) :
    tableGet (l.foldl (fun t y => tableSet t y (tableGet freq y)) wt) x
      = if x ∈ l then tableGet freq x else tableGet wt x := by
  induction l generalizing wt with
  | nil => simp
  | cons y l ih =>
    rw [List.foldl_cons, ih, tableGet_tableSet]
    by_cases hx : x = y <;> simp [hx]

/-- R100, R104: the leaves of the loop's start have their weights. -/
theorem leafWeights_of_leaf {s : State} {x : Nat} (h : IsLeafSymbol s x) :
    tableGet (leafWeights s.freq s.nodeWt) x = leafWeight s x := by
  rcases h with rfl | ⟨hx, hf⟩
  · rw [leafWeights, tableGet_tableSet_self, leafWeight, if_pos rfl]
  · rw [leafWeights, tableGet_tableSet_ne _ _ hx.ne, tableGet_foldl_leaves,
      if_pos (mem_presentSymbols.2 ⟨hx, hf⟩), leafWeight, if_neg hx.ne]

theorem leafWeights_of_not_leaf {s : State} {x : Nat} (h : ¬ IsLeafSymbol s x) :
    tableGet (leafWeights s.freq s.nodeWt) x = tableGet s.nodeWt x := by
  rw [IsLeafSymbol, not_or] at h
  rw [leafWeights, tableGet_tableSet_ne _ _ h.1, tableGet_foldl_leaves, if_neg (mt mem_presentSymbols.1 h.2)]

theorem mergeStart_inv (s : State) : MergeInv s (mergeStart s) where
  queued _ := (inQueue_zero_iff.trans isLeafSymbol_iff_mem).symm
  nodup := List.nodup_append.2 ⟨presentSymbols_nodup s.freq, List.nodup_singleton _, fun _ ha _ hb =>
    List.mem_singleton.1 hb ▸ (mem_presentSymbols.1 ha).1.ne⟩
  newest := Or.inl rfl
  merged := nofun
  leaves _ := leafWeights_of_leaf
  frame _ _ := ⟨rfl, rfl, leafWeights_of_not_leaf⟩

/-! ### One turn -/

section Turn

variable {s : State} {m : Merge} {a b : Nat} {q rest : List Nat}

/-- A merge writes node `257 + k` and no other. -/
theorem mergeNodes_sameNodesBelow :
    SameNodesBelow (Config.firstInternal + m.k) (withNodes m s) (withNodes (mergeNodes a b rest m) s) := fun _ hx =>
  ⟨tableGet_tableSet_ne _ _ hx.ne, tableGet_tableSet_ne _ _ hx.ne, tableGet_tableSet_ne _ _ hx.ne⟩

variable (hinv : MergeInv s m) (hfits : m.k ≤ Config.endSym) (ha : extractMin m.wt m.queue = some (a, q))
  (hb : extractMin m.wt q = some (b, rest))

include hinv ha in
/-- The first node taken is the first of the queue. -/
theorem MergeInv.first : FirstInQueue s (withNodes m s) m.k [] a :=
  firstInQueue_of_extractMin (t := withNodes m s) (fun y => by simp [hinv.queued y]) ha

include hinv ha hb in
/-- The second node taken is the first of the rest. -/
theorem MergeInv.second : FirstInQueue s (withNodes m s) m.k [a] b :=
  firstInQueue_of_extractMin (t := withNodes m s)
    (fun y => by rw [extractMin_mem_rest hinv.nodup ha, hinv.queued, List.mem_singleton]) hb

include hinv hfits ha hb in
/-- The children of the node made are the nodes taken: their identifiers fit in the ten bits of a child. -/
theorem MergeInv.children_new :
    (tableGet (withNodes (mergeNodes a b rest m) s).nodeL (Config.firstInternal + m.k)).toNat = a
      ∧ (tableGet (withNodes (mergeNodes a b rest m) s).nodeR (Config.firstInternal + m.k)).toNat = b := by
  have hbound : Config.firstInternal + m.k < 2 ^ 10 :=
    (Nat.add_le_add_left hfits Config.firstInternal).trans_lt (by decide)
  have hread : ∀ {x : Nat} (t : Table 10), x < Config.firstInternal + m.k →
      (tableGet (tableSet t (Config.firstInternal + m.k) (BitVec.ofNat 10 x)) (Config.firstInternal + m.k)).toNat = x :=
    fun t hx => by rw [tableGet_tableSet_self, BitVec.toNat_ofNat, Nat.mod_eq_of_lt (hx.trans hbound)]
  exact ⟨hread _ (firstInQueue_lt (hinv.first ha)), hread _ (firstInQueue_lt (hinv.second ha hb))⟩

include hinv hfits ha hb in
/-- The node made is the merge of the two first. -/
theorem MergeInv.mergedAt_new : MergedAt s (withNodes (mergeNodes a b rest m) s) m.k := by
  have hfirst := hinv.first ha
  have hsecond := hinv.second ha hb
  have hsame := mergeNodes_sameNodesBelow (s := s) (m := m) (a := a) (b := b) (rest := rest)
  obtain ⟨hL, hR⟩ := hinv.children_new (rest := rest) hfits ha hb
  rw [MergedAt, hL, hR]
  refine ⟨firstInQueue_congr hsame hfirst, firstInQueue_congr hsame hsecond, ?sum⟩
  case sum =>
    rw [hsame.weight (firstInQueue_lt hfirst), hsame.weight (firstInQueue_lt hsecond)]
    exact tableGet_tableSet_self ..

include hinv ha hb in
/-- What the two extractions leave: the queue without the two nodes merged. -/
theorem MergeInv.mem_rest (x : Nat) : x ∈ rest ↔ InQueue s (withNodes m s) m.k x ∧ a ≠ x ∧ b ≠ x := by
  rw [extractMin_mem_rest (extractMin_nodup hinv.nodup ha).2 hb, extractMin_mem_rest hinv.nodup ha, hinv.queued,
    and_assoc, ne_comm, ne_comm (a := x)]

include hinv hfits ha hb in
theorem mergeNodes_inv : MergeInv s (mergeNodes a b rest m) := by
  have hsame := mergeNodes_sameNodesBelow (s := s) (m := m) (a := a) (b := b) (rest := rest)
  have hmerged : ∀ j, j < m.k + 1 → MergedAt s (withNodes (mergeNodes a b rest m) s) j :=
    Nat.forall_lt_succ_right.2
      ⟨fun j hj => (hinv.merged j hj).congr (hsame.mono (Nat.add_le_add_left hj _)), hinv.mergedAt_new hfits ha hb⟩
  obtain ⟨hL, hR⟩ := hinv.children_new (rest := rest) hfits ha hb
  exact {
    queued := fun x => by
      refine List.mem_cons.trans (Iff.trans ?_ (inQueue_succ_iff hmerged).symm)
      rw [inQueue_congr hsame, hL, hR, hinv.mem_rest ha hb]
    nodup := List.nodup_cons.2 ⟨fun h => (inQueue_lt ((hinv.mem_rest ha hb _).1 h).1).ne rfl,
      (extractMin_nodup (extractMin_nodup hinv.nodup ha).2 hb).2⟩
    newest := Or.inr (congrArg some (Nat.add_right_comm Config.endSym 1 m.k))
    merged := hmerged
    leaves := fun x hx => (tableGet_tableSet_ne _ _ (leaf_ne_internal hx _)).trans (hinv.leaves x hx)
    frame := fun x hx => by
      have hne : x ≠ Config.firstInternal + m.k := fun e => hx ⟨e ▸ Nat.le_add_right .., e ▸ Nat.lt_succ_self _⟩
      obtain ⟨hleft, hright, hwt⟩ := hinv.frame x fun ⟨hlo, hhi⟩ => hx ⟨hlo, Nat.lt_succ_of_lt hhi⟩
      exact ⟨(tableGet_tableSet_ne _ _ hne).trans hleft, (tableGet_tableSet_ne _ _ hne).trans hright,
        fun hl => (tableGet_tableSet_ne _ _ hne).trans (hwt hl)⟩ }

end Turn

theorem mergeTurn_inv {s : State} {m : Merge} (hinv : MergeInv s m) (hfits : m.k ≤ Config.endSym) :
    MergeInv s (mergeTurn m) := by
  rcases mergeTurn_cases m with ⟨-, e⟩ | ⟨a, b, q, rest, ha, hb, -, e⟩ <;> rw [e]
  · exact hinv
  · exact mergeNodes_inv hinv hfits ha hb

/-! ### The whole loop -/

theorem mergeLoop_inv {s : State} (n : Nat) {m : Merge} (hinv : MergeInv s m) (hlen : m.queue.length = n + 1)
    (hfits : m.k + n ≤ Config.endSym) : MergeInv s (mergeLoop n m) := by
  induction n generalizing m with
  | zero => exact hinv
  | succ n ih =>
    obtain ⟨hlen', hk'⟩ := mergeTurn_counts (m := m) (by omega)
    exact ih (mergeTurn_inv hinv (by omega)) (by omega) (by omega)

theorem mergeStart_length (s : State) : (mergeStart s).queue.length = (presentSymbols s.freq).length + 1 := by
  simp [mergeStart]

theorem mergeAll_inv (s : State) : MergeInv s (mergeAll s) :=
  mergeLoop_inv _ (mergeStart_inv s) (mergeStart_length s)
    ((Nat.zero_add _).trans_le (presentSymbols_length_le s.freq))

/-- R104: one merge for each real symbol. -/
@[simp] theorem mergeAll_k (s : State) : (mergeAll s).k = (presentSymbols s.freq).length :=
  (mergeLoop_counts _ _ (mergeStart_length s)).2.trans (Nat.zero_add _)

end Sys2Proof.Machine
end

section
/-! SUPPORT. What `BLD` leaves (R19, R81, R104): where it is legal, its nodes, `ROOT` and `NINT`. -/

namespace Sys2Proof.Machine

open Sys2Proof.Safety

/-- R81: the row of `BLD`. -/
theorem legal_bld_iff {p : Phase} : legal .bld p = true ↔ p = .idle ∨ p = .count := by
  simp [legal, legalPhases]

/-- R104: with a real symbol present `BLD` runs the merge loop. -/
theorem exec_bld_of_present {s : State} (hp : s.phase = .idle ∨ s.phase = .count) (hne : presentSymbols s.freq ≠ []) :
    exec .bld s = .next (bldTree s) := by
  rw [exec_of_legal (legal_bld_iff.2 hp), bodyOf, bldBody, if_neg hne]

/-- R103: every internal node `BLD` leaves is a merge of the two first of the queue. -/
theorem bldTree_mergedAt (s : State) {k : Nat} (hk : k < (presentSymbols s.freq).length) : MergedAt s (bldTree s) k :=
  ((mergeAll_inv s).merged k (by rwa [mergeAll_k])).congr fun _ _ => ⟨rfl, rfl, rfl⟩

/-- R19: `ROOT` is the last node made. -/
theorem bldTree_root {s : State} (hne : presentSymbols s.freq ≠ []) :
    (bldTree s).root.toNat = Config.endSym + (presentSymbols s.freq).length := by
  have hlen := presentSymbols_length_le s.freq
  have hhead := (mergeAll_inv s).newest.resolve_left (by simpa using hne)
  rw [mergeAll_k] at hhead
  rw [bldTree, List.headD_eq_head?_getD, hhead, Option.getD_some, BitVec.toNat_ofNat]
  exact Nat.mod_eq_of_lt ((Nat.add_le_add_left hlen _).trans_lt (by decide))

/-- R19: `NINT` is the number of internal nodes. -/
theorem bldTree_nint (s : State) : (bldTree s).nint.toNat = (presentSymbols s.freq).length := by
  rw [bldTree, mergeAll_k, BitVec.toNat_ofNat]
  exact Nat.mod_eq_of_lt ((presentSymbols_length_le s.freq).trans_lt (by decide))

end Sys2Proof.Machine
end

section
/-! SUPPORT. What `LEN` makes of a root with two leaves (R110). -/

namespace Sys2Proof.Machine

theorem leafDepths_of_leaf {left right : Table 10} {fuel node : Nat} (h : node ≤ Config.endSym) :
    leafDepths left right (fuel + 1) node = [(node, walkLimit - (fuel + 1))] := if_pos h

theorem leafDepths_of_internal {left right : Table 10} {fuel node : Nat} (h : Config.endSym < node) :
    leafDepths left right (fuel + 1) node
      = leafDepths left right fuel (tableGet left node).toNat
        ++ leafDepths left right fuel (tableGet right node).toNat := if_neg (Nat.not_le.2 h)

/-- R110: a root with two leaves gives both the length 1. -/
theorem codewordLengths_of_two_leaves {s : State} {c d : Nat} (hroot : Config.endSym < s.root.toNat)
    (hL : (tableGet s.nodeL s.root.toNat).toNat = c) (hR : (tableGet s.nodeR s.root.toNat).toNat = d)
    (hc : c ≤ Config.endSym) (hd : d ≤ Config.endSym) : codewordLengths s = [(c, 1), (d, 1)] := by
  rw [codewordLengths, if_neg hroot.ne', show walkLimit = 254 + 1 + 1 from rfl, leafDepths_of_internal hroot, hL, hR,
    leafDepths_of_leaf hc, leafDepths_of_leaf hd]
  rfl

/-- Where every depth is 1, so is every length listed. -/
theorem tableGet_lengthTable_ones {d : List (Nat × Nat)} (hd : ∀ p ∈ d, p.2 = 1) (x : Nat) :
    tableGet (lengthTable d) x = if x ∈ d.map Prod.fst then 1 else 0 := by
  split
  · rename_i hx
    obtain ⟨p, hp, rfl⟩ := List.mem_map.1 hx
    exact lengthTable_of_mem (n := 1) (hd p hp ▸ hp) fun q hq _ => hd q hq
  · rename_i hx
    exact lengthTable_of_not_mem fun p hp e => hx (e ▸ List.mem_map_of_mem hp)

/-- R22: where every length is 0 or 1, and one is 1, the largest is 1. -/
theorem maxLength_eq_one {lent : Table 8} {x : Nat} (hx : x ≤ Config.endSym) (hone : tableGet lent x = 1)
    (h : ∀ a, tableGet lent a = 0 ∨ tableGet lent a = 1) : maxLength lent = 1 := by
  obtain ⟨hmax, hattained⟩ := maxLength_spec lent
  have hne : maxLength lent ≠ 0 := fun e => by
    have := hmax x hx
    rw [hone, e] at this
    exact absurd this (by decide)
  obtain ⟨a, -, ha⟩ := hattained hne
  exact (h a).elim (fun h0 => absurd (ha.symm.trans h0) hne) fun h1 => ha.symm.trans h1

/-- R110: `LEN` where no leaf is deeper than 255. -/
theorem exec_len_of_fits {s : State} (hp : s.phase = .tree) (h : ∀ p ∈ codewordLengths s, p.2 ≤ Config.lmax) :
    exec .len s = .next
      { s with
        lent := lengthTable (codewordLengths s)
        maxlen := maxLength (lengthTable (codewordLengths s))
        nodeWt := []
        nodeL := []
        nodeR := []
        root := 0
        nint := 0
        phase := .lens } := by
  have hfits : ¬ ((codewordLengths s).any fun p => decide (Config.lmax < p.2)) = true := by simpa using h
  rw [exec_of_legal (by rw [hp]; rfl), bodyOf, lenBody, if_neg hfits]

/-- R110, R22: `LEN` on a root with two leaves. -/
theorem exec_len_of_two_leaves {s : State} {c d : Nat} (hp : s.phase = .tree) (hroot : Config.endSym < s.root.toNat)
    (hL : (tableGet s.nodeL s.root.toNat).toNat = c) (hR : (tableGet s.nodeR s.root.toNat).toNat = d)
    (hc : c ≤ Config.endSym) (hd : d ≤ Config.endSym) :
    ∃ u, exec .len s = .next u ∧ u.phase = .lens ∧ u.maxlen = 1
      ∧ ∀ a, tableGet u.lent a = if a = c ∨ a = d then 1 else 0 := by
  have hlist := codewordLengths_of_two_leaves hroot hL hR hc hd
  have hones : ∀ p ∈ codewordLengths s, p.2 = 1 := by simp [hlist]
  have hfits : ∀ p ∈ codewordLengths s, p.2 ≤ Config.lmax := fun p hpd => (hones p hpd).trans_le (by decide)
  have hlent : ∀ a, tableGet (lengthTable (codewordLengths s)) a = if a = c ∨ a = d then 1 else 0 := by
    intro a
    rw [tableGet_lengthTable_ones hones, hlist]
    simp
  have hmax : maxLength (lengthTable (codewordLengths s)) = 1 := by
    refine maxLength_eq_one hc ((hlent c).trans (if_pos (Or.inl rfl))) fun a => ?_
    rw [hlent]
    split
    · exact Or.inr rfl
    · exact Or.inl rfl
  exact ⟨_, exec_len_of_fits hp hfits, rfl, by simpa only using hmax, hlent⟩

end Sys2Proof.Machine
end

section
/-! SUPPORT. The tree `BLD` makes of one real symbol (R105): its two leaves, merged in the order of the queue. -/

namespace Sys2Proof.Machine

open Sys2Proof.Safety

/-- The queue order is asymmetric (R102). -/
theorem before_asymm {t : State} {x y : Nat} (h : Before t x y) : ¬ Before t y x := by
  simp only [Before, ← BitVec.toNat_inj] at *
  omega

/-- With two nodes queued, the first in the queue order becomes the left child and the other the right child (R103). -/
theorem MergedAt.children_of_pair {s t : State} {k c d : Nat} (h : MergedAt s t k)
    (hq : ∀ y, InQueue s t k y ↔ y = c ∨ y = d) (hcd : Before t c d) :
    (tableGet t.nodeL (Config.firstInternal + k)).toNat = c
      ∧ (tableGet t.nodeR (Config.firstInternal + k)).toNat = d := by
  obtain ⟨⟨hlin, -, hlfirst⟩, ⟨hrin, hrne, -⟩, -⟩ := h
  have hleft : (tableGet t.nodeL (Config.firstInternal + k)).toNat = c := by
    by_contra hne
    have hd := ((hq _).1 hlin).resolve_left hne
    exact before_asymm hcd (hd ▸ hlfirst c ((hq c).2 (Or.inl rfl)) List.not_mem_nil (Ne.symm hne))
  exact ⟨hleft, ((hq _).1 hrin).resolve_left fun hc => hrne (by rw [hc, hleft]; exact List.mem_singleton_self _)⟩

/-- A frequency that is neither 0 nor 1 is heavier than END. -/
theorem one_lt_of_ne_zero_of_ne_one {n : BitVec 64} (h0 : n ≠ 0) (h1 : n ≠ 1) : 1 < n := by bv_omega

section OneSymbol

variable {s : State} {x : Nat} (h : presentSymbols s.freq = [x])
include h

theorem counted_of_one : x < Config.endSym ∧ tableGet s.freq x ≠ 0 :=
  mem_presentSymbols.1 (h ▸ List.mem_singleton_self x)

theorem isLeafSymbol_iff_of_one {y : Nat} : IsLeafSymbol s y ↔ y = x ∨ y = Config.endSym := by
  rw [isLeafSymbol_iff_mem, h]
  simp

/-- The weights of the two leaves. -/
theorem bldTree_weights_of_one :
    tableGet (bldTree s).nodeWt x = tableGet s.freq x ∧ tableGet (bldTree s).nodeWt Config.endSym = 1 := by
  have hleaves := (mergeAll_inv s).leaves
  have hne := (counted_of_one h).1.ne
  exact ⟨(hleaves x ((isLeafSymbol_iff_of_one h).2 (Or.inl rfl))).trans (if_neg hne),
    (hleaves _ (Or.inl rfl)).trans (if_pos rfl)⟩

/-- The order of the two leaves: the tie at weight 1 goes to the smaller identifier, the real symbol (R102, R105). -/
theorem bldTree_before_of_one :
    (tableGet s.freq x = 1 → Before (bldTree s) x Config.endSym)
      ∧ (tableGet s.freq x ≠ 1 → Before (bldTree s) Config.endSym x) := by
  obtain ⟨hx, hpos⟩ := counted_of_one h
  obtain ⟨hwx, hwe⟩ := bldTree_weights_of_one h
  refine ⟨fun hone => Or.inr ⟨by rw [hwx, hwe, hone], hx⟩, fun hone => Or.inl ?_⟩
  rw [hwx, hwe]
  exact one_lt_of_ne_zero_of_ne_one hpos hone

/-- R105: the two leaves are the children of node 257, in the order of the queue. -/
theorem bldTree_children_of_one :
    (tableGet s.freq x = 1 → (tableGet (bldTree s).nodeL 257).toNat = x
        ∧ (tableGet (bldTree s).nodeR 257).toNat = Config.endSym)
      ∧ (tableGet s.freq x ≠ 1 → (tableGet (bldTree s).nodeL 257).toNat = Config.endSym
        ∧ (tableGet (bldTree s).nodeR 257).toNat = x) := by
  have hmerged : MergedAt s (bldTree s) 0 := bldTree_mergedAt s (by simp [h])
  have hq : ∀ y, InQueue s (bldTree s) 0 y ↔ y = x ∨ y = Config.endSym := fun y =>
    inQueue_zero_iff.trans (isLeafSymbol_iff_of_one h)
  obtain ⟨htie, hheavy⟩ := bldTree_before_of_one h
  exact ⟨fun hone => hmerged.children_of_pair hq (htie hone),
    fun hone => hmerged.children_of_pair (fun y => (hq y).trans or_comm) (hheavy hone)⟩

/-- Either way node 257 has the two leaves as children. -/
theorem bldTree_two_leaves_of_one :
    ((tableGet (bldTree s).nodeL 257).toNat = x ∧ (tableGet (bldTree s).nodeR 257).toNat = Config.endSym)
      ∨ ((tableGet (bldTree s).nodeL 257).toNat = Config.endSym ∧ (tableGet (bldTree s).nodeR 257).toNat = x) := by
  obtain ⟨htie, hheavy⟩ := bldTree_children_of_one h
  exact (em _).imp htie hheavy

theorem bldTree_weight_of_one : tableGet (bldTree s).nodeWt 257 = tableGet s.freq x + 1 := by
  have hsum : tableGet (bldTree s).nodeWt 257
      = tableGet (bldTree s).nodeWt (tableGet (bldTree s).nodeL 257).toNat
        + tableGet (bldTree s).nodeWt (tableGet (bldTree s).nodeR 257).toNat :=
    (bldTree_mergedAt s (k := 0) (by simp [h])).2.2
  obtain ⟨hwx, hwe⟩ := bldTree_weights_of_one h
  rcases bldTree_two_leaves_of_one h with ⟨hL, hR⟩ | ⟨hL, hR⟩
  · rw [hsum, hL, hR, hwx, hwe]
  · rw [hsum, hL, hR, hwx, hwe, BitVec.add_comm]

theorem bldTree_root_of_one : (bldTree s).root.toNat = 257 := by
  rw [bldTree_root (by simp [h]), h]
  rfl

/-- R105: `LEN` gives both leaves the length 1. -/
theorem exec_len_bldTree_of_one :
    ∃ u, exec .len (bldTree s) = .next u ∧ u.phase = .lens ∧ u.maxlen = 1
      ∧ ∀ a, tableGet u.lent a = if a = x ∨ a = Config.endSym then 1 else 0 := by
  have hroot := bldTree_root_of_one h
  have hx := (counted_of_one h).1.le
  have hdeep : Config.endSym < (bldTree s).root.toNat := by rw [hroot]; decide
  have hpair := bldTree_two_leaves_of_one h
  rw [← hroot] at hpair
  rcases hpair with ⟨hL, hR⟩ | ⟨hL, hR⟩
  · exact exec_len_of_two_leaves rfl hdeep hL hR hx le_rfl
  · simpa only [or_comm] using exec_len_of_two_leaves rfl hdeep hL hR le_rfl hx

end OneSymbol

end Sys2Proof.Machine
end

section
/-! The statements of 42_tree_builder.md on the merges of `BLD` and on one real symbol, settled. -/

namespace Sys2Proof.Proofs

open Sys2Proof.Machine Sys2Proof.Safety

/-- Settles O21: the merge loop keeps `MergeInv`, which says of every merge done what R103 says. -/
theorem bldMergesTheTwoFirst : Obligations.BldMergesTheTwoFirst := by
  refine ⟨⟨rfl, fun p => decide_eq_true_iff⟩, fun s hp hne => ?_⟩
  have hinv := mergeAll_inv s
  exact ⟨bldTree s, exec_bld_of_present hp hne, hinv.leaves, fun k => bldTree_mergedAt s, bldTree_root hne,
    bldTree_nint s, rfl, mergeAll_k s ▸ hinv.frame, ⟨rfl, rfl⟩, ⟨rfl, rfl⟩, ⟨rfl, rfl⟩, rfl, ⟨rfl, rfl, rfl, rfl⟩,
    ⟨rfl, rfl⟩, rfl, ⟨rfl, rfl⟩, rfl, rfl⟩

/-- Settles O23: the one merge takes the two leaves in the order of the queue, so both stand just below the root. -/
theorem oneRealSymbolGivesTwoLeaves : Obligations.OneRealSymbolGivesTwoLeaves := by
  intro s x _ hp h
  have hnint : (bldTree s).nint = 1 := BitVec.eq_of_toNat_eq (by rw [bldTree_nint, h]; rfl)
  obtain ⟨htie, hheavy⟩ := bldTree_children_of_one h
  obtain ⟨u, hu, hphase, hmax, hlent⟩ := exec_len_bldTree_of_one h
  exact ⟨bldTree s, u, exec_bld_of_present (Or.inr hp) (by simp [h]), hu, bldTree_root_of_one h, hnint,
    bldTree_weight_of_one h, htie, hheavy, hphase, (hlent x).trans (if_pos (Or.inl rfl)),
    (hlent _).trans (if_pos (Or.inr rfl)), hmax, fun a hax hae => (hlent a).trans (if_neg (not_or.2 ⟨hax, hae⟩))⟩

end Sys2Proof.Proofs
end

section
/-! SUPPORT. The values of R115 by the length of their bucket, and that `ASG` writes them where no bucket runs out of
values (R116, R118). -/

namespace Sys2Proof.Machine

open Sys2Proof.Safety

/-- The counter when the bucket of length `L` begins (R115). -/
def startAt (lent : Table 8) (M L : Nat) : Nat := bucketStart lent M (M - L)

/-- The counter when the bucket of length `L` ends: the nodes of depth `L` in use (R116). -/
def usedAt (lent : Table 8) (M L : Nat) : Nat := startAt lent M L + countOfLength lent L Config.nsym

/-- No bucket of the lengths 1 to `L` runs out of values (R118). -/
def BucketsFit (lent : Table 8) (M L : Nat) : Prop := ∀ l, 1 ≤ l → l ≤ L → usedAt lent M l ≤ 2 ^ l

/-- `new` holds the values of R115 for the lengths 1 to `L`, and elsewhere what `old` holds. -/
def AssignedUpTo (lent : Table 8) (M L : Nat) (old new : Table Config.codeW) : Prop :=
  (∀ x, Coded lent x → (tableGet lent x).toNat ≤ L → (tableGet new x).toNat = canonicalValue lent M x)
    ∧ ∀ x, ¬ (Coded lent x ∧ (tableGet lent x).toNat ≤ L) → tableGet new x = tableGet old x

@[simp] theorem startAt_self (lent : Table 8) (M : Nat) : startAt lent M M = 0 := by simp [startAt, bucketStart]

theorem startAt_of_lt {lent : Table 8} {M L : Nat} (h : L < M) : startAt lent M L = (usedAt lent M (L + 1) + 1) / 2 := by
  have hj : M - L = M - (L + 1) + 1 := by omega
  have hL : M - (M - (L + 1)) = L + 1 := by omega
  rw [startAt, hj, bucketStart, hL]
  rfl

theorem canonicalValue_eq (lent : Table 8) (M x : Nat) :
    canonicalValue lent M x = startAt lent M (tableGet lent x).toNat + countOfLength lent (tableGet lent x).toNat x := rfl

theorem one_le_length_of_coded {lent : Table 8} {x : Nat} (h : Coded lent x) : 1 ≤ (tableGet lent x).toNat :=
  Nat.one_le_iff_ne_zero.2 fun e => h.2 (BitVec.eq_of_toNat_eq e)

theorem assignBucket_append (lent : Table 8) (L : Nat) (l₁ l₂ : List Nat) (a : Assign) :
    assignBucket lent L (l₁ ++ l₂) a = (assignBucket lent L l₁ a).bind (assignBucket lent L l₂) := by
  induction l₁ generalizing a with
  | nil => rfl
  | cons s rest ih =>
    simp only [List.cons_append, assignBucket]
    split
    · split
      · rfl
      · exact ih _
    · exact ih _

/-- The symbols before a symbol, in the order of the bucket. -/
theorem symbols_split {x : Nat} (h : x ≤ Config.endSym) : ∃ rest, symbols = List.range x ++ x :: rest ∧ x ∉ rest := by
  obtain ⟨k, hk⟩ := Nat.exists_eq_add_of_le h
  refine ⟨(List.range k).map (x + 1 + ·), ?_, by simp; omega⟩
  rw [symbols, show Config.nsym = x + (k + 1) by simp only [Config.nsym, Config.endSym] at *; omega, List.range_add,
    List.range_succ_eq_map]
  simp [Function.comp_def, Nat.add_assoc, Nat.add_comm 1]

/-- A symbol of a bucket that fits gets the value after those of the smaller symbols of its length (R115). -/
theorem assignBucket_value {lent : Table 8} {L x : Nat} {a a' : Assign} (hL : L ≤ Config.lmax) (ha : a.code.toNat ≤ 2 ^ L)
    (h : assignBucket lent L symbols a = some a') (hx : x ≤ Config.endSym) (hlen : (tableGet lent x).toNat = L) :
    (tableGet a'.table x).toNat = a.code.toNat + countOfLength lent L x := by
  obtain ⟨rest, hsplit, hnot⟩ := symbols_split hx
  rw [hsplit, assignBucket_append] at h
  rcases assignBucket_cases lent L (List.range x) a hL ha with ⟨hnone, -⟩ | ⟨b, hb, hcode, -, -⟩
  · rw [hnone] at h
    cases h
  rw [hb, Option.bind_some, assignBucket, if_pos hlen] at h
  split at h
  case isTrue => cases h
  case isFalse hroom =>
    have hnext : (b.code + 1).toNat ≤ b.code.toNat + 1 := Nat.mod_le _ _
    rcases assignBucket_cases lent L rest { code := b.code + 1, table := tableSet b.table x b.code } hL
        (hnext.trans (Nat.lt_of_not_le hroom)) with ⟨hnone, -⟩ | ⟨c, hc, -, -, hother⟩
    · rw [hnone] at h
      cases h
    · obtain rfl : c = a' := Option.some.inj (hc.symm.trans h)
      rw [hother x (Or.inl hnot), tableGet_tableSet_self, hcode]
      rfl

/-- What `ASG` makes of one bucket and the level-up after it (R115, R116). -/
theorem assignBucket_symbols_cases {lent : Table 8} {M L : Nat} {a : Assign} (hM : M ≤ Config.lmax) (hL : L + 1 ≤ M)
    (ha : a.code.toNat = startAt lent M (L + 1)) (hfit : startAt lent M (L + 1) ≤ 2 ^ (L + 1)) :
    (assignBucket lent (L + 1) symbols a = none ∧ 2 ^ (L + 1) < usedAt lent M (L + 1))
      ∨ ∃ b, assignBucket lent (L + 1) symbols a = some b ∧ usedAt lent M (L + 1) ≤ 2 ^ (L + 1)
        ∧ (levelUp b).code.toNat = startAt lent M L ∧ startAt lent M L ≤ 2 ^ L
        ∧ (∀ x, Coded lent x → (tableGet lent x).toNat = L + 1 → (tableGet b.table x).toNat = canonicalValue lent M x)
        ∧ ∀ x, ¬ (Coded lent x ∧ (tableGet lent x).toNat = L + 1) → tableGet b.table x = tableGet a.table x := by
  have hlmax : L + 1 ≤ Config.lmax := hL.trans hM
  rcases assignBucket_cases lent (L + 1) symbols a hlmax (ha ▸ hfit) with ⟨h, hfull⟩ | ⟨b, h, hcode, hle, hother⟩
  · exact Or.inl ⟨h, by rw [usedAt, ← ha]; exact hfull⟩
  have hused : b.code.toNat = usedAt lent M (L + 1) := by rw [hcode, ha]; rfl
  have hstart := startAt_of_lt (lent := lent) hL
  refine Or.inr ⟨b, h, hused ▸ hle, ?_, ?_, fun x hx hlen => ?_, fun x hx => hother x ?_⟩
  · rw [levelUp_toNat (hle.trans (Nat.pow_le_pow_right (by decide) hlmax)), hused, hstart]
  · rw [hused, pow_succ] at hle
    omega
  · rw [assignBucket_value hlmax (ha ▸ hfit) h hx.1 hlen, canonicalValue_eq, hlen, ha]
  · by_contra hc
    push Not at hc
    obtain ⟨hmem, hlen⟩ := hc
    exact hx ⟨⟨mem_symbols.1 hmem, fun e => by simp [e] at hlen⟩, hlen⟩

/-- What the buckets from length `L` down can do (R115, R118): they fail where one runs out of values, else every symbol
served gets its value. -/
theorem assignFrom_cases {lent : Table 8} {M : Nat} (hM : M ≤ Config.lmax) {L : Nat} (hL : L ≤ M) {a : Assign}
    (ha : a.code.toNat = startAt lent M L) (hfit : startAt lent M L ≤ 2 ^ L) :
    (assignFrom lent L a = none ∧ ¬ BucketsFit lent M L)
      ∨ ∃ b, assignFrom lent L a = some b ∧ BucketsFit lent M L ∧ AssignedUpTo lent M L a.table b.table := by
  induction L generalizing a with
  | zero =>
    refine Or.inr ⟨a, rfl, fun l h1 h0 => absurd (h1.trans h0) (by decide), fun x hx h0 => ?_, fun _ _ => rfl⟩
    exact absurd ((one_le_length_of_coded hx).trans h0) (by decide)
  | succ L ih =>
    rcases assignBucket_symbols_cases hM hL ha hfit with ⟨h, hfull⟩ | ⟨b, h, hroom, hcode, hnext, hvalue, hother⟩
    · exact Or.inl ⟨by rw [assignFrom, h], fun hall => (hall _ (Nat.succ_pos L) le_rfl).not_gt hfull⟩
    have hstep : assignFrom lent (L + 1) a = assignFrom lent L (levelUp b) := by rw [assignFrom, h]
    rcases ih (Nat.le_of_succ_le hL) hcode hnext with ⟨hrest, hbad⟩ | ⟨c, hrest, hgood, hdone, hkept⟩
    · exact Or.inl ⟨hstep.trans hrest, fun hall => hbad fun l h1 hl => hall l h1 (Nat.le_succ_of_le hl)⟩
    refine Or.inr ⟨c, hstep.trans hrest, fun l h1 hl => ?_, fun x hx hlen => ?_, fun x hx => ?_⟩
    · rcases Nat.le_succ_iff.1 hl with hl | rfl
      · exact hgood l h1 hl
      · exact hroom
    · rcases Nat.le_succ_iff.1 hlen with hlen | hlen
      · exact hdone x hx hlen
      · rw [hkept x fun hx' => (hlen ▸ hx'.2).not_gt (Nat.lt_succ_self L)]
        exact hvalue x hx hlen
    · rw [hkept x fun hx' => hx ⟨hx'.1, Nat.le_succ_of_le hx'.2⟩]
      exact hother x fun hx' => hx ⟨hx'.1, hx'.2.le⟩

end Sys2Proof.Machine
end

section
/-! SUPPORT. The Kraft sum over the lengths from `L` up, and the counter of R115 as its size in nodes of depth `L`, rounded
up (R116). -/

namespace Sys2Proof.Machine

open Sys2Proof.Safety

/-- What a symbol adds to the Kraft sum over the lengths from `L` up. -/
def kraftTerm (lent : Table 8) (L x : Nat) : Nat :=
  if (tableGet lent x).toNat < L then 0 else 2 ^ (Config.lmax - (tableGet lent x).toNat)

/-- The Kraft sum over the lengths from `L` up, as a multiple of `2^-255`. -/
def kraftFrom (lent : Table 8) (L : Nat) : Nat := (symbols.map (kraftTerm lent L)).sum

theorem kraftFrom_one (lent : Table 8) : kraftFrom lent 1 = kraftSum lent := by
  unfold kraftFrom kraftSum kraftTerm
  simp only [Nat.lt_one_iff, ← BitVec.toNat_inj, BitVec.ofNat_eq_ofNat, BitVec.toNat_ofNat, Nat.zero_mod]

theorem kraftFrom_eq_zero {lent : Table 8} {L : Nat} (h : ∀ x, x ≤ Config.endSym → (tableGet lent x).toNat < L) :
    kraftFrom lent L = 0 := by
  refine List.sum_eq_zero fun n hn => ?_
  obtain ⟨x, hx, rfl⟩ := List.mem_map.1 hn
  exact if_pos (h x (mem_symbols.1 hx))

/-- The bucket of length `L` adds its count of nodes of depth `L`. -/
theorem kraftFrom_eq_add (lent : Table 8) (L : Nat) :
    kraftFrom lent L = kraftFrom lent (L + 1) + countOfLength lent L Config.nsym * 2 ^ (Config.lmax - L) := by
  have key : ∀ l : List Nat, (l.map (kraftTerm lent L)).sum = (l.map (kraftTerm lent (L + 1))).sum
      + (l.filter fun x => (tableGet lent x).toNat = L).length * 2 ^ (Config.lmax - L) := by
    intro l
    induction l with
    | nil => simp
    | cons x rest ih =>
      have hterm : kraftTerm lent L x
          = kraftTerm lent (L + 1) x + if (tableGet lent x).toNat = L then 2 ^ (Config.lmax - L) else 0 := by
        unfold kraftTerm
        rcases lt_trichotomy (tableGet lent x).toNat L with h | h | h
        · rw [if_pos h, if_pos (Nat.lt_succ_of_lt h), if_neg h.ne]
        · rw [if_neg h.not_lt, if_pos (Nat.lt_succ_of_le h.le), if_pos h, h, Nat.zero_add]
        · rw [if_neg h.not_gt, if_neg (Nat.not_lt.2 h), if_neg h.ne', Nat.add_zero]
      rw [List.map_cons, List.sum_cons, List.map_cons, List.sum_cons, ih, hterm, List.filter_cons]
      by_cases h : (tableGet lent x).toNat = L
      · simp only [h, if_true, decide_true, List.length_cons]
        ring
      · simp only [h, if_false, decide_false, Bool.false_eq_true]
        ring
  exact key symbols

theorem kraftFrom_antitone (lent : Table 8) : Antitone (kraftFrom lent) :=
  antitone_nat_of_succ_le fun L => (Nat.le_add_right _ _).trans (kraftFrom_eq_add lent L).ge

theorem pow_sub_eq_two_mul {L : Nat} (h : L + 1 ≤ Config.lmax) :
    2 ^ (Config.lmax - L) = 2 * 2 ^ (Config.lmax - (L + 1)) := by
  rw [← pow_succ']
  congr 1
  omega

theorem pow_mul_pow_sub {L : Nat} (h : L ≤ Config.lmax) : 2 ^ L * 2 ^ (Config.lmax - L) = kraftOne := by
  rw [← pow_add, Nat.add_sub_cancel' h, kraftOne]

section Within

variable {lent : Table 8} {M : Nat} (hM : M ≤ Config.lmax)
  (hmax : ∀ x, x ≤ Config.endSym → (tableGet lent x).toNat ≤ M)

theorem startAt_le_usedAt (L : Nat) : startAt lent M L ≤ usedAt lent M L := Nat.le_add_right _ _

include hM hmax

/-- R116: the bucket of length `L` begins at the first node of depth `L` clear of the longer codewords. -/
theorem startAt_bounds {L : Nat} (hL : L ≤ M) :
    kraftFrom lent (L + 1) ≤ startAt lent M L * 2 ^ (Config.lmax - L)
      ∧ startAt lent M L * 2 ^ (Config.lmax - L) < kraftFrom lent (L + 1) + 2 ^ (Config.lmax - L) := by
  induction hL using Nat.decreasingInduction with
  | self =>
    rw [startAt_self, kraftFrom_eq_zero fun x hx => Nat.lt_succ_of_le (hmax x hx)]
    simp
  | of_succ L hL ih =>
    rw [kraftFrom_eq_add lent (L + 1), pow_sub_eq_two_mul (hL.trans_le hM), startAt_of_lt hL, usedAt]
    generalize 2 ^ (Config.lmax - (L + 1)) = q at *
    generalize countOfLength lent (L + 1) Config.nsym = c at *
    generalize startAt lent M (L + 1) = u at *
    obtain ⟨hlow, hhigh⟩ := ih
    have hup : (u + c) * q ≤ (u + c + 1) / 2 * 2 * q := Nat.mul_le_mul_right q (by omega)
    have hdown : (u + c + 1) / 2 * 2 * q ≤ (u + c + 1) * q := Nat.mul_le_mul_right q (by omega)
    constructor <;> linarith

/-- R116: the same when the bucket has been served. -/
theorem usedAt_bounds {L : Nat} (hL : L ≤ M) :
    kraftFrom lent L ≤ usedAt lent M L * 2 ^ (Config.lmax - L)
      ∧ usedAt lent M L * 2 ^ (Config.lmax - L) < kraftFrom lent L + 2 ^ (Config.lmax - L) := by
  obtain ⟨hlow, hhigh⟩ := startAt_bounds hM hmax hL
  rw [kraftFrom_eq_add lent L, usedAt, Nat.add_mul]
  omega

theorem usedAt_le_iff {L : Nat} (hL : L ≤ M) : usedAt lent M L ≤ 2 ^ L ↔ kraftFrom lent L ≤ kraftOne := by
  obtain ⟨hlow, hhigh⟩ := usedAt_bounds hM hmax hL
  rw [← pow_mul_pow_sub (hL.trans hM)]
  constructor
  · exact fun h => hlow.trans (Nat.mul_le_mul_right _ h)
  · intro h
    have hlt : usedAt lent M L * 2 ^ (Config.lmax - L) < (2 ^ L + 1) * 2 ^ (Config.lmax - L) := by
      rw [Nat.add_mul, Nat.one_mul]
      omega
    exact Nat.lt_succ_iff.1 (Nat.lt_of_mul_lt_mul_right hlt)

/-- R118: the check of `ASG` is exact. -/
theorem bucketsFit_iff : BucketsFit lent M M ↔ kraftSum lent ≤ kraftOne := by
  rw [← kraftFrom_one]
  constructor
  · intro h
    rcases Nat.eq_zero_or_pos M with hzero | hpos
    · rw [kraftFrom_eq_zero fun x hx => Nat.lt_succ_of_le (hzero ▸ hmax x hx)]
      exact Nat.zero_le _
    · exact (usedAt_le_iff hM hmax hpos).1 (h 1 le_rfl hpos)
  · exact fun h l h1 hl => (usedAt_le_iff hM hmax hl).2 ((kraftFrom_antitone lent h1).trans h)

end Within

end Sys2Proof.Machine
end

section
/-! SUPPORT. What `ASG` does (R115, R118), by the Kraft sum of the lengths. -/

namespace Sys2Proof.Machine

open Sys2Proof.Safety

/-- R81: the row of `ASG`. -/
theorem legal_asg_iff {p : Phase} : legal .asg p = true ↔ p = .lens ∨ p = .hdrDone := by
  simp [legal, legalPhases]

theorem length_le_maxlen_of_coded {s : State} (hmax : MaxLenRight s) {x : Nat} (hx : Coded s.lent x) :
    (tableGet s.lent x).toNat ≤ s.maxlen.toNat := hmax.1 x hx.1

theorem maxlen_le_lmax (s : State) : s.maxlen.toNat ≤ Config.lmax := by
  have := s.maxlen.isLt
  simp only [Config.lmax]
  omega

/-- R115, R118: the assignment fails exactly when the Kraft sum is above 1, else it gives the values of R115. -/
theorem canonicalCodes_cases {s : State} (hmax : MaxLenRight s) :
    (canonicalCodes s.lent s.maxlen s.code = none ∧ kraftOne < kraftSum s.lent)
      ∨ ∃ table, canonicalCodes s.lent s.maxlen s.code = some table ∧ kraftSum s.lent ≤ kraftOne
        ∧ CodesAssigned s.lent s.maxlen.toNat table
        ∧ ∀ x, ¬ Coded s.lent x → tableGet table x = tableGet s.code x := by
  have hfits := bucketsFit_iff (maxlen_le_lmax s) hmax.1
  rcases assignFrom_cases (lent := s.lent) (a := { code := 0, table := s.code }) (maxlen_le_lmax s) le_rfl
      (startAt_self _ _).symm ((startAt_self _ _).trans_le (Nat.zero_le _)) with ⟨h, hbad⟩ | ⟨b, h, hgood, hdone, hkept⟩
  · exact Or.inl ⟨by rw [canonicalCodes, h]; rfl, Nat.lt_of_not_le fun hle => hbad (hfits.2 hle)⟩
  · exact Or.inr ⟨b.table, by rw [canonicalCodes, h]; rfl, hfits.1 hgood,
      fun x hx => hdone x hx (length_le_maxlen_of_coded hmax hx), fun x hx => hkept x fun hx' => hx hx'.1⟩

/-- R115: `ASG` where the lengths do not over-subscribe the code space. -/
theorem exec_asg_of_kraft_le {s : State} (hp : s.phase = .lens ∨ s.phase = .hdrDone) (hmax : MaxLenRight s)
    (hkraft : kraftSum s.lent ≤ kraftOne) :
    ∃ table, exec .asg s = .next { s with code := table, phase := if s.phase = .lens then .codes else .dcodes }
      ∧ CodesAssigned s.lent s.maxlen.toNat table ∧ ∀ x, ¬ Coded s.lent x → tableGet table x = tableGet s.code x := by
  rcases canonicalCodes_cases hmax with ⟨-, hgt⟩ | ⟨table, h, -, hassigned, hkept⟩
  · exact absurd hkraft hgt.not_ge
  · exact ⟨table, by rw [exec_of_legal (legal_asg_iff.2 hp), bodyOf, asgBody, h], hassigned, hkept⟩

/-- R118: `ASG` where they do. -/
theorem exec_asg_of_kraft_gt {s : State} (hp : s.phase = .lens ∨ s.phase = .hdrDone) (hmax : MaxLenRight s)
    (hkraft : kraftOne < kraftSum s.lent) : exec .asg s = .next (raise .corruptHeader (encodeWord .asg) s) := by
  rcases canonicalCodes_cases hmax with ⟨h, -⟩ | ⟨table, -, hle, -, -⟩
  · rw [exec_of_legal (legal_asg_iff.2 hp), bodyOf, asgBody, h]
  · exact absurd hle hkraft.not_ge

end Sys2Proof.Machine
end

section
/-! SUPPORT. `LEN` on the END leaf alone (R112). -/

namespace Sys2Proof.Machine

theorem codewordLengths_of_end {s : State} (hroot : s.root.toNat = Config.endSym) :
    codewordLengths s = [(Config.endSym, 1)] := if_pos hroot

end Sys2Proof.Machine
end

section
/-! SUPPORT. Bit strings as numbers (R6, R21). -/

namespace Sys2Proof.Machine

open Sys2Proof.Safety

@[simp] theorem bitsValue_nil : bitsValue [] = 0 := rfl

theorem bitsValue_concat (l : List Bool) (b : Bool) : bitsValue (l ++ [b]) = 2 * bitsValue l + b.toNat := by
  simp [bitsValue, List.foldl_append]

theorem bitsValue_cons (b : Bool) (l : List Bool) : bitsValue (b :: l) = b.toNat * 2 ^ l.length + bitsValue l := by
  induction l using List.reverseRecOn with
  | nil => simp [bitsValue]
  | append_singleton l c ih =>
    rw [← List.cons_append, bitsValue_concat, ih, bitsValue_concat, List.length_append, List.length_singleton, pow_succ]
    ring

theorem bitsValue_lt (l : List Bool) : bitsValue l < 2 ^ l.length := by
  induction l with
  | nil => simp
  | cons b l ih =>
    rw [bitsValue_cons, List.length_cons, pow_succ]
    cases b <;> simp <;> omega

theorem bitsValue_inj {l l' : List Bool} (hlen : l.length = l'.length) (h : bitsValue l = bitsValue l') : l = l' := by
  induction l generalizing l' with
  | nil => exact (List.length_eq_zero_iff.1 hlen.symm).symm
  | cons b l ih =>
    cases l' with
    | nil => cases hlen
    | cons b' l' =>
      have hlen' : l.length = l'.length := Nat.succ.inj hlen
      have hl := bitsValue_lt l
      have hl' := bitsValue_lt l'
      rw [bitsValue_cons, bitsValue_cons, hlen'] at h
      rw [hlen'] at hl
      have hb : b = b' := by
        cases b <;> cases b' <;> simp at h ⊢ <;> omega
      rw [hb, ih hlen' (by rw [hb] at h; exact Nat.add_left_cancel h)]

theorem bitsValue_bitsMsb {w : Nat} (c : BitVec w) (n : Nat) : bitsValue (bitsMsb c n) = c.toNat % 2 ^ n := by
  induction n with
  | zero => simp [bitsMsb, Nat.mod_one]
  | succ n ih =>
    rw [bitsMsb, bitsValue_cons, ih, bitsMsb_length, Nat.mod_pow_succ, BitVec.getLsbD, Nat.toNat_testBit]
    ring

theorem bitsMsb_append {w : Nat} (c : BitVec w) (n k : Nat) : bitsMsb c (n + k) = bitsMsb (c >>> k) n ++ bitsMsb c k := by
  induction n with
  | zero => simp [bitsMsb]
  | succ n ih => rw [Nat.succ_add, bitsMsb, ih, bitsMsb, BitVec.getLsbD_ushiftRight, Nat.add_comm k n, List.cons_append]

theorem bitsMsb_zero (w n : Nat) : bitsMsb (0 : BitVec w) n = List.replicate n false := by
  induction n with
  | zero => rfl
  | succ n ih =>
    rw [bitsMsb, ih, List.replicate_succ]
    simp

/-- The bits of the value of a bit string are that string. -/
theorem bitsMsb_eq_of_toNat {w : Nat} {c : BitVec w} {l : List Bool} (h : c.toNat = bitsValue l) :
    bitsMsb c l.length = l := by
  refine bitsValue_inj (bitsMsb_length c _) ?_
  rw [bitsValue_bitsMsb, h, Nat.mod_eq_of_lt (bitsValue_lt l)]

/-- A bit string of `n` bits that begins another holds its value without the bits after it. -/
theorem toNat_eq_div_of_bitsMsb_prefix {w n m : Nat} {c d : BitVec w} (h : bitsMsb c n <+: bitsMsb d m)
    (hc : c.toNat < 2 ^ n) (hd : d.toNat < 2 ^ m) : n ≤ m ∧ c.toNat = d.toNat / 2 ^ (m - n) := by
  have hle : n ≤ m := by simpa using h.length_le
  refine ⟨hle, ?_⟩
  have hsplit : bitsMsb d m = bitsMsb (d >>> (m - n)) n ++ bitsMsb d (m - n) := by
    rw [← bitsMsb_append, Nat.add_sub_cancel' hle]
  have heq : bitsMsb c n = bitsMsb (d >>> (m - n)) n :=
    (List.prefix_of_prefix_length_le h (hsplit ▸ List.prefix_append _ _) (by simp)).eq_of_length (by simp)
  have hval := congrArg bitsValue heq
  have hquot : d.toNat / 2 ^ (m - n) < 2 ^ n := by
    rw [Nat.div_lt_iff_lt_mul (Nat.two_pow_pos _), ← pow_add, Nat.add_sub_cancel' hle]
    exact hd
  rwa [bitsValue_bitsMsb, bitsValue_bitsMsb, Nat.mod_eq_of_lt hc, BitVec.toNat_ushiftRight, Nat.shiftRight_eq_div_pow,
    Nat.mod_eq_of_lt hquot] at hval

theorem bitsValue_take_succ_le {bits : List Bool} {n : Nat} (h : n < bits.length) :
    bitsValue (bits.take (n + 1)) ≤ 2 * bitsValue (bits.take n) + 1 := by
  rw [List.take_succ_eq_append_getElem h, bitsValue_concat]
  exact Nat.add_le_add_left (Bool.toNat_le _) _

end Sys2Proof.Machine
end

section
/-! SUPPORT. The rank of a symbol among those of its length (R115), as mathlib's count. -/

namespace Sys2Proof.Machine

open Sys2Proof.Safety

theorem countOfLength_eq_count (lent : Table 8) (L n : Nat) :
    countOfLength lent L n = Nat.count (fun x => (tableGet lent x).toNat = L) n := by
  rw [countOfLength, Nat.count, List.countP_eq_length_filter]

theorem countOfLength_mono (lent : Table 8) (L : Nat) : Monotone (countOfLength lent L) := by
  intro m n h
  simp only [countOfLength_eq_count]
  exact Nat.count_monotone _ h

theorem countOfLength_lt {lent : Table 8} {x n : Nat} (h : x < n) :
    countOfLength lent (tableGet lent x).toNat x < countOfLength lent (tableGet lent x).toNat n := by
  simp only [countOfLength_eq_count]
  exact Nat.count_strict_mono rfl h

theorem countOfLength_inj {lent : Table 8} {x y : Nat} (hlen : (tableGet lent y).toNat = (tableGet lent x).toNat)
    (h : countOfLength lent (tableGet lent x).toNat x = countOfLength lent (tableGet lent x).toNat y) : x = y := by
  simp only [countOfLength_eq_count] at h
  exact Nat.count_injective (p := fun z => (tableGet lent z).toNat = (tableGet lent x).toNat) rfl hlen h

/-- Every rank below the count is some symbol's. -/
theorem exists_of_lt_countOfLength {lent : Table 8} {L i n : Nat} (h : i < countOfLength lent L n) :
    ∃ x, x < n ∧ (tableGet lent x).toNat = L ∧ countOfLength lent L x = i := by
  simp only [countOfLength_eq_count] at h ⊢
  have hcard := fun hf => h.trans_le (Nat.count_le_card hf n)
  exact ⟨_, Nat.nth_lt_of_lt_count h, Nat.nth_mem i hcard, Nat.count_nth hcard⟩

end Sys2Proof.Machine
end

section
/-! SUPPORT. The buckets side by side, as nodes of depth 255 (R116, R117): a shorter bucket begins where the longer ones
end, and with Kraft sum 1 exactly there. -/

namespace Sys2Proof.Machine

open Sys2Proof.Safety

section Buckets

variable {lent : Table 8} {M : Nat} (hM : M ≤ Config.lmax)
include hM

/-- R116: the level-up leaves no node in use behind. -/
theorem usedAt_aligned_le {N : Nat} (hN : N + 1 ≤ M) {L : Nat} (hL : L ≤ N) :
    usedAt lent M (N + 1) * 2 ^ (Config.lmax - (N + 1)) ≤ startAt lent M L * 2 ^ (Config.lmax - L) := by
  have hstep : ∀ K, K + 1 ≤ M →
      usedAt lent M (K + 1) * 2 ^ (Config.lmax - (K + 1)) ≤ startAt lent M K * 2 ^ (Config.lmax - K) := by
    intro K hK
    rw [pow_sub_eq_two_mul (hK.trans hM), ← mul_assoc, startAt_of_lt hK]
    exact Nat.mul_le_mul_right _ (by omega)
  induction hL using Nat.decreasingInduction with
  | self => exact hstep N hN
  | of_succ K hK ih =>
    calc usedAt lent M (N + 1) * 2 ^ (Config.lmax - (N + 1))
        ≤ startAt lent M (K + 1) * 2 ^ (Config.lmax - (K + 1)) := ih
      _ ≤ usedAt lent M (K + 1) * 2 ^ (Config.lmax - (K + 1)) := Nat.mul_le_mul_right _ (startAt_le_usedAt _)
      _ ≤ startAt lent M K * 2 ^ (Config.lmax - K) := hstep K ((Nat.succ_le_of_lt hK).trans (Nat.le_of_succ_le hN))

variable (hmax : ∀ x, x ≤ Config.endSym → (tableGet lent x).toNat ≤ M) (hone : kraftSum lent = kraftOne)

omit hM in
include hone in
/-- With Kraft sum 1 the longer codewords fill whole nodes of depth `L`. -/
theorem pow_dvd_kraftFrom (L : Nat) : 2 ^ (Config.lmax - L) ∣ kraftFrom lent (L + 1) := by
  induction L with
  | zero => rw [kraftFrom_one, hone]; exact dvd_rfl
  | succ L ih =>
    rw [kraftFrom_eq_add] at ih
    exact (Nat.dvd_add_left (Dvd.intro_left _ rfl)).1 ((pow_dvd_pow 2 (by omega)).trans ih)

include hmax hone

/-- With Kraft sum 1 the rounding of R116 rounds nothing. -/
theorem startAt_exact {L : Nat} (hL : L ≤ M) : startAt lent M L * 2 ^ (Config.lmax - L) = kraftFrom lent (L + 1) := by
  obtain ⟨k, hk⟩ := pow_dvd_kraftFrom hone L
  obtain ⟨hlow, hhigh⟩ := startAt_bounds hM hmax hL
  rw [hk, mul_comm] at hlow
  rw [hk, mul_comm _ k, ← Nat.succ_mul] at hhigh
  have hle := Nat.le_of_mul_le_mul_right hlow (Nat.two_pow_pos _)
  have hlt := Nat.lt_of_mul_lt_mul_right hhigh
  rw [hk, mul_comm, Nat.le_antisymm (Nat.le_of_lt_succ hlt) hle]

theorem startAt_zero : startAt lent M 0 = 1 := by
  have h := startAt_exact hM hmax hone (Nat.zero_le M)
  rw [kraftFrom_one, hone, kraftOne] at h
  exact Nat.eq_of_mul_eq_mul_right (Nat.two_pow_pos _) (h.trans (Nat.one_mul _).symm)

theorem usedAt_succ {L : Nat} (hL : L + 1 ≤ M) : usedAt lent M (L + 1) = 2 * startAt lent M L := by
  have hlong := startAt_exact hM hmax hone hL
  have hshort := startAt_exact hM hmax hone (Nat.le_of_succ_le hL)
  rw [kraftFrom_eq_add, ← hlong, ← Nat.add_mul, pow_sub_eq_two_mul (hL.trans hM), ← mul_assoc] at hshort
  exact (Nat.eq_of_mul_eq_mul_right (Nat.two_pow_pos _) hshort).symm.trans (Nat.mul_comm _ _)

/-- With Kraft sum 1 a long enough bit string falls into a bucket: where its first `L` bits name a node above longer
codewords, the next bit leads to another such node or to a value of the bucket below. -/
theorem exists_bucket_of_lt {bits : List Bool} (hbits : M ≤ bits.length) {L : Nat} (hL : L ≤ M)
    (hlt : bitsValue (bits.take L) < startAt lent M L) :
    ∃ N, L < N ∧ N ≤ M ∧ startAt lent M N ≤ bitsValue (bits.take N) ∧ bitsValue (bits.take N) < usedAt lent M N := by
  induction hL using Nat.decreasingInduction with
  | self => rw [startAt_self] at hlt; exact absurd hlt (Nat.not_lt_zero _)
  | of_succ L hL ih =>
    have hused : bitsValue (bits.take (L + 1)) < usedAt lent M (L + 1) := by
      have := bitsValue_take_succ_le (hL.trans_le hbits)
      rw [usedAt_succ hM hmax hone hL]
      omega
    rcases Nat.lt_or_ge (bitsValue (bits.take (L + 1))) (startAt lent M (L + 1)) with h | h
    · obtain ⟨N, hN, hrest⟩ := ih h
      exact ⟨N, Nat.lt_of_succ_lt hN, hrest⟩
    · exact ⟨L + 1, Nat.lt_succ_self L, hL, h, hused⟩

end Buckets

end Sys2Proof.Machine
end

section
/-! SUPPORT. What a table of R115's values has (R117, R170, R171), whatever computed it. -/

namespace Sys2Proof.Machine

open Sys2Proof.Safety

section CodeTable

variable {lent : Table 8} {M : Nat} {code : Table Config.codeW} (hcode : CodesAssigned lent M code)
include hcode

/-- R115: a value lies in its bucket. -/
theorem code_bounds {a : Nat} (ha : Coded lent a) :
    startAt lent M (tableGet lent a).toNat ≤ (tableGet code a).toNat
      ∧ (tableGet code a).toNat < usedAt lent M (tableGet lent a).toNat := by
  rw [hcode a ha, canonicalValue_eq, usedAt]
  exact ⟨Nat.le_add_right _ _, Nat.add_lt_add_left (countOfLength_lt (Nat.lt_succ_of_le ha.1)) _⟩

theorem code_lt_of_lt {a b : Nat} (ha : Coded lent a) (hb : Coded lent b) (hab : a < b)
    (hlen : tableGet lent a = tableGet lent b) : (tableGet code a).toNat < (tableGet code b).toNat := by
  rw [hcode a ha, hcode b hb, canonicalValue_eq, canonicalValue_eq, ← hlen]
  exact Nat.add_lt_add_left (countOfLength_lt hab) _

theorem code_inj {a b : Nat} (ha : Coded lent a) (hb : Coded lent b) (hlen : tableGet lent a = tableGet lent b)
    (h : (tableGet code a).toNat = (tableGet code b).toNat) : a = b := by
  rw [hcode a ha, hcode b hb, canonicalValue_eq, canonicalValue_eq, ← hlen] at h
  exact countOfLength_inj (congrArg BitVec.toNat hlen.symm) (Nat.add_left_cancel h)

/-- R117 (a). -/
theorem canonicalOrder_of_assigned : CanonicalOrder lent code := by
  intro a b ha hb hlen hab
  have hle := countOfLength_mono lent (tableGet lent a).toNat hab.le
  rw [hcode a ha, hcode b hb, canonicalValue_eq, canonicalValue_eq, ← hlen]
  omega

/-- R117 (e): the all-zero string of length `MAXLEN` is a codeword. -/
theorem exists_zero_codeword (hattained : ∃ x, x ≤ Config.endSym ∧ (tableGet lent x).toNat = M) (hpos : M ≠ 0) :
    ∃ a, Coded lent a ∧ codewordOf lent code a = List.replicate M false := by
  obtain ⟨x, hx, hlen⟩ := hattained
  have hsome : 0 < countOfLength lent M Config.nsym := by
    have := countOfLength_lt (lent := lent) (Nat.lt_succ_of_le hx)
    rw [hlen] at this
    exact Nat.zero_lt_of_lt this
  obtain ⟨a, ha, halen, hrank⟩ := exists_of_lt_countOfLength hsome
  have hcoded : Coded lent a := ⟨Nat.le_of_lt_succ ha, fun e => hpos (by rw [← halen, e]; rfl)⟩
  have hzero : tableGet code a = 0 :=
    BitVec.eq_of_toNat_eq (by rw [hcode a hcoded, canonicalValue_eq, halen, startAt_self, hrank]; rfl)
  exact ⟨a, hcoded, by rw [codewordOf, hzero, halen, bitsMsb_zero]⟩

variable (hM : M ≤ Config.lmax) (hmax : ∀ x, x ≤ Config.endSym → (tableGet lent x).toNat ≤ M)
include hM hmax

/-- R117 (e): aligned on the left, a longer codeword lies below a shorter one. -/
theorem aligned_lt_of_longer {a b : Nat} (ha : Coded lent a) (hb : Coded lent b)
    (hlen : (tableGet lent b).toNat < (tableGet lent a).toNat) :
    (tableGet code a).toNat * 2 ^ (Config.lmax - (tableGet lent a).toNat)
      < (tableGet code b).toNat * 2 ^ (Config.lmax - (tableGet lent b).toNat) := by
  obtain ⟨n, hn⟩ := Nat.exists_eq_succ_of_ne_zero (Nat.ne_zero_of_lt hlen)
  have haM := hmax a ha.1
  have hbelow := (code_bounds hcode ha).2
  rw [hn] at hlen haM hbelow ⊢
  calc (tableGet code a).toNat * 2 ^ (Config.lmax - (n + 1))
      < usedAt lent M (n + 1) * 2 ^ (Config.lmax - (n + 1)) := Nat.mul_lt_mul_of_pos_right hbelow (Nat.two_pow_pos _)
    _ ≤ startAt lent M (tableGet lent b).toNat * 2 ^ (Config.lmax - (tableGet lent b).toNat) :=
      usedAt_aligned_le hM haM (Nat.le_of_lt_succ hlen)
    _ ≤ _ := Nat.mul_le_mul_right _ (code_bounds hcode hb).1

/-- R117 (d): with Kraft sum 1 every long enough bit string begins with a codeword. -/
theorem exists_codeword_prefix (hone : kraftSum lent = kraftOne) {bits : List Bool} (hbits : M ≤ bits.length) :
    ∃ a, Coded lent a ∧ codewordOf lent code a <+: bits := by
  obtain ⟨L, hpos, hL, hlow, hhigh⟩ := exists_bucket_of_lt hM hmax hone hbits (Nat.zero_le M)
    (by rw [startAt_zero hM hmax hone]; exact Nat.one_pos)
  obtain ⟨a, ha, hlen, hrank⟩ := exists_of_lt_countOfLength (Nat.sub_lt_left_of_lt_add hlow hhigh)
  have hcoded : Coded lent a := ⟨Nat.le_of_lt_succ ha, fun e => hpos.ne (by rw [← hlen, e]; rfl)⟩
  have hvalue : (tableGet code a).toNat = bitsValue (bits.take L) := by
    rw [hcode a hcoded, canonicalValue_eq, hlen, hrank, Nat.add_sub_cancel' hlow]
  have hword : codewordOf lent code a = bits.take L := by
    have h := bitsMsb_eq_of_toNat hvalue
    rw [List.length_take_of_le (hL.trans hbits)] at h
    rw [codewordOf, hlen, h]
  exact ⟨a, hcoded, hword ▸ List.take_prefix L bits⟩

variable (hfit : kraftSum lent ≤ kraftOne)
include hfit

/-- R117 (c). -/
theorem codesInRange_of_assigned : CodesInRange lent code := fun a ha =>
  (code_bounds hcode ha).2.trans_le ((bucketsFit_iff hM hmax).2 hfit _ (one_le_length_of_coded ha) (hmax a ha.1))

/-- R117 (b): a codeword that began another of its length would have its value, and one that began a longer one would not
lie above it. -/
theorem prefixFree_of_assigned : PrefixFree lent code := by
  intro a b ha hb hne hprefix
  have hrange := codesInRange_of_assigned hcode hM hmax hfit
  obtain ⟨hle, hquot⟩ := toNat_eq_div_of_bitsMsb_prefix hprefix (hrange a ha) (hrange b hb)
  rcases hle.eq_or_lt with heq | hlt
  · rw [heq, Nat.sub_self, pow_zero, Nat.div_one] at hquot
    exact hne (code_inj hcode ha hb (BitVec.eq_of_toNat_eq heq) hquot)
  · have habove := aligned_lt_of_longer hcode hM hmax hb ha hlt
    have hmul : (tableGet code a).toNat * 2 ^ ((tableGet lent b).toNat - (tableGet lent a).toNat)
        ≤ (tableGet code b).toNat := hquot ▸ Nat.div_mul_le_self _ _
    have hexp : Config.lmax - (tableGet lent a).toNat
        = ((tableGet lent b).toNat - (tableGet lent a).toNat) + (Config.lmax - (tableGet lent b).toNat) := by
      have := (hmax b hb.1).trans hM
      omega
    rw [hexp, pow_add, ← mul_assoc] at habove
    exact (Nat.mul_le_mul_right _ hmul).not_gt habove

/-- R117 (d): the codeword is the only one. -/
theorem existsUnique_codeword_prefix (hone : kraftSum lent = kraftOne) {bits : List Bool} (hbits : M ≤ bits.length) :
    ∃! a, Coded lent a ∧ codewordOf lent code a <+: bits := by
  have hfree := prefixFree_of_assigned hcode hM hmax hfit
  obtain ⟨a, ha, hprefix⟩ := exists_codeword_prefix hcode hM hmax hone hbits
  refine ⟨a, ⟨ha, hprefix⟩, fun b ⟨hb, hprefix'⟩ => ?_⟩
  by_contra hne
  rcases List.prefix_or_prefix_of_prefix hprefix' hprefix with h | h
  · exact hfree b a hb ha hne h
  · exact hfree a b ha hb (Ne.symm hne) h

end CodeTable

end Sys2Proof.Machine
end

section
/-! The statements of 43_canonicalizer.md, settled. -/

namespace Sys2Proof.Proofs

open Sys2Proof.Machine Sys2Proof.Safety

/-- Settles O27: the walk lists END alone, with the length 1 (R112). -/
theorem lenOfTheSingleLeaf : Obligations.LenOfTheSingleLeaf := by
  intro s hp hroot
  have hlist := codewordLengths_of_end hroot
  have hones : ∀ p ∈ codewordLengths s, p.2 = 1 := by simp [hlist]
  have hlent : ∀ x, tableGet (lengthTable (codewordLengths s)) x = if x = Config.endSym then 1 else 0 := fun x => by
    rw [tableGet_lengthTable_ones hones, hlist]
    simp
  have hend := (hlent Config.endSym).trans (if_pos rfl)
  have hmax : maxLength (lengthTable (codewordLengths s)) = 1 := by
    refine maxLength_eq_one le_rfl hend fun x => ?_
    rw [hlent]
    split
    · exact Or.inr rfl
    · exact Or.inl rfl
  exact ⟨_, exec_len_of_fits hp fun p hpd => (hones p hpd).trans_le (by decide), hend,
    fun x hx => (hlent x).trans (if_neg hx), by simpa only using hmax, rfl, rfl, rfl,
    fun _ => ⟨rfl, rfl, rfl⟩, ⟨rfl, rfl⟩, ⟨rfl, rfl⟩, rfl, ⟨rfl, rfl, rfl, rfl⟩, ⟨rfl, rfl⟩, rfl, ⟨rfl, rfl⟩, rfl, rfl⟩

/-- Settles O29: the counter before and after each bucket is the Kraft sum of the longer lengths in nodes of that depth,
rounded up, so every bucket fits exactly when the whole sum is at most 1. -/
theorem asgAssignsCanonicalValues : Obligations.AsgAssignsCanonicalValues := by
  refine ⟨⟨rfl, fun p => decide_eq_true_iff⟩, fun s hp hmax => ⟨fun hkraft => ?completes, fun hkraft => ?faults⟩⟩
  case completes =>
    obtain ⟨table, h, hassigned, hkept⟩ := exec_asg_of_kraft_le hp hmax hkraft
    exact ⟨_, h, hassigned, hkept, fun hl => if_pos hl, fun hd => if_neg (by rw [hd]; decide), ⟨rfl, rfl⟩, ⟨rfl, rfl⟩,
      ⟨rfl, rfl, rfl, rfl, rfl⟩, ⟨rfl, rfl⟩, ⟨rfl, rfl, rfl, rfl⟩, ⟨rfl, rfl⟩, rfl, ⟨rfl, rfl⟩, rfl, rfl⟩
  case faults => exact ⟨_, exec_asg_of_kraft_gt hp hmax hkraft, rfl⟩

/-- Settles O30: `ASG` completes only where the values of R115 fit, and those have every property. -/
theorem asgTableProperties : Obligations.AsgTableProperties := by
  intro s t hp hmaxlen hexec hphase
  have hM := maxlen_le_lmax s
  obtain ⟨hmax, hattained⟩ := hmaxlen
  rcases Nat.lt_or_ge kraftOne (kraftSum s.lent) with hgt | hfit
  · obtain rfl : raise .corruptHeader (encodeWord .asg) s = t :=
      Host.Outcome.next.inj ((exec_asg_of_kraft_gt hp ⟨hmax, hattained⟩ hgt).symm.trans hexec)
    exact absurd (raise_phase _ _ _) hphase
  obtain ⟨table, h, hcode, -⟩ := exec_asg_of_kraft_le hp ⟨hmax, hattained⟩ hfit
  obtain rfl := Host.Outcome.next.inj (h.symm.trans hexec)
  refine ⟨canonicalOrder_of_assigned hcode, prefixFree_of_assigned hcode hM hmax hfit,
    codesInRange_of_assigned hcode hM hmax hfit, fun a b => code_lt_of_lt hcode, ?encodeFlow, ?complete,
    fun a b => aligned_lt_of_longer hcode hM hmax, ?zero⟩
  case encodeFlow =>
    intro hflow hlens hpresent
    obtain ⟨-, -, hone⟩ := hflow.encodeLengths (by rw [hlens]; decide)
    exact hone hpresent
  case complete =>
    exact fun hone => ⟨fun bits hbits => existsUnique_codeword_prefix hcode hM hmax hfit hone hbits,
      startAt_zero hM hmax hone⟩
  case zero =>
    intro hne
    obtain ⟨x, hx, hlen⟩ := hattained hne
    exact exists_zero_codeword hcode ⟨x, hx, congrArg BitVec.toNat hlen⟩
      fun e => hne (BitVec.eq_of_toNat_eq e)

end Sys2Proof.Proofs
end

section
/-! SUPPORT. What `WHD` and `RHB` do (R125 to R128): the bytes of the header as numbers, and the five cases of `RHB` by the
numeric value of `HPOS` and of the size. -/

namespace Sys2Proof.Machine

/-! ### The two bytes of a 16-bit size -/

theorem opField_eq_ofNat (w : Word) : opField w = BitVec.ofNat 8 (w.toNat / 256) := by
  rw [← opField_toNat, BitVec.ofNat_toNat, BitVec.setWidth_eq]

theorem argField_eq_ofNat (w : Word) : argField w = BitVec.ofNat 8 (w.toNat % 256) := by
  rw [← argField_toNat, BitVec.ofNat_toNat, BitVec.setWidth_eq]

/-! ### WHD -/

/-- R81: the row of `WHD`. -/
theorem legal_whd_iff {p : Phase} : legal .whd p = true ↔ p = .codes := by simp [legal, legalPhases]

/-- R65, R125: the header with its size as a number. -/
theorem headerBytes_eq (lent : Table 8) :
    headerBytes lent
      = [BitVec.ofNat 8 (((codedBytes lent).length + 1) / 256), BitVec.ofNat 8 (((codedBytes lent).length + 1) % 256),
          tableGet lent Config.endSym]
        ++ (codedBytes lent).flatMap fun x => [BitVec.ofNat 8 x, tableGet lent x] := by
  rw [← alphabetSize_toNat, ← opField_eq_ofNat, ← argField_eq_ofNat]
  rfl

theorem exec_whd {s : State} (hp : s.phase = .codes) : exec .whd s = .next (whdBody s) :=
  exec_of_legal (legal_whd_iff.2 hp)

@[simp] theorem whdBody_out (s : State) : (whdBody s).out = s.out ++ headerBytes s.lent := rfl

/-! ### RHB: the case that `HPOS` selects -/

/-- R81: the row of `RHB`. -/
theorem legal_rhb_iff {b : Byte} {p : Phase} : legal (.rhb b) p = true ↔ p = .idle ∨ p = .hdr := by
  simp [legal, legalPhases]

theorem exec_rhb (b : Byte) {s : State} (hp : s.phase = .idle ∨ s.phase = .hdr) :
    exec (.rhb b) s = .next (rhbBody b s) := exec_of_legal (legal_rhb_iff.2 hp)

theorem rhbBody_of_hpos_zero (b : Byte) {s : State} (h : s.hpos.toNat = 0) : rhbBody b s = rhbSizeHigh b s := by
  simpa [h] using rhbBody_cases b s

theorem rhbBody_of_hpos_one (b : Byte) {s : State} (h : s.hpos.toNat = 1) : rhbBody b s = rhbSizeLow b s := by
  simpa [h] using rhbBody_cases b s

theorem rhbBody_of_hpos_two (b : Byte) {s : State} (h : s.hpos.toNat = 2) : rhbBody b s = rhbEndLength b s := by
  simpa [h] using rhbBody_cases b s

theorem rhbBody_of_hpos_odd (b : Byte) {s : State} (h : 3 ≤ s.hpos.toNat) (hodd : s.hpos.toNat % 2 = 1) :
    rhbBody b s = rhbSymbol b s := by
  have h0 : s.hpos.toNat ≠ 0 := by omega
  have h1 : s.hpos.toNat ≠ 1 := by omega
  have h2 : s.hpos.toNat ≠ 2 := by omega
  simpa only [h0, h1, h2, h, hodd, false_and, false_or, true_and, and_false, or_false, Nat.one_ne_zero] using
    rhbBody_cases b s

theorem rhbBody_of_hpos_even (b : Byte) {s : State} (h : 4 ≤ s.hpos.toNat) (heven : s.hpos.toNat % 2 = 0) :
    rhbBody b s = rhbLength b s := by
  have h0 : s.hpos.toNat ≠ 0 := by omega
  have h1 : s.hpos.toNat ≠ 1 := by omega
  have h2 : s.hpos.toNat ≠ 2 := by omega
  simpa only [h0, h1, h2, h, heven, false_and, false_or, true_and, and_false, Nat.zero_ne_one] using rhbBody_cases b s

/-! ### RHB: the size -/

/-- R127: byte 0 writes the high byte of `HSIZE` and keeps the low one. -/
theorem rhbSizeHigh_hsize_div (b : Byte) (s : State) : (rhbSizeHigh b s).hsize.toNat / 256 = b.toNat := by
  rw [← opField_toNat]
  exact congrArg BitVec.toNat (opField_append b (argField s.hsize))

theorem rhbSizeHigh_hsize_mod (b : Byte) (s : State) :
    (rhbSizeHigh b s).hsize.toNat % 256 = s.hsize.toNat % 256 := by
  rw [← argField_toNat, ← argField_toNat]
  exact congrArg BitVec.toNat (argField_append b (argField s.hsize))

theorem sizeWithLow_toNat (b : Byte) (s : State) :
    (sizeWithLow b s).toNat = s.hsize.toNat / 256 * 256 + b.toNat :=
  calc (opField s.hsize ++ b : Word).toNat
    _ = 256 * (opField s.hsize).toNat + b.toNat := word_toNat ..
    _ = s.hsize.toNat / 256 * 256 + b.toNat := by rw [opField_toNat, Nat.mul_comm]

/-- R128: the sizes that are refused, as numbers. -/
theorem sizeWithLow_refused_iff (b : Byte) (s : State) :
    (sizeWithLow b s = 0 ∨ 257 < (sizeWithLow b s).toNat)
      ↔ s.hsize.toNat / 256 * 256 + b.toNat = 0 ∨ 257 < s.hsize.toNat / 256 * 256 + b.toNat := by
  rw [← sizeWithLow_toNat]
  exact or_congr_left BitVec.toNat_inj.symm

theorem rhbSizeLow_of_refused {b : Byte} {s : State}
    (h : s.hsize.toNat / 256 * 256 + b.toNat = 0 ∨ 257 < s.hsize.toNat / 256 * 256 + b.toNat) :
    rhbSizeLow b s = raise .corruptHeader (encodeWord (.rhb b)) s := if_pos ((sizeWithLow_refused_iff b s).2 h)

theorem rhbSizeLow_of_accepted {b : Byte} {s : State} (hlow : 1 ≤ s.hsize.toNat / 256 * 256 + b.toNat)
    (hhigh : s.hsize.toNat / 256 * 256 + b.toNat ≤ 257) :
    rhbSizeLow b s = { s with hsize := sizeWithLow b s, hpos := 2 } :=
  if_neg (mt (sizeWithLow_refused_iff b s).1 (by omega))

/-! ### RHB: the lengths and the symbols -/

theorem rhbEndLength_zero (s : State) :
    rhbEndLength 0 s = raise .corruptHeader (encodeWord (.rhb 0)) s := if_pos rfl

theorem rhbEndLength_of_ne_zero {b : Byte} (hb : b ≠ 0) (s : State) :
    rhbEndLength b s
      = { s with
          lent := tableSet s.lent Config.endSym b, maxlen := b, hpos := 3
          phase := if s.hsize.toNat = 1 then .hdrDone else s.phase } := by
  have hsize : s.hsize = 1 ↔ s.hsize.toNat = 1 := BitVec.toNat_inj.symm
  simp only [rhbEndLength, if_neg hb, hsize]

theorem rhbSymbol_of_not_above {b : Byte} {s : State} (h : 3 < s.hpos.toNat ∧ b.toNat ≤ s.hprev.toNat) :
    rhbSymbol b s = raise .corruptHeader (encodeWord (.rhb b)) s := if_pos h

theorem rhbSymbol_of_above {b : Byte} {s : State} (h : ¬ (3 < s.hpos.toNat ∧ b.toNat ≤ s.hprev.toNat)) :
    rhbSymbol b s = { s with hsym := b, hpos := s.hpos + 1 } := if_neg h

theorem rhbLength_zero (s : State) : rhbLength 0 s = raise .corruptHeader (encodeWord (.rhb 0)) s := if_pos rfl

/-- An even position is not the largest one that `HPOS` can hold, so the cursor moves on without wrapping. -/
theorem hpos_add_one_toNat {s : State} (heven : s.hpos.toNat % 2 = 0) : (s.hpos + 1).toNat = s.hpos.toNat + 1 :=
  BitVec.toNat_add_of_lt (show s.hpos.toNat + 1 < 2 ^ 10 by have := s.hpos.isLt; omega)

theorem rhbLength_of_ne_zero {b : Byte} (hb : b ≠ 0) {s : State} (heven : s.hpos.toNat % 2 = 0) :
    rhbLength b s
      = { s with
          lent := tableSet s.lent s.hsym.toNat b, maxlen := umax s.maxlen b, hprev := s.hsym, hpos := s.hpos + 1
          phase := if s.hpos.toNat + 1 = 3 + 2 * (s.hsize.toNat - 1) then .hdrDone else s.phase } := by
  simp only [rhbLength, if_neg hb, operandIndex_eq, hpos_add_one_toNat heven]

end Sys2Proof.Machine
end

section
/-! The statements of 44_header_codec.md, settled. -/

namespace Sys2Proof.Proofs

open Sys2Proof.Machine Sys2Proof.Safety

/-- Settles O31: the symbols are `codedBytes` of the length table, and END is a leaf of every tree, so `LENT` holds a length
for it throughout the encode flow (R111). -/
theorem whdWritesTheHeader : Obligations.WhdWritesTheHeader := by
  refine ⟨⟨rfl, fun p => decide_eq_true_iff⟩, fun s hp => ⟨fun hflow => ?endCoded, whdBody s, codedBytes s.lent, exec_whd hp,
    codedBytes_ascending _, fun x => mem_codedBytes, ?bytes, ?count, codedBytes_length_le _, rfl, rfl, rfl, ⟨rfl, rfl⟩,
    ⟨rfl, rfl⟩, ⟨rfl, rfl, rfl, rfl, rfl⟩, ⟨rfl, rfl⟩, rfl, ⟨rfl, rfl, rfl, rfl⟩, rfl, ⟨rfl, rfl⟩, rfl⟩⟩
  case endCoded =>
    obtain ⟨hleaf, -⟩ := hflow.encodeLengths (by rw [hp]; decide)
    exact (hleaf Config.endSym le_rfl).2 (Or.inl rfl)
  case bytes => rw [whdBody_out, headerBytes_eq, List.append_assoc]
  case count => rw [whdBody_out, List.length_append, headerBytes_length, Nat.add_assoc]

/-- Settles O32: one case for each value of `HPOS` that R127 tells apart. -/
theorem rhbReadsOneHeaderByte : Obligations.RhbReadsOneHeaderByte := by
  refine ⟨fun b => ⟨rfl, fun p => decide_eq_true_iff⟩, fun b s hp =>
    ⟨rhbBody b s, exec_rhb b hp, fun h => ?sizeHigh, fun h => ?sizeLow, fun h => ?endLength, fun h hodd => ?symbol,
      fun h heven => ?length⟩⟩
  case sizeHigh =>
    rw [rhbBody_of_hpos_zero b h]
    exact ⟨rfl, rhbSizeHigh_hsize_div b s, rhbSizeHigh_hsize_mod b s⟩
  case sizeLow =>
    rw [rhbBody_of_hpos_one b h]
    refine ⟨rhbSizeLow_of_refused, fun hlow hhigh => ?_⟩
    rw [rhbSizeLow_of_accepted hlow hhigh]
    exact ⟨rfl, sizeWithLow_toNat b s⟩
  case endLength =>
    rw [rhbBody_of_hpos_two b h]
    refine ⟨fun hb => hb ▸ rhbEndLength_zero s, fun hb => ?_⟩
    rw [rhbEndLength_of_ne_zero hb]
    exact ⟨rfl, tableGet_tableSet_self .., fun x => tableGet_tableSet_ne _ _⟩
  case symbol =>
    rw [rhbBody_of_hpos_odd b h hodd]
    exact ⟨rhbSymbol_of_not_above, rhbSymbol_of_above⟩
  case length =>
    rw [rhbBody_of_hpos_even b h heven]
    refine ⟨fun hb => hb ▸ rhbLength_zero s, fun hb => ?_⟩
    rw [rhbLength_of_ne_zero hb heven]
    exact ⟨rfl, umax_toNat .., tableGet_tableSet_self .., fun x => tableGet_tableSet_ne _ _⟩

end Sys2Proof.Proofs
end

section
/-! SUPPORT. Bit strings in bytes (R44, R46): the bits of a shifted value, and padding to a byte boundary. -/

namespace Sys2Proof.Machine

open Sys2Proof.Safety

theorem bitsMsb_congr {w : Nat} {c d : BitVec w} {n : Nat} (h : ∀ i < n, c.getLsbD i = d.getLsbD i) :
    bitsMsb c n = bitsMsb d n := by
  induction n with
  | zero => rfl
  | succ n ih => rw [bitsMsb, bitsMsb, h n n.lt_succ_self, ih fun i hi => h i (Nat.lt_succ_of_lt hi)]

/-- A shift to the left appends zero bits, where no bit leaves the word. -/
theorem bitsMsb_shiftLeft {w : Nat} (c : BitVec w) {n k : Nat} (h : n + k ≤ w) :
    bitsMsb (c <<< k) (n + k) = bitsMsb c n ++ List.replicate k false := by
  have hhigh : bitsMsb (c <<< k >>> k) n = bitsMsb c n := bitsMsb_congr fun i hi => by
    have hlt : k + i < w := by omega
    rw [BitVec.getLsbD_ushiftRight, BitVec.getLsbD_shiftLeft, Nat.add_sub_cancel_left]
    simp [hlt]
  have hlow : bitsMsb (c <<< k) k = bitsMsb (0 : BitVec w) k := bitsMsb_congr fun i hi => by simp [hi]
  rw [bitsMsb_append, hhigh, hlow, bitsMsb_zero]

@[simp] theorem codewordOf_length (lent : Table 8) (code : Table Config.codeW) (sym : Nat) :
    (codewordOf lent code sym).length = (tableGet lent sym).toNat := bitsMsb_length ..

@[simp] theorem pendingBits_length (s : State) : (pendingBits s).length = s.nacc.toNat := bitsMsb_length ..

/-- Whole bytes in front do not change the padding. -/
theorem padToByte_streamBits_append (bs : List Byte) (bits : List Bool) :
    padToByte (streamBits bs ++ bits) = streamBits bs ++ padToByte bits := by
  rw [padToByte, padToByte, List.length_append, streamBits_length, Nat.mul_add_mod, List.append_assoc]

/-- The number of bytes that carry a padded bit string is the bit count over 8, rounded up (R144). -/
theorem length_of_streamBits_eq_padToByte {bs : List Byte} {bits : List Bool} (h : streamBits bs = padToByte bits) :
    bs.length = (bits.length + 7) / 8 := by
  have hlen := congrArg List.length h
  rw [streamBits_length, padToByte, List.length_append, List.length_replicate] at hlen
  omega

end Sys2Proof.Machine
end

section
/-! SUPPORT. What `PKB` and `PKE` do (R141 to R143): bits are appended to the bits held, whole bytes leave, and the flush pads
what is left; and what a sequence of `PKB` does (R144). -/

namespace Sys2Proof.Machine

open Sys2Proof.Safety

/-! ### Packing bits -/

/-- `t` is `s` after `bits` were packed (R141): the bytes emitted and the bits then held are the bits held before and
`bits`, at most seven are held, and nothing but `ACC`, `NACC` and `OUT` has changed. -/
def Packs (bits : List Bool) (s t : State) : Prop :=
  AccHeld t ∧ ∃ bs, t = { s with acc := t.acc, nacc := t.nacc, out := s.out ++ bs }
    ∧ streamBits bs ++ pendingBits t = pendingBits s ++ bits

theorem Packs.accHeld {bits : List Bool} {s t : State} (h : Packs bits s t) : AccHeld t := h.1

theorem Packs.phase_eq {bits : List Bool} {s t : State} (h : Packs bits s t) : t.phase = s.phase := by
  obtain ⟨-, bs, e, -⟩ := h
  rw [e]

theorem Packs.lent_eq {bits : List Bool} {s t : State} (h : Packs bits s t) : t.lent = s.lent := by
  obtain ⟨-, bs, e, -⟩ := h
  rw [e]

theorem Packs.code_eq {bits : List Bool} {s t : State} (h : Packs bits s t) : t.code = s.code := by
  obtain ⟨-, bs, e, -⟩ := h
  rw [e]

theorem packs_nil {s : State} (hs : AccHeld s) : Packs [] s s := ⟨hs, [], by simp, by simp⟩

theorem Packs.trans {x y : List Bool} {s t u : State} (hst : Packs x s t) (htu : Packs y t u) :
    Packs (x ++ y) s u := by
  obtain ⟨-, bs, est, hbs⟩ := hst
  obtain ⟨hu, cs, etu, hcs⟩ := htu
  refine ⟨hu, bs ++ cs, ?_, ?bits⟩
  · rw [est] at etu
    simpa using etu
  case bits => rw [streamBits_append, List.append_assoc, hcs, ← List.append_assoc, hbs, List.append_assoc]

/-- Of the bits held and those packed, the whole bytes leave and the rest stays (R141). -/
theorem counts_of_streamBits_append {bs : List Byte} {s t : State} {bits : List Bool} (ht : AccHeld t)
    (h : streamBits bs ++ pendingBits t = pendingBits s ++ bits) :
    bs.length = (s.nacc.toNat + bits.length) / 8 ∧ t.nacc.toNat = (s.nacc.toNat + bits.length) % 8 := by
  have hlen := congrArg List.length h
  have h7 := ht.atMostSeven
  simp only [List.length_append, streamBits_length, pendingBits_length] at hlen
  omega

/-- R142, R143: appending a symbol's codeword packs its bits. -/
theorem appendCodeword_packs (sym : Nat) {s : State} (hs : AccHeld s) :
    Packs (codewordOf s.lent s.code sym) s (appendCodeword sym s) := by
  obtain ⟨bs, hframe⟩ := appendBits_frame (tableGet s.code sym) (tableGet s.lent sym).toNat s
  obtain ⟨bs', hout, hbits, hheld⟩ := appendBits_spec (tableGet s.code sym) (tableGet s.lent sym).toNat s hs
  have hsame : bs = bs' := List.append_cancel_left ((congrArg State.out hframe).symm.trans hout)
  exact ⟨hheld, bs, hframe, hsame ▸ hbits⟩

/-! ### PKB -/

/-- R81: the row of `PKB`. -/
theorem legal_pkb_iff {b : Byte} {p : Phase} : legal (.pkb b) p = true ↔ p = .pack := by simp [legal, legalPhases]

theorem exec_pkb_of_not_coded {b : Byte} {s : State} (hp : s.phase = .pack) (h : tableGet s.lent b.toNat = 0) :
    exec (.pkb b) s = .next (raise .noCode (encodeWord (.pkb b)) s) := by
  rw [exec_of_legal (legal_pkb_iff.2 hp), bodyOf, pkbBody, operandIndex_eq, if_pos h]

/-- R142: the byte's codeword is packed, and PACK is kept. -/
theorem exec_pkb_of_coded {b : Byte} {s : State} (hp : s.phase = .pack) (hs : AccHeld s)
    (h : tableGet s.lent b.toNat ≠ 0) :
    ∃ t, exec (.pkb b) s = .next t ∧ Packs (codewordOf s.lent s.code b.toNat) s t := by
  have hpacks := appendCodeword_packs b.toNat hs
  refine ⟨_, ?_, hpacks⟩
  rw [exec_of_legal (legal_pkb_iff.2 hp), bodyOf, pkbBody, operandIndex_eq, if_neg h,
    ← hp, ← hpacks.phase_eq]

/-- R144: `PKB` of each byte of a sequence packs the codewords in order. -/
theorem issueAll_pkb_packs (T : List Byte) {s : State} (hp : s.phase = .pack) (hs : AccHeld s)
    (hcoded : ∀ b ∈ T, tableGet s.lent b.toNat ≠ 0) :
    Packs (T.flatMap fun b => codewordOf s.lent s.code b.toNat) s (issueAll (T.map .pkb) s) := by
  induction T generalizing s with
  | nil => exact packs_nil hs
  | cons b T ih =>
    obtain ⟨hb, hT⟩ := List.forall_mem_cons.1 hcoded
    obtain ⟨t, hexec, hpacks⟩ := exec_pkb_of_coded hp hs hb
    have hrest := ih (hpacks.phase_eq.trans hp) hpacks.accHeld (by rwa [hpacks.lent_eq])
    rw [hpacks.lent_eq, hpacks.code_eq] at hrest
    rw [List.map_cons, issueAll_cons, issue_of_exec hexec, List.flatMap_cons]
    exact hpacks.trans hrest

/-! ### PKE -/

/-- R81: the row of `PKE`. -/
theorem legal_pke_iff {p : Phase} : legal .pke p = true ↔ p = .pack := by simp [legal, legalPhases]

/-- The padded byte is the bits held and zero bits up to eight (R143). -/
theorem byteBits_paddedByte {s : State} (hs : AccHeld s) (hne : s.nacc.toNat ≠ 0) :
    byteBits (paddedByte s) = padToByte (pendingBits s) := by
  have h7 := hs.atMostSeven
  have hlen : s.nacc.toNat + (8 - s.nacc.toNat) = 8 := by omega
  have hpad : (8 - s.nacc.toNat % 8) % 8 = 8 - s.nacc.toNat := by omega
  rw [padToByte, pendingBits_length, hpad, pendingBits, ← bitsMsb_shiftLeft _ hlen.le, hlen]
  rfl

/-- The flush emits the bits held, padded, and holds none after it (R143). -/
theorem flush_eq {s : State} (hs : AccHeld s) :
    ∃ bs, flush s = { s with acc := 0, nacc := 0, out := s.out ++ bs } ∧ streamBits bs = padToByte (pendingBits s) := by
  by_cases hzero : s.nacc = 0
  · have hacc : s.acc = 0 := BitVec.eq_of_toNat_eq (by simpa [hzero] using hs.highZero)
    refine ⟨[], ?_, by simp [padToByte, pendingBits, hzero, bitsMsb]⟩
    rw [flush, if_pos hzero, ← hacc, ← hzero, List.append_nil]
  · refine ⟨[paddedByte s], by rw [flush, if_neg hzero]; rfl, ?_⟩
    rw [streamBits_cons, streamBits_nil, List.append_nil,
      byteBits_paddedByte hs fun h => hzero (BitVec.eq_of_toNat_eq h)]

/-- R143: what `PKE` emits is the bits held and END's codeword, padded. -/
theorem exec_pke {s : State} (hp : s.phase = .pack) (hs : AccHeld s) :
    ∃ bs, exec .pke s = .next { s with acc := 0, nacc := 0, out := s.out ++ bs, phase := .encDone }
      ∧ streamBits bs = padToByte (pendingBits s ++ codewordOf s.lent s.code Config.endSym) := by
  obtain ⟨hheld, bs, hpacked, hbits⟩ := appendCodeword_packs Config.endSym hs
  obtain ⟨cs, hflush, hcs⟩ := flush_eq hheld
  refine ⟨bs ++ cs, ?_, by rw [streamBits_append, hcs, ← padToByte_streamBits_append, hbits]⟩
  rw [exec_of_legal (legal_pke_iff.2 hp), bodyOf, pkeBody, hflush, hpacked, List.append_assoc]

/-- `WHD` leaves no bit held (R125). -/
theorem whdBody_accHeld (s : State) : AccHeld (whdBody s) := ⟨Nat.zero_le 7, Nat.one_pos⟩

end Sys2Proof.Machine
end

section
/-! The statements of 45_bitpacker.md, settled. -/

namespace Sys2Proof.Proofs

open Sys2Proof.Machine Sys2Proof.Safety

/-- Settles O34: a coded byte's codeword is packed, and the counts are the lengths of the two sides of that equation. -/
theorem pkbAppendsTheCodeword : Obligations.PkbAppendsTheCodeword := by
  refine ⟨fun b => ⟨rfl, fun p => decide_eq_true_iff⟩, fun b s hp hs =>
    ⟨fun h => ⟨_, exec_pkb_of_not_coded hp h, rfl⟩, fun h => ?coded⟩⟩
  case coded =>
    obtain ⟨t, hexec, hheld, bs, hframe, hbits⟩ := exec_pkb_of_coded hp hs h
    obtain ⟨hlen, hnacc⟩ := counts_of_streamBits_append hheld hbits
    rw [codewordOf_length] at hlen hnacc
    refine ⟨t, bs, hexec, ?_, hbits, hlen, hnacc, hheld, ?_⟩ <;> rw [hframe]
    exact ⟨hp, ⟨rfl, rfl⟩, ⟨rfl, rfl⟩, ⟨rfl, rfl, rfl, rfl, rfl⟩, ⟨rfl, rfl⟩, rfl, ⟨rfl, rfl, rfl, rfl⟩, rfl, ⟨rfl, rfl⟩, rfl⟩

/-- Settles O35: at most 7 bits are held and a codeword has at most 255, which is 33 bytes. -/
theorem pkeAppendsEndAndFlushes : Obligations.PkeAppendsEndAndFlushes := by
  refine ⟨⟨rfl, fun p => decide_eq_true_iff⟩, fun s hp hs => ?_⟩
  obtain ⟨bs, hexec, hbits⟩ := exec_pke hp hs
  refine ⟨_, bs, hexec, rfl, hbits, ?atMost33, rfl, rfl, rfl, rfl, ⟨rfl, rfl⟩, ⟨rfl, rfl⟩, ⟨rfl, rfl, rfl, rfl, rfl⟩,
    ⟨rfl, rfl⟩, rfl, ⟨rfl, rfl, rfl, rfl⟩, rfl, ⟨rfl, rfl⟩, rfl⟩
  case atMost33 =>
    have hlen := length_of_streamBits_eq_padToByte hbits
    rw [List.length_append, pendingBits_length, codewordOf_length] at hlen
    have h7 := hs.atMostSeven
    have hlt := (tableGet s.lent Config.endSym).isLt
    omega

/-- Settles O36: `WHD` leaves no bit held, `PKB` of each byte packs its codeword, and `PKE` packs END's and pads. -/
theorem payloadIsTheCodewordsInOrder : Obligations.PayloadIsTheCodewordsInOrder := by
  intro T s hp hcoded
  have hpacks := issueAll_pkb_packs T (s := whdBody s) rfl (whdBody_accHeld s) hcoded
  obtain ⟨cs, hexec, hcs⟩ := exec_pke hpacks.phase_eq hpacks.accHeld
  rw [hpacks.lent_eq, hpacks.code_eq] at hcs
  obtain ⟨-, bs, hframe, hbs⟩ := hpacks
  have hpayload : streamBits (bs ++ cs)
      = padToByte ((T.flatMap fun b => codewordOf s.lent s.code b.toNat) ++ codewordOf s.lent s.code Config.endSym) := by
    rw [streamBits_append, hcs, ← padToByte_streamBits_append, ← List.append_assoc, hbs]
    rfl
  rw [List.cons_append, issueAll_cons, issue_of_exec (exec_whd hp), issueAll_append, issueAll_cons, issue_of_exec hexec]
  refine ⟨bs ++ cs, rfl, ?out, hpayload, ?count⟩
  case out => rw [issueAll_nil, hframe, List.append_assoc]
  case count =>
    rw [length_of_streamBits_eq_padToByte hpayload, List.length_append, List.length_flatMap]
    simp only [codewordOf_length]

end Sys2Proof.Proofs
end

section
/-! SUPPORT. Slots as bit paths (R150 to R152): the walk by `child` goes to the slot of the path it takes, and a slot has one
path. -/

namespace Sys2Proof.Machine

open Sys2Proof.Safety

/-- R151: a slot of depth below 255 has children inside the array. -/
theorem child_toNat {i : SlotIdx} (h : i.toNat ≤ 2 ^ 255 - 2) (bit : Bool) :
    (child i bit).toNat = 2 * i.toNat + 1 + bit.toNat := by
  have hbit : ((BitVec.ofBool bit).setWidth Config.slotW).toNat = bit.toNat := by cases bit <;> rfl
  have hle := Bool.toNat_le bit
  rw [child, BitVec.toNat_add, BitVec.toNat_add, BitVec.toNat_mul, hbit, show (2 : SlotIdx).toNat = 2 from rfl,
    show (1 : SlotIdx).toNat = 1 from rfl, show 2 ^ Config.slotW = 2 ^ 256 from rfl]
  omega

/-! ### The slot of a path -/

@[simp] theorem pathSlot_nil : pathSlot [] = 0 := rfl

theorem pathSlot_add_one (p : List Bool) : pathSlot p + 1 = 2 ^ p.length + bitsValue p := by
  have hpos := Nat.two_pow_pos p.length
  rw [pathSlot]
  omega

/-- One more bit is one more `child`. -/
theorem pathSlot_concat (p : List Bool) (b : Bool) : pathSlot (p ++ [b]) = 2 * pathSlot p + 1 + b.toNat := by
  have hp := pathSlot_add_one p
  have hpb := pathSlot_add_one (p ++ [b])
  rw [bitsValue_concat, List.length_append, List.length_singleton, pow_succ] at hpb
  omega

/-- R150: the last slot of the level of depth `n` is `2^(n+1) - 2`. -/
theorem pathSlot_add_one_lt (p : List Bool) : pathSlot p + 1 < 2 ^ (p.length + 1) := by
  rw [pathSlot_add_one, pow_succ]
  have hlt := bitsValue_lt p
  omega

theorem pathSlot_le {p : List Bool} {n : Nat} (h : p.length ≤ n) : pathSlot p ≤ 2 ^ (n + 1) - 2 := by
  have hlt := pathSlot_add_one_lt p
  have hpow := Nat.pow_le_pow_right two_pos (Nat.succ_le_succ h)
  omega

/-- Two paths that end at one slot are one path. -/
theorem pathSlot_inj {p q : List Bool} (h : pathSlot p = pathSlot q) : p = q := by
  have hlog : ∀ l : List Bool, Nat.log 2 (pathSlot l + 1) = l.length := fun l =>
    Nat.log_eq_of_pow_le_of_lt_pow (pathSlot_add_one l ▸ Nat.le_add_right _ _) (pathSlot_add_one_lt l)
  have hlen : p.length = q.length := by rw [← hlog, ← hlog, h]
  have hp := pathSlot_add_one p
  rw [h, pathSlot_add_one, hlen] at hp
  exact bitsValue_inj hlen (Nat.add_left_cancel hp).symm

theorem child_toNat_of_path {i : SlotIdx} {p : List Bool} (hi : i.toNat = pathSlot p) (hp : p.length < Config.lmax)
    (bit : Bool) : (child i bit).toNat = pathSlot (p ++ [bit]) := by
  rw [pathSlot_concat, ← hi]
  exact child_toNat (hi ▸ pathSlot_le (Nat.le_pred_of_lt hp)) bit

/-! ### The slot of a codeword -/

/-- R152: the walk of a value's bits, from the slot of a path, ends at the slot of the path and those bits. -/
theorem childWalk_toNat (c : CodeVal) {L : Nat} {i : SlotIdx} {p : List Bool} (hi : i.toNat = pathSlot p)
    (hL : p.length + L ≤ Config.lmax) : (childWalk c L i).toNat = pathSlot (p ++ bitsMsb c L) := by
  induction L generalizing i p with
  | zero => rw [childWalk, hi, bitsMsb, List.append_nil]
  | succ L ih =>
    rw [childWalk, ih (child_toNat_of_path hi (by omega) _) (by rw [List.length_append, List.length_singleton]; omega),
      bitsMsb, List.append_assoc, List.singleton_append]

theorem pathSlot_bitsMsb {w : Nat} (c : BitVec w) (n : Nat) : pathSlot (bitsMsb c n) = 2 ^ n - 1 + c.toNat % 2 ^ n := by
  rw [pathSlot, bitsMsb_length, bitsValue_bitsMsb]

theorem symbolSlot_toNat (lent : Table 8) (code : Table Config.codeW) (a : Nat) :
    (symbolSlot lent code a).toNat = pathSlot (codewordOf lent code a) :=
  childWalk_toNat (p := []) _ rfl (by rw [List.length_nil, Nat.zero_add]; exact Nat.le_of_lt_succ (tableGet lent a).isLt)

theorem pathSlot_codewordOf {lent : Table 8} {code : Table Config.codeW} (hrange : CodesInRange lent code) {a : Nat}
    (ha : Coded lent a) :
    pathSlot (codewordOf lent code a) = 2 ^ (tableGet lent a).toNat - 1 + (tableGet code a).toNat := by
  rw [codewordOf, pathSlot_bitsMsb, Nat.mod_eq_of_lt (hrange a ha)]

section

variable {lent : Table 8} {code : Table Config.codeW} (hfree : PrefixFree lent code)

include hfree

/-- R152: no symbol's slot lies on the way to another's. -/
theorem symbolSlot_off_path {a b : Nat} (ha : Coded lent a) (hb : Coded lent b) (hne : a ≠ b) (j : Nat) :
    pathSlot ((codewordOf lent code b).take j) ≠ (symbolSlot lent code a).toNat := by
  intro h
  rw [symbolSlot_toNat] at h
  exact hfree a b ha hb hne (pathSlot_inj h ▸ List.take_prefix ..)

/-- R152: different symbols have different slots. -/
theorem symbolSlot_inj {a b : Nat} (ha : Coded lent a) (hb : Coded lent b)
    (h : symbolSlot lent code a = symbolSlot lent code b) : a = b := by
  by_contra hne
  refine symbolSlot_off_path hfree ha hb hne (codewordOf lent code b).length ?_
  rw [List.take_length, h, symbolSlot_toNat]

end

end Sys2Proof.Machine
end

section
/-! SUPPORT. What `TRI` builds (R153): the trie after the symbols of any list, and after all of them. -/

namespace Sys2Proof.Machine

open Sys2Proof.Safety

theorem insertSymbol_of_zero {lent : Table 8} {a : Nat} (h : tableGet lent a = 0) (code : Table Config.codeW)
    (trie : Assoc Symbol) : insertSymbol lent code trie a = trie := if_pos h

theorem insertSymbol_of_ne_zero {lent : Table 8} {a : Nat} (h : tableGet lent a ≠ 0) (code : Table Config.codeW)
    (trie : Assoc Symbol) :
    insertSymbol lent code trie a = assocPut trie (symbolSlot lent code a).toNat (BitVec.ofNat 9 a) := if_neg h

/-- At most one slot is filled for each symbol. -/
theorem foldl_insertSymbol_length_le (lent : Table 8) (code : Table Config.codeW) (l : List Nat) :
    (l.foldl (insertSymbol lent code) []).length ≤ l.length := by
  induction l using List.reverseRecOn with
  | nil => rfl
  | append_singleton l a ih =>
    rw [List.foldl_append, List.foldl_cons, List.foldl_nil, List.length_append, List.length_singleton]
    by_cases h : tableGet lent a = 0
    · rw [insertSymbol_of_zero h]
      exact Nat.le_succ_of_le ih
    · rw [insertSymbol_of_ne_zero h]
      exact (assocPut_length_le ..).trans (Nat.succ_le_succ ih)

/-- The slots filled are those of the coded symbols, no slot twice, so each holds its symbol whatever came after. -/
theorem assocFind_foldl_insertSymbol {lent : Table 8} {code : Table Config.codeW} (hfree : PrefixFree lent code)
    {l : List Nat} (hl : ∀ a ∈ l, a ≤ Config.endSym) (k : Nat) (sym : Symbol) :
    assocFind (l.foldl (insertSymbol lent code) []) k = some sym ↔
      ∃ a ∈ l, Coded lent a ∧ k = (symbolSlot lent code a).toNat ∧ BitVec.ofNat 9 a = sym := by
  induction l using List.reverseRecOn with
  | nil => simp
  | append_singleton l x ih =>
    obtain ⟨hl, hx⟩ := List.forall_mem_append.1 hl
    have hx : x ≤ Config.endSym := hx x (List.mem_singleton_self x)
    simp only [List.foldl_append, List.foldl_cons, List.foldl_nil, List.mem_append, List.mem_singleton, or_and_right,
      exists_or, exists_eq_left]
    by_cases hzero : tableGet lent x = 0
    · rw [insertSymbol_of_zero hzero, ih hl, or_iff_left fun h => h.1.2 hzero]
    · have hcoded : Coded lent x := ⟨hx, hzero⟩
      rw [insertSymbol_of_ne_zero hzero]
      by_cases hk : k = (symbolSlot lent code x).toNat
      · subst hk
        rw [assocFind_assocPut_self, Option.some_inj]
        refine ⟨fun h => Or.inr ⟨hcoded, rfl, h⟩, ?_⟩
        rintro (⟨a, -, ha, hslot, h⟩ | ⟨-, -, h⟩)
        · exact symbolSlot_inj hfree hcoded ha (BitVec.eq_of_toNat_eq hslot) ▸ h
        · exact h
      · rw [assocFind_assocPut_ne _ _ hk, ih hl, or_iff_left fun h => hk h.2.1]

/-- R153: the trie built holds each coded symbol at the slot of its codeword and nothing elsewhere. -/
theorem buildTrie_holds {lent : Table 8} {code : Table Config.codeW} (hrange : CodesInRange lent code)
    (hfree : PrefixFree lent code) : TrieHolds lent code (buildTrie lent code) := by
  intro k sym
  rw [buildTrie, assocFind_foldl_insertSymbol hfree (fun a ha => mem_symbols.1 ha)]
  constructor
  · rintro ⟨a, -, ha, rfl, rfl⟩
    have hnat : (BitVec.ofNat 9 a).toNat = a := BitVec.toNat_ofNat a 9 ▸ Nat.mod_eq_of_lt (lt_of_le_of_lt ha.1 (by decide))
    rw [hnat, symbolSlot_toNat, pathSlot_codewordOf hrange ha]
    exact ⟨ha, rfl⟩
  · rintro ⟨ha, rfl⟩
    refine ⟨sym.toNat, mem_symbols.2 ha.1, ha, ?_, (BitVec.ofNat_toNat 9 sym).trans (BitVec.setWidth_eq sym)⟩
    rw [symbolSlot_toNat, pathSlot_codewordOf hrange ha]

theorem buildTrie_length_le (lent : Table 8) (code : Table Config.codeW) :
    (buildTrie lent code).length ≤ Config.nsym :=
  (foldl_insertSymbol_length_le lent code symbols).trans (List.length_range ..).le

/-- R150: no codeword is empty, so nothing is stored at the start slot. -/
theorem start_empty_of_trieHolds {lent : Table 8} {code : Table Config.codeW} {trie : Assoc Symbol}
    (h : TrieHolds lent code trie) : assocFind trie 0 = none := by
  refine Option.eq_none_iff_forall_ne_some.2 fun sym hsym => ?_
  obtain ⟨hcoded, hslot⟩ := (h 0 sym).1 hsym
  have hpow := Nat.one_lt_two_pow (Nat.ne_of_gt (one_le_length_of_coded hcoded))
  omega

@[simp] theorem triBody_trie (s : State) : (triBody s).trie = buildTrie s.lent s.code := by rw [triBody]

/-- R81: the row of `TRI`. -/
theorem legal_tri_iff {p : Phase} : legal .tri p = true ↔ p = .dcodes := by simp [legal, legalPhases]

theorem exec_tri {s : State} (hp : s.phase = .dcodes) : exec .tri s = .next (triBody s) :=
  exec_of_legal (legal_tri_iff.2 hp)

end Sys2Proof.Machine
end

section
/-! SUPPORT. What `DCB` does (R155 to R158): the block's walk by slots is the walk by bit paths. -/

namespace Sys2Proof.Machine

open Sys2Proof.Safety

/-! ### The walk on bit paths, case by case -/

section

variable {trie : Assoc Symbol} {maxlen : Nat} {path : List Bool}

theorem walkPath_nil : walkPath trie maxlen path [] = ([], .more path) := rfl

theorem walkPath_of_deepest (h : path.length = maxlen) (b : Bool) (bits : List Bool) :
    walkPath trie maxlen path (b :: bits) = ([], .stuck path) := if_pos h

variable {b : Bool} (h : path.length ≠ maxlen)

include h

theorem walkPath_of_empty (hf : assocFind trie (pathSlot (path ++ [b])) = none) (bits : List Bool) :
    walkPath trie maxlen path (b :: bits) = walkPath trie maxlen (path ++ [b]) bits := by
  rw [walkPath, if_neg h, hf]

theorem walkPath_of_end {sym : Symbol} (hf : assocFind trie (pathSlot (path ++ [b])) = some sym)
    (hend : sym.toNat = Config.endSym) (bits : List Bool) : walkPath trie maxlen path (b :: bits) = ([], .ended) := by
  simp only [walkPath, if_neg h, hf, if_pos hend]

theorem walkPath_of_byte {sym : Symbol} (hf : assocFind trie (pathSlot (path ++ [b])) = some sym)
    (hbyte : sym.toNat ≠ Config.endSym) (bits : List Bool) :
    walkPath trie maxlen path (b :: bits)
      = (symbolByte sym :: (walkPath trie maxlen [] bits).1, (walkPath trie maxlen [] bits).2) := by
  simp only [walkPath, if_neg h, hf, if_neg hbyte, symbolByte, BitVec.ofNat_toNat]

end

/-- The path at which a walk ends stays in the trie, and a walk is stuck at depth `maxlen` only (R157). -/
def EndWithin (maxlen : Nat) : WalkEnd → Prop
  | .more q => q.length ≤ maxlen
  | .ended => True
  | .stuck q => q.length = maxlen

theorem walkPath_endWithin (trie : Assoc Symbol) {maxlen : Nat} (bits : List Bool) {path : List Bool}
    (h : path.length ≤ maxlen) : EndWithin maxlen (walkPath trie maxlen path bits).2 := by
  induction bits generalizing path with
  | nil => exact h
  | cons b bits ih =>
    by_cases hdeep : path.length = maxlen
    · rw [walkPath_of_deepest hdeep]
      exact hdeep
    · cases hf : assocFind trie (pathSlot (path ++ [b])) with
      | none =>
        rw [walkPath_of_empty hdeep hf]
        exact ih (by rw [List.length_append]; exact Nat.lt_of_le_of_ne h hdeep)
      | some sym =>
        by_cases hend : sym.toNat = Config.endSym
        · rw [walkPath_of_end hdeep hf hend]
          trivial
        · rw [walkPath_of_byte hdeep hf hend]
          exact ih (Nat.zero_le _)

/-! ### The block at a bit path -/

/-- The block with `SLOT` and `DEPTH` at the end of a bit path (R27). -/
def atPath (p : List Bool) (s : State) : State :=
  { s with slot := BitVec.ofNat _ (pathSlot p), depth := BitVec.ofNat _ p.length }

@[simp] theorem atPath_trie (p : List Bool) (s : State) : (atPath p s).trie = s.trie := rfl

theorem atPath_slot_toNat {p : List Bool} (h : p.length ≤ Config.lmax) (s : State) :
    (atPath p s).slot.toNat = pathSlot p := by
  have hle := pathSlot_le h
  exact Nat.mod_eq_of_lt (by simp only [Config.slotW, Config.lmax] at *; omega)

theorem atPath_depth_toNat {p : List Bool} (h : p.length ≤ Config.lmax) (s : State) :
    (atPath p s).depth.toNat = p.length := Nat.mod_eq_of_lt (Nat.lt_succ_of_le h)

theorem eq_atPath {p : List Bool} {s : State} (hslot : s.slot.toNat = pathSlot p) (hdepth : s.depth.toNat = p.length) :
    s = atPath p s := by
  rw [atPath, ← hslot, ← hdepth, BitVec.ofNat_toNat, BitVec.setWidth_eq, BitVec.ofNat_toNat, BitVec.setWidth_eq]

theorem child_atPath {p : List Bool} (h : p.length < Config.lmax) (b : Bool) (s : State) :
    (child (atPath p s).slot b).toNat = pathSlot (p ++ [b]) := child_toNat_of_path (atPath_slot_toNat h.le s) h b

theorem stepDown_atPath {p : List Bool} (h : p.length < Config.lmax) (b : Bool) (s : State) :
    stepDown b (atPath p s) = atPath (p ++ [b]) s := by
  refine eq_atPath (s := stepDown b (atPath p s)) (child_atPath h b s) ?_
  rw [List.length_append, List.length_singleton, ← atPath_depth_toNat h.le s]
  exact BitVec.toNat_add_of_lt (Nat.succ_lt_succ (atPath_depth_toNat h.le s ▸ h))

/-- R157: depth `MAXLEN` is reached by the paths of that length. -/
theorem atPath_depth_eq_maxlen_iff {p : List Bool} (h : p.length ≤ Config.lmax) (s : State) :
    (atPath p s).depth = s.maxlen ↔ p.length = s.maxlen.toNat := by
  rw [← BitVec.toNat_inj, atPath_depth_toNat h]

/-! ### The two walks agree -/

/-- `s` after the walk `r` of payload bits by the command word `w` (R155, R156, R157). -/
def afterWalk (w : Word) (s : State) (r : List Byte × WalkEnd) : State :=
  match r.2 with
  | .more q => { atPath q s with phase := .dec, out := s.out ++ r.1 }
  | .ended => { atPath [] s with phase := .decDone, out := s.out ++ r.1 }
  | .stuck q => raise .corruptStream w { atPath q s with out := s.out ++ r.1 }

/-- A byte emitted before the walk is one emitted in front of it. -/
theorem afterWalk_of_emit (w : Word) (s : State) (b : Byte) (r : List Byte × WalkEnd) :
    afterWalk w { s with out := s.out ++ [b] } r = afterWalk w s (b :: r.1, r.2) := by
  obtain ⟨bs, _ | _ | _⟩ := r <;> simp [afterWalk, atPath]

@[simp] theorem afterWalk_out (w : Word) (s : State) (r : List Byte × WalkEnd) :
    (afterWalk w s r).out = s.out ++ r.1 := by
  obtain ⟨bs, _ | _ | _⟩ := r <;> rfl

/-- R155: the walk writes `SLOT`, `DEPTH`, `PHASE`, `OUT` and, on a fault, `ERR` and `ERRCMD`. -/
theorem afterWalk_frame (w : Word) (s : State) (r : List Byte × WalkEnd) :
    SameCounts s (afterWalk w s r) ∧ SameTree s (afterWalk w s r) ∧ SameLengths s (afterWalk w s r)
      ∧ SameCodes s (afterWalk w s r) ∧ SameCursor s (afterWalk w s r) ∧ SameAcc s (afterWalk w s r)
      ∧ SameTrie s (afterWalk w s r) ∧ SameInput s (afterWalk w s r) := by
  obtain ⟨bs, _ | _ | _⟩ := r <;>
    exact ⟨⟨rfl, rfl⟩, ⟨rfl, rfl, rfl, rfl, rfl⟩, ⟨rfl, rfl⟩, rfl, ⟨rfl, rfl, rfl, rfl⟩, ⟨rfl, rfl⟩, rfl, rfl⟩

/-- R44: the walk takes the bits of its byte in stream order. -/
theorem bitsMsb_succ_operandBit (arg : Byte) (k : Nat) : bitsMsb arg (k + 1) = operandBit arg k :: bitsMsb arg k := rfl

/-- R155 to R157: from the end of a path, the walk by slots is the walk by paths. -/
theorem walkBits_atPath (w : Word) (arg : Byte) (k : Nat) {s : State} {p : List Bool}
    (hp : p.length ≤ s.maxlen.toNat) :
    walkBits w arg k (atPath p s) = afterWalk w s (walkPath s.trie s.maxlen.toNat p (bitsMsb arg k)) := by
  induction k generalizing s p with
  | zero => simp [walkBits, walkPath_nil, bitsMsb, afterWalk, atPath]
  | succ k ih =>
    have hlmax := hp.trans (maxlen_le_lmax s)
    have hdepth := atPath_depth_eq_maxlen_iff hlmax s
    have hlt (hd : p.length ≠ s.maxlen.toNat) : p.length < Config.lmax :=
      (Nat.lt_of_le_of_ne hp hd).trans_le (maxlen_le_lmax s)
    rcases walkBits_succ w arg k (atPath p s) with ⟨hd, e⟩ | ⟨hd, hf, e⟩ | ⟨hd, sym, hf, hsym, e⟩ | ⟨hd, sym, hf, hsym, e⟩
    all_goals rw [e, bitsMsb_succ_operandBit]
    · rw [walkPath_of_deepest (hdepth.1 hd)]
      simp [afterWalk, atPath]
    all_goals
      replace hd := mt hdepth.2 hd
      rw [child_atPath (hlt hd), atPath_trie] at hf
    · rw [walkPath_of_empty hd hf, stepDown_atPath (hlt hd)]
      exact ih (by rw [List.length_append]; exact Nat.lt_of_le_of_ne hp hd)
    · rw [walkPath_of_end hd hf hsym]
      simp [afterWalk, atPath]
    · rw [walkPath_of_byte hd hf hsym, ← afterWalk_of_emit]
      exact ih (s := { s with out := s.out ++ [symbolByte sym] }) (p := []) (Nat.zero_le _)

/-! ### DCB -/

/-- R81: the row of `DCB`. -/
theorem legal_dcb_iff {b : Byte} {p : Phase} : legal (.dcb b) p = true ↔ p = .dec ∨ p = .decDone := by
  simp [legal, legalPhases]

theorem exec_dcb_of_dec (b : Byte) {s : State} {p : List Bool} (hp : s.phase = .dec) (hslot : s.slot.toNat = pathSlot p)
    (hdepth : s.depth.toNat = p.length) (hle : p.length ≤ s.maxlen.toNat) :
    exec (.dcb b) s
      = .next (afterWalk (encodeWord (.dcb b)) s (walkPath s.trie s.maxlen.toNat p (byteBits b))) := by
  rw [exec_of_legal (legal_dcb_iff.2 (Or.inl hp)), bodyOf, dcbBody_of_dec b hp, byteBits, ← walkBits_atPath _ b 8 hle,
    ← eq_atPath hslot hdepth]

theorem exec_dcb_of_decDone (b : Byte) {s : State} (hp : s.phase = .decDone) : exec (.dcb b) s = .next s := by
  rw [exec_of_legal (legal_dcb_iff.2 (Or.inr hp)), bodyOf, dcbBody_of_decDone b hp]

theorem issueAll_dcb_of_decDone (bs : List Byte) {s : State} (hp : s.phase = .decDone) :
    issueAll (bs.map .dcb) s = s := by
  induction bs with
  | nil => rfl
  | cons b bs ih => rw [List.map_cons, issueAll_cons, issue_of_exec (exec_dcb_of_decDone b hp), ih]

end Sys2Proof.Machine
end

section
/-! The statements of 46_bit_trie_decoder.md, settled. -/

namespace Sys2Proof.Proofs

open Sys2Proof.Machine Sys2Proof.Safety

/-- Settles O37: the slot of a symbol is the slot of its codeword as a path, and a path determines its slot. -/
theorem trieSlotsInClosedForm : Obligations.TrieSlotsInClosedForm := by
  refine ⟨fun _ bit h => child_toNat h bit, fun c L hL => ?walk, fun lent code hrange hfree => ⟨fun a ha => ?closed,
    fun a b ha hb hne => ⟨fun h => hne (symbolSlot_inj hfree ha hb h), symbolSlot_off_path hfree ha hb hne⟩⟩⟩
  case walk => rw [childWalk_toNat (p := []) c rfl (by simpa using hL), List.nil_append, pathSlot_bitsMsb]
  case closed => rw [symbolSlot_toNat, pathSlot_codewordOf hrange ha]

/-- Settles O38: the trie built holds the code, and `TRI` writes nothing but the trie, the walk and `PHASE`. -/
theorem triStoresTheCodewords : Obligations.TriStoresTheCodewords := by
  refine ⟨⟨rfl, fun p => decide_eq_true_iff⟩, fun s hp hrange hfree => ?_⟩
  refine ⟨triBody s, exec_tri hp, ?_⟩
  have hholds : TrieHolds (triBody s).lent (triBody s).code (triBody s).trie := by
    rw [triBody_trie]
    exact buildTrie_holds hrange hfree
  refine ⟨hholds, start_empty_of_trieHolds hholds, ?size, rfl, rfl, rfl, ⟨rfl, rfl⟩, ⟨rfl, rfl⟩, ⟨rfl, rfl, rfl, rfl, rfl⟩, ⟨rfl, rfl⟩,
    rfl, ⟨rfl, rfl, rfl, rfl⟩, ⟨rfl, rfl⟩, rfl, rfl⟩
  case size => rw [triBody_trie]; exact buildTrie_length_le ..

/-- Settles O39: the block's walk is the walk by paths, and the path at which that ends stays in the trie. -/
theorem dcbWalksEightBits : Obligations.DcbWalksEightBits := by
  refine ⟨fun b => ⟨rfl, fun p => decide_eq_true_iff⟩, fun b s hp => exec_dcb_of_decDone b hp,
    fun b s path hp hslot hdepth hle =>
      ⟨_, exec_dcb_of_dec b hp hslot hdepth hle, afterWalk_out .., ?walkEnd, afterWalk_frame ..⟩⟩
  case walkEnd =>
    have hend := walkPath_endWithin s.trie (byteBits b) hle
    have hmax := maxlen_le_lmax s
    generalize walkPath s.trie s.maxlen.toNat path (byteBits b) = r at hend ⊢
    obtain ⟨bs, q | _ | q⟩ := r
    case more =>
      have hq : q.length ≤ Config.lmax := hend.trans hmax
      exact ⟨rfl, atPath_slot_toNat hq s, atPath_depth_toNat hq s, rfl, rfl⟩
    case ended => exact ⟨rfl, rfl, rfl, rfl, rfl⟩
    case stuck =>
      have hq : q.length ≤ Config.lmax := hend.le.trans hmax
      exact ⟨rfl, rfl, rfl, atPath_slot_toNat hq s, atPath_depth_toNat hq s, hend⟩

/-- Settles O40: one byte by R158's rule, a sequence by induction. -/
theorem dcbAfterEndChangesNothing : Obligations.DcbAfterEndChangesNothing :=
  fun bs _ hp => ⟨fun b => exec_dcb_of_decDone b hp, issueAll_dcb_of_decDone bs hp⟩

end Sys2Proof.Proofs
end

section
/-! SUPPORT. What no command reads (R28, R47, log 1): the bytes emitted before it and the words that wait. A command run behind
them does what it does without them, so a call does what it does from reset (R10, R176). -/

namespace Sys2Proof.Machine

/-- The block with `ins` presented and the bytes `pre` emitted before those of `s`. -/
def behind (ins : List Input) (pre : List Byte) (s : State) : State := { s with input := ins, out := pre ++ s.out }

/-- `f` neither reads nor takes back what was emitted before it or is presented. -/
def Blind (f : State → State) : Prop := ∀ ins pre s, f (behind ins pre s) = behind ins pre (f s)

/-! ### The operations -/

theorem behind_emit (ins : List Input) (pre : List Byte) (b : Byte) (s : State) :
    emit b (behind ins pre s) = behind ins pre (emit b s) := by
  simp [emit, behind]

theorem raise_blind (f : Err) (w : Word) : Blind (raise f w) := fun _ _ _ => rfl

theorem clear_blind : Blind clear := fun _ _ _ => rfl

theorem Blind.comp {f g : State → State} (hf : Blind f) (hg : Blind g) : Blind (f ∘ g) := fun ins pre s => by
  simp only [Function.comp_apply, hg ins pre s, hf ins pre (g s)]

/-- A choice by what is neither `OUT` nor presented. -/
theorem Blind.ite {c : State → Prop} [DecidablePred c] {f g : State → State} (hc : ∀ ins pre s, c (behind ins pre s) ↔ c s)
    (hf : Blind f) (hg : Blind g) : Blind fun s => if c s then f s else g s := fun ins pre s => by
  by_cases h : c s
  · simp only [hc, if_pos h, hf ins pre s]
  · simp only [hc, if_neg h, hg ins pre s]

/-! ### Each command's rule -/

theorem cntBody_blind (b : Byte) : Blind (cntBody b) :=
  Blind.ite (fun _ _ _ => Iff.rfl) (raise_blind _ _) fun _ _ _ => rfl

theorem bldBody_blind : Blind (bldBody Config.emptyReject) :=
  Blind.ite (fun _ _ _ => Iff.rfl) (fun _ _ _ => rfl) fun _ _ _ => rfl

theorem lenBody_blind : Blind lenBody := fun ins pre s => by
  have hread : codewordLengths (behind ins pre s) = codewordLengths s := by rw [codewordLengths, codewordLengths]; rfl
  unfold lenBody
  rw [hread]
  by_cases h : ((codewordLengths s).any fun p => decide (Config.lmax < p.2)) = true
  · rw [if_pos h, if_pos h, raise_blind _ _ ins pre s]
  · rw [if_neg h, if_neg h, behind, behind]

theorem asgBody_blind : Blind asgBody := fun ins pre s => by
  change (match canonicalCodes s.lent s.maxlen s.code with | none => _ | some table => _) = _
  unfold asgBody
  cases canonicalCodes s.lent s.maxlen s.code <;> rfl

theorem whdBody_blind : Blind whdBody := fun ins pre s => by simp [whdBody, emitAll, behind]

theorem appendBit_blind (bit : Bool) : Blind (appendBit bit) :=
  Blind.ite (fun _ _ _ => Iff.rfl) (fun ins pre s => by simp [emit, behind]) fun _ _ _ => rfl

theorem appendBits_blind (c : CodeVal) (L : Nat) : Blind (appendBits c L) := by
  induction L with
  | zero => exact fun _ _ _ => rfl
  | succ L ih => exact ih.comp (appendBit_blind _)

theorem appendCodeword_blind (sym : Nat) : Blind (appendCodeword sym) := fun ins pre s => appendBits_blind _ _ ins pre s

theorem pkbBody_blind (b : Byte) : Blind (pkbBody b) :=
  Blind.ite (fun _ _ _ => Iff.rfl) (raise_blind _ _) fun ins pre s => by rw [appendCodeword_blind _ ins pre s]; rfl

theorem flush_blind : Blind flush :=
  Blind.ite (fun _ _ _ => Iff.rfl) (fun _ _ _ => rfl) fun ins pre s => by simp [emit, behind, paddedByte]

theorem pkeBody_blind : Blind pkeBody := fun ins pre s => by
  rw [pkeBody, appendCodeword_blind _ ins pre s, flush_blind ins pre]; rfl

theorem rhbBody_blind (b : Byte) : Blind (rhbBody b) := by
  have hsize : Blind (rhbSizeLow b) := Blind.ite (fun _ _ _ => Iff.rfl) (raise_blind _ _) fun _ _ _ => rfl
  have hend : Blind (rhbEndLength b) :=
    Blind.ite (c := fun _ => b = 0) (fun _ _ _ => Iff.rfl) (raise_blind _ _) fun _ _ _ => rfl
  have hsym : Blind (rhbSymbol b) := Blind.ite (fun _ _ _ => Iff.rfl) (raise_blind _ _) fun _ _ _ => rfl
  have hlen : Blind (rhbLength b) :=
    Blind.ite (c := fun _ => b = 0) (fun _ _ _ => Iff.rfl) (raise_blind _ _) fun _ _ _ => rfl
  exact Blind.ite (fun _ _ _ => Iff.rfl) (fun _ _ _ => rfl) (Blind.ite (fun _ _ _ => Iff.rfl) hsize
    (Blind.ite (fun _ _ _ => Iff.rfl) hend (Blind.ite (fun _ _ _ => Iff.rfl) hsym hlen)))

theorem walkBits_blind (w : Word) (arg : Byte) (k : Nat) : Blind (walkBits w arg k) := by
  induction k with
  | zero => exact fun _ _ _ => rfl
  | succ k ih =>
    refine Blind.ite (fun _ _ _ => Iff.rfl) (raise_blind _ _) fun ins pre s => ?_
    have hdown : stepDown (operandBit arg k) (behind ins pre s) = behind ins pre (stepDown (operandBit arg k) s) := rfl
    rw [hdown]
    generalize stepDown (operandBit arg k) s = t
    change (match assocFind t.trie t.slot.toNat with | none => _ | some sym => _) = _
    cases assocFind t.trie t.slot.toNat with
    | none => exact ih ins pre t
    | some sym =>
      exact Blind.ite (c := fun _ => sym.toNat = Config.endSym) (f := fun t => { toStartSlot t with phase := .decDone })
        (g := fun t => walkBits w arg k (emit (symbolByte sym) (toStartSlot t))) (fun _ _ _ => Iff.rfl) (fun _ _ _ => rfl)
        (ih.comp fun ins pre t => behind_emit ins pre _ (toStartSlot t)) ins pre t

theorem triBody_blind : Blind triBody := fun ins pre s => by rw [triBody, triBody, behind, behind]

theorem dcbBody_blind (b : Byte) : Blind (dcbBody b) :=
  Blind.ite (fun _ _ _ => Iff.rfl) (fun _ _ _ => rfl) (walkBits_blind _ _ _)

theorem eoiBody_blind : Blind eoiBody := fun ins pre s => by
  change (match s.phase with
    | .hdr => _ | .hdrDone | .dcodes | .dec => _ | .decDone => _
    | .idle | .count | .tree | .lens | .codes | .pack | .encDone | .fault => _) = _
  unfold eoiBody
  cases s.phase <;> rfl

theorem bodyOf_blind (i : Instr) : Blind (bodyOf i) := by
  cases i with
  | clr => exact clear_blind
  | cnt b => exact cntBody_blind b
  | bld => exact bldBody_blind
  | len => exact lenBody_blind
  | asg => exact asgBody_blind
  | whd => exact whdBody_blind
  | pkb b => exact pkbBody_blind b
  | pke => exact pkeBody_blind
  | rhb b => exact rhbBody_blind b
  | tri => exact triBody_blind
  | dcb b => exact dcbBody_blind b
  | eoi => exact eoiBody_blind

end Sys2Proof.Machine
end

section
/-! SUPPORT. Every call is the same call from reset (R10, R176). -/

namespace Sys2Proof.Machine

theorem issue_eq (i : Instr) (s : State) : issue i s = sequenced i (bodyOf i) s := issue_of_exec (exec_eq i s)

theorem issue_clr (s : State) : issue .clr s = clear s := issue_of_exec (exec_clr s)

/-! ### What the host issues -/

theorem issue_blind (i : Instr) : Blind (issue i) := fun ins pre s => by
  rw [issue_eq, issue_eq]
  exact Blind.ite (c := fun t => legal i t.phase = true) (fun _ _ _ => Iff.rfl) (bodyOf_blind i)
    (Blind.ite (c := fun t => t.phase = .fault) (f := id) (fun _ _ _ => Iff.rfl) (fun _ _ _ => rfl) (raise_blind _ _))
    ins pre s

theorem issueAll_blind (is : List Instr) : Blind (issueAll is) := by
  induction is with
  | nil => exact fun _ _ _ => rfl
  | cons i is ih => exact ih.comp (issue_blind i)

theorem issueIn_blind (p : Phase) (i : Instr) : Blind (issueIn p i) :=
  Blind.ite (fun _ _ _ => Iff.rfl) (issue_blind i) fun _ _ _ => rfl

theorem afterHeader_blind : Blind afterHeader :=
  (issueIn_blind .dcodes .tri).comp ((issueIn_blind .hdrDone .asg).comp (issueIn_blind .hdr .eoi))

theorem feedHeader_blind (Z : List Byte) (ins : List Input) (pre : List Byte) (s : State) :
    feedHeader Z (behind ins pre s) = (behind ins pre (feedHeader Z s).1, (feedHeader Z s).2) := by
  induction Z generalizing s with
  | nil => rfl
  | cons b Z ih =>
    by_cases h : s.phase = .idle ∨ s.phase = .hdr
    · rw [feedHeader, feedHeader, if_pos h, if_pos (show (behind ins pre s).phase = _ ∨ (behind ins pre s).phase = _ from h),
        issue_blind _ ins pre s, ih]
    · rw [feedHeader, feedHeader, if_neg h,
        if_neg (show ¬ ((behind ins pre s).phase = _ ∨ (behind ins pre s).phase = _) from h)]

theorem feedPayload_blind (Z : List Byte) : Blind (feedPayload Z) := by
  induction Z with
  | nil => exact fun _ _ _ => rfl
  | cons b Z ih => exact Blind.ite (fun _ _ _ => Iff.rfl) (ih.comp (issue_blind _)) fun _ _ _ => rfl

/-! ### The calls -/

/-- A call's result leaves out the bytes emitted before it began. -/
theorem callResult_behind (p : Phase) (ins : List Input) (pre : List Byte) (s : State) :
    callResult p pre.length (behind ins pre s) = callResult p 0 s := by
  rw [callResult, callResult, show (behind ins pre s).out.drop pre.length = s.out from List.drop_left]
  rfl

/-- `CLR` leaves the reset state behind what was emitted and is presented (R83, R211). -/
theorem clear_eq_behind (s : State) : clear s = behind s.input s.out State.reset := by
  simp [clear, behind]

theorem clear_reset : clear State.reset = State.reset := rfl

/-- A call whose first command is `CLR` ends as it ends from reset. -/
theorem callResult_of_clear {f : State → State} (hf : Blind f) (p : Phase) (s : State) :
    callResult p s.out.length (f (clear s)) = callResult p 0 (f State.reset) := by
  rw [clear_eq_behind, hf, callResult_behind]

theorem encodeCall_eq_reset (S : List Byte) (s : State) : encodeCall S s = encodeCall S State.reset := by
  have key (s : State) : encodeCall S s = callResult .encDone s.out.length
      (issueAll (S.map .cnt ++ [.bld, .len, .asg, .whd] ++ S.map .pkb ++ [.pke]) (clear s)) := by
    rw [encodeCall, Pseudo.expand, ← issue_clr]
    simp only [List.append_assoc, List.cons_append, List.nil_append, issueAll_cons]
  rw [key, key, callResult_of_clear (issueAll_blind _), clear_reset]
  rfl

/-- `decode` after its `CLR` (R166). -/
def decodeFrom (Z : List Byte) (s : State) : State :=
  issueIn .dec .eoi (feedPayload (feedHeader Z s).2 (afterHeader (feedHeader Z s).1))

theorem decodeFrom_blind (Z : List Byte) : Blind (decodeFrom Z) := fun ins pre s => by
  rw [decodeFrom, decodeFrom, feedHeader_blind, afterHeader_blind ins pre, feedPayload_blind _ ins pre,
    issueIn_blind _ _ ins pre]

/-- R166: `decode` of a sequence that is not empty, from reset. -/
theorem decodeCall_eq_reset {Z : List Byte} (hZ : Z ≠ []) (s : State) :
    decodeCall Z s = callResult .decDone 0 (decodeFrom Z State.reset) := by
  rw [decodeCall, if_neg hZ, ← callResult_of_clear (decodeFrom_blind Z) _ s, ← issue_clr]
  rfl

end Sys2Proof.Machine
end

section
/-! The statements of 47_composite_and_properties.md on determinism and on the empty input, settled. -/

namespace Sys2Proof.Proofs

open Sys2Proof.Machine

/-- Settles O52: both calls begin with `CLR`, and no later command reads what `CLR` keeps. -/
theorem callsAreDeterministic : Obligations.CallsAreDeterministic := by
  refine ⟨fun S s s' => (encodeCall_eq_reset S s).trans (encodeCall_eq_reset S s').symm, fun Z s s' => ?_⟩
  by_cases hZ : Z = []
  · rw [decodeCall, decodeCall, if_pos hZ, if_pos hZ]
  · rw [decodeCall_eq_reset hZ, decodeCall_eq_reset hZ]

/-- Settles O55: the two calls are run from reset. -/
theorem emptyInputRoundTrip : Obligations.EmptyInputRoundTrip := by
  intro s
  rw [encodeCall_eq_reset, decodeCall_eq_reset (by decide)]
  exact ⟨by decide +kernel, by decide +kernel⟩

end Sys2Proof.Proofs
end

section
/-! SUPPORT. Code trees (R107, R111): their leaves with their depths, the weight of the leaves, and the weighted sum of the
depths as the weights of the internal nodes. -/

namespace Sys2Proof.Machine

/-- A full binary tree with a symbol at each leaf. -/
inductive CodeTree where
  | leaf (x : Nat)
  | node (l r : CodeTree)

namespace CodeTree

/-- The symbols at the leaves, from left to right. -/
def leaves : CodeTree → List Nat
  | leaf x => [x]
  | node l r => l.leaves ++ r.leaves

def height : CodeTree → Nat
  | leaf _ => 0
  | node l r => max l.height r.height + 1

/-- The leaves with their depths (R111), the root being at depth `d`. -/
def depths : CodeTree → Nat → List (Nat × Nat)
  | leaf x, d => [(x, d)]
  | node l r, d => l.depths (d + 1) ++ r.depths (d + 1)

/-- The sum of the weights of the leaves. -/
def weight (w : Nat → Nat) : CodeTree → Nat
  | leaf x => w x
  | node l r => l.weight w + r.weight w

/-- The sum of the weights of the internal nodes. -/
def cost (w : Nat → Nat) : CodeTree → Nat
  | leaf _ => 0
  | node l r => l.cost w + r.cost w + (l.weight w + r.weight w)

theorem depths_map_fst (t : CodeTree) (d : Nat) : (t.depths d).map Prod.fst = t.leaves := by
  induction t generalizing d with
  | leaf x => rfl
  | node l r ihl ihr => rw [depths, leaves, List.map_append, ihl, ihr]

theorem depth_le {t : CodeTree} {d : Nat} {p : Nat × Nat} (h : p ∈ t.depths d) : p.2 ≤ d + t.height := by
  induction t generalizing d with
  | leaf x => rw [List.mem_singleton.1 h]; exact Nat.le_add_right ..
  | node l r ihl ihr =>
    rw [height]
    rcases List.mem_append.1 h with h | h
    · have := ihl h; omega
    · have := ihr h; omega

theorem le_depth {t : CodeTree} {d : Nat} {p : Nat × Nat} (h : p ∈ t.depths d) : d ≤ p.2 := by
  induction t generalizing d with
  | leaf x => rw [List.mem_singleton.1 h]
  | node l r ihl ihr =>
    rcases List.mem_append.1 h with h | h
    · exact Nat.le_of_succ_le (ihl h)
    · exact Nat.le_of_succ_le (ihr h)

/-- The depths weighted sum to the weights of the internal nodes, and the whole weight for each level above the root. -/
theorem sum_mul_depths (w : Nat → Nat) (t : CodeTree) (d : Nat) :
    ((t.depths d).map fun p => w p.1 * p.2).sum = t.cost w + t.weight w * d := by
  induction t generalizing d with
  | leaf x => simp [depths, cost, weight]
  | node l r ihl ihr =>
    rw [depths, List.map_append, List.sum_append, ihl, ihr, cost, weight]
    ring

/-- R20: the Kraft sum of a full tree is 1. -/
theorem sum_pow_depths {N : Nat} (t : CodeTree) {d : Nat} (h : d + t.height ≤ N) :
    ((t.depths d).map fun p => 2 ^ (N - p.2)).sum = 2 ^ (N - d) := by
  induction t generalizing d with
  | leaf x => simp [depths]
  | node l r ihl ihr =>
    rw [height] at h
    rw [depths, List.map_append, List.sum_append, ihl (by omega), ihr (by omega), ← two_mul, ← pow_succ']
    congr 1
    omega

end CodeTree

end Sys2Proof.Machine
end

section
/-! SUPPORT. One merge of Huffman's construction (R103, R104) on a finite set of weighted nodes, whatever the nodes are. -/

namespace Sys2Proof.Machine

/-- `Q'` is the queue `Q` with its two lightest nodes `a` and `b` merged into `c`. -/
structure MergeStep (w : Nat → Nat) (Q Q' : Finset Nat) (a b c : Nat) : Prop where
  memFirst : a ∈ Q
  memSecond : b ∈ Q.erase a
  fresh : c ∉ Q
  next : Q' = insert c ((Q.erase a).erase b)
  first : ∀ y ∈ Q, w a ≤ w y
  second : ∀ y ∈ Q.erase a, w b ≤ w y
  sum : w c = w a + w b

theorem mem_of_mem_erase_erase {Q : Finset Nat} {a b x : Nat} (h : x ∈ (Q.erase a).erase b) : x ∈ Q :=
  Finset.mem_of_mem_erase (Finset.mem_of_mem_erase h)

namespace MergeStep

variable {w : Nat → Nat} {Q Q' : Finset Nat} {a b c : Nat} (h : MergeStep w Q Q' a b c)
include h

theorem mem_second : b ∈ Q := Finset.mem_of_mem_erase h.memSecond

theorem eq_new_or_rest {x : Nat} (hx : x ∈ Q') : x = c ∨ x ∈ (Q.erase a).erase b := by
  rwa [h.next, Finset.mem_insert] at hx

theorem sum_before {M : Type} [AddCommMonoid M] (f : Nat → M) :
    ∑ x ∈ Q, f x = f a + (f b + ∑ x ∈ (Q.erase a).erase b, f x) := by
  rw [Finset.add_sum_erase _ f h.memSecond, Finset.add_sum_erase _ f h.memFirst]

theorem sum_after {M : Type} [AddCommMonoid M] (f : Nat → M) :
    ∑ x ∈ Q', f x = f c + ∑ x ∈ (Q.erase a).erase b, f x := by
  rw [h.next, Finset.sum_insert fun hc => h.fresh (mem_of_mem_erase_erase hc)]

/-- A sum over the nodes is kept where the new node counts for the two merged. -/
theorem sum_kept {M : Type} [AddCommMonoid M] {f : Nat → M} (hf : f c = f a + f b) :
    ∑ x ∈ Q', f x = ∑ x ∈ Q, f x := by
  rw [h.sum_before, h.sum_after, hf, add_assoc]

end MergeStep

/-! ### Lengths that a merge lets shrink -/

/-- Lengths at most `N` of Kraft sum at most 1, in units of `2^-N`. -/
def KraftFits (N : Nat) (Q : Finset Nat) (len : Nat → Nat) : Prop :=
  (∀ x ∈ Q, len x ≤ N) ∧ ∑ x ∈ Q, 2 ^ (N - len x) ≤ 2 ^ N

/-- The bits of a payload in which `x` occurs `w x` times. -/
def totalBits (w len : Nat → Nat) (Q : Finset Nat) : Nat := ∑ x ∈ Q, w x * len x

/-- The longer length goes to the lighter of two nodes at no cost. -/
theorem exists_swapped {w len : Nat → Nat} {Q : Finset Nat} {N z p : Nat} (hz : z ∈ Q) (hp : p ∈ Q) (hw : w z ≤ w p)
    (hlen : len z ≤ len p) (hfit : KraftFits N Q len) :
    KraftFits N Q (len ∘ Equiv.swap z p) ∧ totalBits w (len ∘ Equiv.swap z p) Q ≤ totalBits w len Q := by
  have hmem : ∀ x ∈ Q, Equiv.swap z p x ∈ Q := fun x hx => by
    rw [Equiv.swap_apply_def]
    split_ifs <;> assumption
  have hmoved : {x | Equiv.swap z p x ≠ x} ⊆ (Q : Set Nat) := fun x hx => by
    by_contra hxQ
    exact hx (Equiv.swap_apply_of_ne_of_ne (fun e => hxQ (e ▸ hz)) fun e => hxQ (e ▸ hp))
  refine ⟨⟨fun x hx => hfit.1 _ (hmem x hx), ?kraft⟩, ?cost⟩
  case kraft =>
    have hsum := Equiv.Perm.sum_comp (Equiv.swap z p) Q (fun x => 2 ^ (N - len x)) hmoved
    exact hsum.trans_le hfit.2
  case cost =>
    rcases eq_or_ne z p with rfl | hne
    · simp [totalBits]
    · have hp' : p ∈ Q.erase z := Finset.mem_erase.2 ⟨hne.symm, hp⟩
      have hrest : ∑ x ∈ (Q.erase z).erase p, w x * (len ∘ Equiv.swap z p) x = ∑ x ∈ (Q.erase z).erase p, w x * len x :=
        Finset.sum_congr rfl fun x hx => by
          obtain ⟨hxp, hx⟩ := Finset.mem_erase.1 hx
          rw [Function.comp_apply, Equiv.swap_apply_of_ne_of_ne (Finset.mem_erase.1 hx).1 hxp]
      rw [totalBits, totalBits, ← Finset.add_sum_erase _ _ hz, ← Finset.add_sum_erase _ _ hp', hrest,
        ← Finset.add_sum_erase Q (fun x => w x * len x) hz, ← Finset.add_sum_erase _ (fun x => w x * len x) hp']
      simp only [Function.comp_apply, Equiv.swap_apply_left, Equiv.swap_apply_right]
      have := mul_add_mul_le_mul_add_mul hw hlen
      omega

/-- Lengths can be rearranged, at no cost, so that the lightest node of a part of the queue has the greatest one there. -/
theorem exists_longest_at {w len : Nat → Nat} {Q R : Finset Nat} {N z : Nat} (hR : R ⊆ Q) (hz : z ∈ R)
    (hw : ∀ y ∈ R, w z ≤ w y) (hfit : KraftFits N Q len) :
    ∃ len', KraftFits N Q len' ∧ totalBits w len' Q ≤ totalBits w len Q ∧ (∀ y ∈ R, len' y ≤ len' z)
      ∧ (∀ y, y ∉ R → len' y = len y) ∧ ∀ m, (∀ y ∈ Q, len y ≤ m) → ∀ y ∈ Q, len' y ≤ m := by
  obtain ⟨p, hp, hmax⟩ := Finset.exists_max_image R len ⟨z, hz⟩
  obtain ⟨hfit', hcost⟩ := exists_swapped (hR hz) (hR hp) (hw p hp) (hmax z hz) hfit
  refine ⟨_, hfit', hcost, fun y hy => ?longest, fun y hy => ?outside, fun m hm y hy => ?bound⟩
  case longest =>
    rw [Function.comp_apply, Function.comp_apply, Equiv.swap_apply_left, Equiv.swap_apply_def]
    split_ifs
    exacts [le_rfl, hmax z hz, hmax y hy]
  case outside =>
    have hne : ∀ q ∈ R, y ≠ q := fun q hq e => hy (e ▸ hq)
    rw [Function.comp_apply, Equiv.swap_apply_of_ne_of_ne (hne z hz) (hne p hp)]
  case bound =>
    rw [Function.comp_apply, Equiv.swap_apply_def]
    split_ifs
    exacts [hm p (hR hp), hm z (hR hz), hm y hy]

/-- The two lightest nodes can have the two greatest lengths. -/
theorem MergeStep.exists_sorted {w len : Nat → Nat} {Q Q' : Finset Nat} {a b c N : Nat} (h : MergeStep w Q Q' a b c)
    (hfit : KraftFits N Q len) :
    ∃ len', KraftFits N Q len' ∧ totalBits w len' Q ≤ totalBits w len Q ∧ len' b ≤ len' a
      ∧ ∀ y ∈ Q.erase a, len' y ≤ len' b := by
  obtain ⟨len₁, hfit₁, hcost₁, hlongest, -⟩ := exists_longest_at (Finset.Subset.refl Q) h.memFirst h.first hfit
  obtain ⟨len₂, hfit₂, hcost₂, hsecond, hsame, hbound⟩ :=
    exists_longest_at (Finset.erase_subset a Q) h.memSecond h.second hfit₁
  refine ⟨len₂, hfit₂, hcost₂.trans hcost₁, ?_, hsecond⟩
  rw [hsame a (Finset.notMem_erase a Q)]
  exact hbound _ hlongest b h.mem_second

/-- With the two greatest lengths `k ≥ l`, the shorter can take the place of both: `l` is not 0, and the node above it fits. -/
theorem KraftFits.room {N k l rest : Nat} (hl : l ≤ N) (hdvd : 2 ^ (N - l) ∣ rest)
    (hfit : 2 ^ (N - k) + (2 ^ (N - l) + rest) ≤ 2 ^ N) : 1 ≤ l ∧ 2 ^ (N - (l - 1)) + rest ≤ 2 ^ N := by
  have hk := Nat.two_pow_pos (N - k)
  have hpos : 1 ≤ l := by
    by_contra h0
    obtain rfl : l = 0 := by omega
    rw [Nat.sub_zero] at hfit
    omega
  refine ⟨hpos, ?_⟩
  have htwo : 2 ^ (N - (l - 1)) = 2 ^ (N - l) + 2 ^ (N - l) := by
    rw [← two_mul, ← pow_succ']
    congr 1
    omega
  have hwhole : 2 ^ (N - l) ∣ 2 ^ N := pow_dvd_pow 2 (Nat.sub_le N l)
  have hlt : 2 ^ (N - l) + rest < 2 ^ N := by omega
  have hgap := Nat.le_of_dvd (Nat.sub_pos_of_lt hlt) (Nat.dvd_sub hwhole (dvd_rfl.add hdvd))
  omega

/-- Huffman's step: lengths for the queue give lengths for the merged queue that save the weight of the new node. -/
theorem MergeStep.exists_merged {w len : Nat → Nat} {Q Q' : Finset Nat} {a b c N : Nat} (h : MergeStep w Q Q' a b c)
    (hfit : KraftFits N Q len) :
    ∃ len', KraftFits N Q' len' ∧ totalBits w len' Q' + w c ≤ totalBits w len Q := by
  obtain ⟨len₁, ⟨hN, hkraft⟩, hcost, hba, hlong⟩ := h.exists_sorted hfit
  have hb := hN b h.mem_second
  rw [h.sum_before] at hkraft
  obtain ⟨hpos, hroom⟩ := KraftFits.room hb
    (Finset.dvd_sum fun x hx => pow_dvd_pow 2 (Nat.sub_le_sub_left (hlong x (Finset.mem_of_mem_erase hx)) N)) hkraft
  have hnew : Function.update len₁ c (len₁ b - 1) c = len₁ b - 1 := Function.update_self ..
  have hold : ∀ x ∈ (Q.erase a).erase b, Function.update len₁ c (len₁ b - 1) x = len₁ x := fun x hx => by
    have hne : x ≠ c := fun e => h.fresh (e ▸ mem_of_mem_erase_erase hx)
    exact Function.update_of_ne hne ..
  refine ⟨Function.update len₁ c (len₁ b - 1), ⟨fun x hx => ?inRange, ?kraft⟩, ?saves⟩
  case inRange =>
    rcases h.eq_new_or_rest hx with rfl | hx
    · rw [hnew]; exact (Nat.sub_le ..).trans hb
    · rw [hold x hx]; exact hN x (mem_of_mem_erase_erase hx)
  case kraft =>
    rw [h.sum_after, hnew, Finset.sum_congr rfl fun x hx => by rw [hold x hx]]
    exact hroom
  case saves =>
    refine le_trans ?_ hcost
    rw [totalBits, totalBits, h.sum_before, h.sum_after, hnew, Finset.sum_congr rfl fun x hx => by rw [hold x hx], h.sum]
    have hsave : (w a + w b) * (len₁ b - 1) + (w a + w b) = w a * len₁ b + w b * len₁ b := by
      rw [← Nat.mul_succ, Nat.succ_eq_add_one, Nat.sub_add_cancel hpos, Nat.add_mul]
    have hlighter := Nat.mul_le_mul_left (w a) hba
    omega

end Sys2Proof.Machine
end

section
/-! SUPPORT. The whole of Huffman's construction (R104): what every queue of it keeps, and the tree it ends with. -/

namespace Sys2Proof.Machine

/-- The queues of a merge loop over the leaves `Q 0`, the tree below each node, and the root the loop ends with after `n`
turns. -/
structure MergeRun (w : Nat → Nat) (tree : Nat → CodeTree) (Q : Nat → Finset Nat) (n root : Nat) : Prop where
  leaf : ∀ x ∈ Q 0, tree x = .leaf x
  turn : ∀ k < n, ∃ a b c, MergeStep w (Q k) (Q (k + 1)) a b c ∧ tree c = .node (tree a) (tree b)
  last : Q n = {root}

/-- Every node weighs what its leaves weigh (R103). -/
def Weighed (w : Nat → Nat) (tree : Nat → CodeTree) (Q : Finset Nat) : Prop := ∀ x ∈ Q, (tree x).weight w = w x

theorem MergeStep.weighed {w : Nat → Nat} {tree : Nat → CodeTree} {Q Q' : Finset Nat} {a b c : Nat}
    (h : MergeStep w Q Q' a b c) (htree : tree c = .node (tree a) (tree b)) (hQ : Weighed w tree Q) :
    Weighed w tree Q' := fun x hx => by
  rcases h.eq_new_or_rest hx with rfl | hx
  · rw [htree, CodeTree.weight, hQ a h.memFirst, hQ b h.mem_second, h.sum]
  · exact hQ x (mem_of_mem_erase_erase hx)

namespace MergeRun

variable {w : Nat → Nat} {tree : Nat → CodeTree} {Q : Nat → Finset Nat} {n root : Nat} (h : MergeRun w tree Q n root)
include h

/-- What the leaves have and every turn keeps, the last queue has. -/
theorem keeps {P : Finset Nat → Prop} (hstart : P (Q 0))
    (hturn : ∀ Q Q' a b c, MergeStep w Q Q' a b c → tree c = .node (tree a) (tree b) → P Q → P Q') : P {root} := by
  have key : ∀ k, k ≤ n → P (Q k) := by
    intro k
    induction k with
    | zero => exact fun _ => hstart
    | succ k ih =>
      intro hk
      obtain ⟨a, b, c, hstep, htree⟩ := h.turn k hk
      exact hturn _ _ a b c hstep htree (ih (Nat.le_of_succ_le hk))
  exact h.last ▸ key n le_rfl

/-- R107 (c): the tree has every leaf once. -/
theorem leaves_root : ((tree root).leaves : Multiset Nat) = (Q 0).val := by
  have key := h.keeps (P := fun R => ∑ x ∈ R, ((tree x).leaves : Multiset Nat) = (Q 0).val)
    (by
      rw [Finset.sum_congr rfl fun x hx => by rw [h.leaf x hx]]
      exact Finset.sum_multiset_singleton _)
    fun R R' a b c hstep htree hR => (hstep.sum_kept (by rw [htree, Multiset.coe_add]; rfl)).trans hR
  rwa [Finset.sum_singleton] at key

/-- A turn of the loop may use that every node of the queue weighs what its leaves weigh. -/
theorem keeps_weighed {P : Finset Nat → Prop} (hstart : P (Q 0))
    (hturn : ∀ Q Q' a b c, MergeStep w Q Q' a b c → tree c = .node (tree a) (tree b) → Weighed w tree Q → P Q → P Q') :
    P {root} :=
  (h.keeps (P := fun R => Weighed w tree R ∧ P R) ⟨fun x hx => by rw [h.leaf x hx]; rfl, hstart⟩
    fun R R' a b c hstep htree ⟨hR, hP⟩ => ⟨hstep.weighed htree hR, hturn R R' a b c hstep htree hR hP⟩).2

/-- R172: no lengths of Kraft sum at most 1 make the payload shorter than the depths of the tree do. -/
theorem cost_root_le {len : Nat → Nat} {N : Nat} (hfit : KraftFits N (Q 0) len) :
    (tree root).cost w ≤ totalBits w len (Q 0) := by
  obtain ⟨len', -, hle⟩ := h.keeps_weighed
    (P := fun R => ∃ len', KraftFits N R len' ∧ ∑ x ∈ R, (tree x).cost w + totalBits w len' R ≤ totalBits w len (Q 0))
    ⟨len, hfit, by rw [Finset.sum_eq_zero fun x hx => by rw [h.leaf x hx]; rfl, Nat.zero_add]⟩
    fun R R' a b c hstep htree hweight ⟨len', hfit', hle⟩ => by
      obtain ⟨len'', hfit'', hsave⟩ := hstep.exists_merged hfit'
      refine ⟨len'', hfit'', ?_⟩
      rw [hstep.sum_before] at hle
      rw [hstep.sum_after, htree, CodeTree.cost, hweight a hstep.memFirst, hweight b hstep.mem_second, ← hstep.sum]
      omega
  rw [Finset.sum_singleton] at hle
  exact (Nat.le_add_right ..).trans hle

/-- R113: a tree of height `d` weighs at least the Fibonacci number of `d + 2`: in every queue some weight lies between the
nodes of the queue and the children merged so far. -/
theorem fib_height_le (hpos : ∀ x ∈ Q 0, 1 ≤ w x) : Nat.fib ((tree root).height + 2) ≤ w root := by
  obtain ⟨bound, hbound⟩ := h.keeps
    (P := fun R => ∃ bound, ∀ x ∈ R,
      bound ≤ w x ∧ Nat.fib ((tree x).height + 1) ≤ bound ∧ Nat.fib ((tree x).height + 2) ≤ w x)
    ⟨1, fun x hx => by rw [h.leaf x hx]; exact ⟨hpos x hx, le_rfl, hpos x hx⟩⟩
    fun R R' a b c hstep htree ⟨bound, hR⟩ => ⟨w b, fun x hx => by
      obtain ⟨ha, ha₁, ha₂⟩ := hR a hstep.memFirst
      obtain ⟨hb, hb₁, hb₂⟩ := hR b hstep.mem_second
      have hab := hstep.first b hstep.mem_second
      have hsum := hstep.sum
      rcases hstep.eq_new_or_rest hx with rfl | hx
      · rw [htree, CodeTree.height]
        rcases le_total (tree a).height (tree b).height with hle | hle
        · rw [max_eq_right hle, Nat.fib_add_two (n := (tree b).height + 1)]
          simp only [Nat.add_assoc, Nat.reduceAdd]
          omega
        · rw [max_eq_left hle, Nat.fib_add_two (n := (tree a).height + 1)]
          simp only [Nat.add_assoc, Nat.reduceAdd]
          omega
      · obtain ⟨-, hx₁, hx₂⟩ := hR x (mem_of_mem_erase_erase hx)
        exact ⟨hstep.second x (Finset.mem_of_mem_erase hx), hx₁.trans hb, hx₂⟩⟩
  exact (hbound root (Finset.mem_singleton_self root)).2.2

end MergeRun

end Sys2Proof.Machine
end

section
/-! SUPPORT. The loop of `BLD` as Huffman's construction (R102 to R104): the queues are those of `Safety.InQueue`, and each merge
takes the two lightest nodes, with weights that do not wrap (R107 (b)). -/

namespace Sys2Proof.Machine

open Sys2Proof.Safety

/-- The weight of a node, as a number. -/
def nodeWeight (t : State) (x : Nat) : Nat := (tableGet t.nodeWt x).toNat

open scoped Classical in
/-- The queue before the `k`-th merge. -/
noncomputable def queueAt (s t : State) (k : Nat) : Finset Nat :=
  (Finset.range (Config.firstInternal + k)).filter (InQueue s t k)

open scoped Classical in
@[simp] theorem mem_queueAt {s t : State} {k x : Nat} : x ∈ queueAt s t k ↔ InQueue s t k x :=
  Finset.mem_filter.trans (and_iff_right_of_imp fun h => Finset.mem_range.2 (inQueue_lt h))

/-- The leaves (R100), the real symbols before END. -/
def leafSymbols (s : State) : List Nat := presentSymbols s.freq ++ [Config.endSym]

theorem mem_leafSymbols {s : State} {x : Nat} : x ∈ leafSymbols s ↔ IsLeafSymbol s x := isLeafSymbol_iff_mem.symm

theorem leafSymbols_nodup (s : State) : (leafSymbols s).Nodup := (mergeStart_inv s).nodup

/-- The first queue holds the leaves. -/
theorem queueAt_zero (s t : State) : queueAt s t 0 = (leafSymbols s).toFinset := by
  ext x
  rw [mem_queueAt, inQueue_zero_iff, List.mem_toFinset, mem_leafSymbols]

theorem queueAt_zero_val (s t : State) : (queueAt s t 0).val = (leafSymbols s : Multiset Nat) := by
  rw [queueAt_zero, List.toFinset_val, (leafSymbols_nodup s).dedup]

/-- A sum over the leaves of what depends on their frequency, END counting once (R100). -/
theorem sum_leafWeight (s : State) (f : Nat → Nat) :
    ∑ x ∈ (leafSymbols s).toFinset, (leafWeight s x).toNat * f x
      = ((presentSymbols s.freq).map fun x => (tableGet s.freq x).toNat * f x).sum + f Config.endSym := by
  have hpresent : ((presentSymbols s.freq).map fun x => (leafWeight s x).toNat * f x)
      = (presentSymbols s.freq).map fun x => (tableGet s.freq x).toNat * f x :=
    List.map_congr_left fun x hx => by rw [leafWeight, if_neg (mem_presentSymbols.1 hx).1.ne]
  have hend : (leafWeight s Config.endSym).toNat = 1 := congrArg BitVec.toNat (if_pos rfl)
  rw [List.sum_toFinset _ (leafSymbols_nodup s), leafSymbols, List.map_append, List.sum_append, hpresent, List.map_singleton,
    List.sum_singleton, hend, Nat.one_mul]

/-- R16, R107: the leaves weigh one more than the bytes counted. -/
theorem sum_leafWeight_eq (s : State) : ∑ x ∈ (leafSymbols s).toFinset, (leafWeight s x).toNat = freqSum s + 1 := by
  have h := sum_leafWeight s fun _ => 1
  simp only [Nat.mul_one] at h
  rw [h, freqSum, ← List.sum_toFinset _ (presentSymbols_nodup _), ← List.sum_toFinset _ (show byteValues.Nodup from List.nodup_range),
    presentSymbols,
    List.toFinset_filter, Finset.sum_filter_of_ne]
  intro x _ hx
  exact decide_eq_true fun e => hx (by rw [e]; rfl)

theorem before_le {t : State} {x y : Nat} (h : Before t x y) : nodeWeight t x ≤ nodeWeight t y :=
  h.elim Nat.le_of_lt fun h => le_of_eq (congrArg BitVec.toNat h.1)

/-- The first of the queue is the lightest. -/
theorem firstInQueue_le {s t : State} {k x y : Nat} {gone : List Nat} (h : FirstInQueue s t k gone x)
    (hy : InQueue s t k y) (hgone : y ∉ gone) : nodeWeight t x ≤ nodeWeight t y := by
  by_cases hne : y = x
  · rw [hne]
  · exact before_le (h.2.2 y hy hgone hne)

/-- R103: a merge of `BLD` is a step of Huffman's construction, where the weights of the queue can be summed. -/
theorem MergedAt.mergeStep {s t : State} {k : Nat} (h : ∀ j, j < k + 1 → MergedAt s t j)
    (hfits : ∑ x ∈ queueAt s t k, nodeWeight t x < 2 ^ Config.cntW) :
    MergeStep (nodeWeight t) (queueAt s t k) (queueAt s t (k + 1)) (tableGet t.nodeL (Config.firstInternal + k)).toNat
      (tableGet t.nodeR (Config.firstInternal + k)).toNat (Config.firstInternal + k) := by
  obtain ⟨hleft, hright, hsum⟩ := h k (Nat.lt_succ_self k)
  have hmemL := mem_queueAt.2 hleft.1
  have hmemR := Finset.mem_erase.2 ⟨fun e => hright.2.1 (List.mem_singleton.2 e), mem_queueAt.2 hright.1⟩
  refine ⟨hmemL, hmemR, fun hmem => (inQueue_lt (mem_queueAt.1 hmem)).ne rfl, ?next,
    fun y hy => firstInQueue_le hleft (mem_queueAt.1 hy) List.not_mem_nil, fun y hy => ?second, ?sum⟩
  case next =>
    ext x
    simp only [mem_queueAt, Finset.mem_insert, Finset.mem_erase, inQueue_succ_iff h]
    tauto
  case second =>
    obtain ⟨hne, hy⟩ := Finset.mem_erase.1 hy
    exact firstInQueue_le hright (mem_queueAt.1 hy) fun e => hne (List.mem_singleton.1 e)
  case sum =>
    rw [nodeWeight, hsum]
    rw [← Finset.add_sum_erase _ _ hmemL, ← Finset.add_sum_erase _ _ hmemR, ← Nat.add_assoc] at hfits
    exact BitVec.toNat_add_of_lt ((Nat.le_add_right ..).trans_lt hfits)

end Sys2Proof.Machine
end

section
/-! SUPPORT. The tree below a node of the node memory (R101, R107), and that `LEN` lists its leaves with their depths (R111). -/

namespace Sys2Proof.Machine

open Sys2Proof.Safety

/-- Node `x` is internal, with children of smaller identifiers (R101). -/
def SmallerChildren (t : State) (x : Nat) : Prop :=
  Config.endSym < x ∧ (tableGet t.nodeL x).toNat < x ∧ (tableGet t.nodeR x).toNat < x

open scoped Classical in
/-- The tree below node `x`. -/
noncomputable def treeAt (t : State) (x : Nat) : CodeTree :=
  if _h : SmallerChildren t x then .node (treeAt t (tableGet t.nodeL x).toNat) (treeAt t (tableGet t.nodeR x).toNat)
  else .leaf x
termination_by x
decreasing_by exacts [_h.2.1, _h.2.2]

theorem treeAt_of_internal {t : State} {x : Nat} (h : SmallerChildren t x) :
    treeAt t x = .node (treeAt t (tableGet t.nodeL x).toNat) (treeAt t (tableGet t.nodeR x).toNat) := by
  rw [treeAt, dif_pos h]

theorem treeAt_of_leaf {t : State} {x : Nat} (h : x ≤ Config.endSym) : treeAt t x = .leaf x := by
  rw [treeAt, dif_neg fun hx => hx.1.not_ge h]

/-- R110, R111: where every internal identifier up to a node's has smaller children, the walk from the node lists the leaves
of its tree, if it is not too deep for the walk. -/
theorem leafDepths_eq_depths {t : State} {bound : Nat} (ht : ∀ x < bound, Config.endSym < x → SmallerChildren t x) {fuel x : Nat}
    (hx : x < bound) (hheight : (treeAt t x).height < fuel) (hfuel : fuel ≤ walkLimit) :
    leafDepths t.nodeL t.nodeR fuel x = (treeAt t x).depths (walkLimit - fuel) := by
  induction fuel generalizing x with
  | zero => exact absurd hheight (Nat.not_lt_zero _)
  | succ fuel ih =>
    rcases Nat.lt_or_ge Config.endSym x with hint | hleaf
    · have hsmall := ht x hx hint
      have ⟨_, hL, hR⟩ := hsmall
      rw [treeAt_of_internal hsmall, CodeTree.height] at hheight
      have hdeeper : walkLimit - (fuel + 1) + 1 = walkLimit - fuel := by omega
      rw [leafDepths_of_internal hint, treeAt_of_internal hsmall, CodeTree.depths, hdeeper,
        ih (hL.trans hx) (by omega) (by omega), ih (hR.trans hx) (by omega) (by omega)]
    · rw [leafDepths_of_leaf hleaf, treeAt_of_leaf hleaf, CodeTree.depths]

end Sys2Proof.Machine
end

section
/-! SUPPORT. The tree that `BLD` builds (R107), for a table of frequencies whose sum does not wrap. -/

namespace Sys2Proof.Machine

open Sys2Proof.Safety

/-- R101: every internal identifier that `BLD` gave has smaller children. -/
theorem bldTree_smallerChildren (s : State) {x : Nat}
    (hx : x < Config.firstInternal + (presentSymbols s.freq).length) (hint : Config.endSym < x) :
    SmallerChildren (bldTree s) x := by
  obtain ⟨k, rfl⟩ := Nat.exists_eq_add_of_le (Nat.succ_le_of_lt hint)
  exact ⟨hint, (bldTree_mergedAt s (Nat.lt_of_add_lt_add_left hx)).children_lt⟩

theorem bldTree_nodeWeight_of_leaf {s : State} {x : Nat} (h : IsLeafSymbol s x) :
    nodeWeight (bldTree s) x = (leafWeight s x).toNat := congrArg BitVec.toNat ((mergeAll_inv s).leaves x h)

/-- R104: the last queue holds the root alone. -/
theorem queueAt_last {s : State} (hne : presentSymbols s.freq ≠ []) :
    queueAt s (bldTree s) (presentSymbols s.freq).length = {(bldTree s).root.toNat} := by
  have hinv := mergeAll_inv s
  have hlen := (mergeLoop_counts _ _ (mergeStart_length s)).1
  have hhead := hinv.newest.resolve_left (by simpa using hne)
  obtain ⟨r, hr⟩ := List.length_eq_one_iff.1 hlen
  have hqueue : (mergeAll s).queue = [r] := hr
  rw [hqueue, List.head?_cons, Option.some_inj, mergeAll_k] at hhead
  ext x
  have hsame : SameNodesBelow (Config.firstInternal + (mergeAll s).k) (withNodes (mergeAll s) s) (bldTree s) :=
    fun _ _ => ⟨rfl, rfl, rfl⟩
  rw [mem_queueAt, Finset.mem_singleton, bldTree_root hne, ← hhead, ← mergeAll_k, inQueue_congr hsame, ← hinv.queued, hqueue,
    List.mem_singleton]

section Counted

variable {s : State} (hfits : freqSum s + 1 < 2 ^ Config.cntW)
include hfits

/-- R107 (b): every queue weighs what the leaves weigh. -/
theorem sum_queueAt {k : Nat} (hk : k ≤ (presentSymbols s.freq).length) :
    ∑ x ∈ queueAt s (bldTree s) k, nodeWeight (bldTree s) x = freqSum s + 1 := by
  induction k with
  | zero =>
    rw [queueAt_zero, ← sum_leafWeight_eq]
    exact Finset.sum_congr rfl fun x hx => bldTree_nodeWeight_of_leaf (mem_leafSymbols.1 (List.mem_toFinset.1 hx))
  | succ k ih =>
    have hsum := ih (Nat.le_of_succ_le hk)
    have hstep := MergedAt.mergeStep (fun j hj => bldTree_mergedAt s (hj.trans_le hk)) (hsum.trans_lt hfits)
    rw [hstep.sum_kept hstep.sum, hsum]

/-- R104: `BLD` runs Huffman's construction. -/
theorem bldTree_mergeRun (hne : presentSymbols s.freq ≠ []) :
    MergeRun (nodeWeight (bldTree s)) (treeAt (bldTree s)) (queueAt s (bldTree s)) (presentSymbols s.freq).length
      (bldTree s).root.toNat where
  leaf _ hx := treeAt_of_leaf (isLeafSymbol_le (inQueue_zero_iff.1 (mem_queueAt.1 hx)))
  turn _ hk := ⟨_, _, _,
    MergedAt.mergeStep (fun _ hj => bldTree_mergedAt s (hj.trans_le hk)) ((sum_queueAt hfits hk.le).trans_lt hfits),
    treeAt_of_internal (bldTree_smallerChildren s (Nat.add_lt_add_left hk _)
      (Nat.lt_of_lt_of_le (Nat.lt_succ_self _) (Nat.le_add_right ..)))⟩
  last := queueAt_last hne

end Counted

end Sys2Proof.Machine
end

section
/-! SUPPORT. The lengths that `LEN` makes of the tree that `BLD` built (R110, R113, R172). -/

namespace Sys2Proof.Machine

open Sys2Proof.Safety

/-- The lengths of a code for the bytes counted and END: each of those symbols and no other has a length, the code space is not
over-subscribed, and no prefix-free code without empty codeword makes the payload shorter. -/
structure HuffmanLengths (s : State) (lent : Table 8) : Prop where
  wf : tableWf 0 Config.nsym lent = true
  coded : ∀ x, tableGet lent x ≠ 0 ↔ IsLeafSymbol s x
  kraft : kraftSum lent ≤ kraftOne
  optimal : ∀ (N : Nat) (len : Nat → Nat), KraftFits N (leafSymbols s).toFinset len →
    (∀ x, IsLeafSymbol s x → 1 ≤ len x) →
    totalBits (fun x => (leafWeight s x).toNat) (fun x => (tableGet lent x).toNat) (leafSymbols s).toFinset
      ≤ totalBits (fun x => (leafWeight s x).toNat) len (leafSymbols s).toFinset

/-- What `LEN` leaves of the state before `BLD` (R110): the lengths, and no tree. -/
def withLengths (lent : Table 8) (s : State) : State :=
  { s with
    lent := lent, maxlen := maxLength lent, nodeWt := [], nodeL := [], nodeR := [], root := 0, nint := 0, phase := .lens }

theorem lengthTable_wf {d : List (Nat × Nat)} (h : ∀ p ∈ d, p.1 ≤ Config.endSym) :
    tableWf 0 Config.nsym (lengthTable d) = true := by
  induction d using List.reverseRecOn with
  | nil => exact tableWf_nil ..
  | append_singleton d p ih =>
    obtain ⟨hd, hp⟩ := List.forall_mem_append.1 h
    rw [lengthTable, List.foldl_append]
    exact tableSet_wf (ih hd) (Nat.zero_le _) (Nat.lt_succ_of_le (hp p (List.mem_singleton_self p))) _

/-- R118: only the coded symbols count in the Kraft sum. -/
theorem kraftSum_eq_sum_leaves {s : State} {lent : Table 8} (hcoded : ∀ x, tableGet lent x ≠ 0 ↔ IsLeafSymbol s x) :
    kraftSum lent = ∑ x ∈ (leafSymbols s).toFinset, 2 ^ (Config.lmax - (tableGet lent x).toNat) := by
  rw [kraftSum, ← List.sum_toFinset _ (show symbols.Nodup from List.nodup_range)]
  have hsub : (leafSymbols s).toFinset ⊆ symbols.toFinset := fun x hx =>
    List.mem_toFinset.2 (mem_symbols.2 (isLeafSymbol_le (mem_leafSymbols.1 (List.mem_toFinset.1 hx))))
  rw [← Finset.sum_subset hsub fun x _ hx => if_pos (by
    by_contra h
    exact hx (List.mem_toFinset.2 (mem_leafSymbols.2 ((hcoded x).1 h))))]
  exact Finset.sum_congr rfl fun x hx => if_neg ((hcoded x).2 (mem_leafSymbols.1 (List.mem_toFinset.1 hx)))

/-! ### No byte counted -/

/-- R106, R112: without a byte the code is END's alone. -/
theorem huffmanLengths_of_empty {s : State} (hempty : presentSymbols s.freq = []) :
    HuffmanLengths s (lengthTable [(Config.endSym, 1)]) := by
  have hleaves : leafSymbols s = [Config.endSym] := by rw [leafSymbols, hempty, List.nil_append]
  have hlent (x : Nat) : tableGet (lengthTable [(Config.endSym, 1)]) x = if x = Config.endSym then 1 else 0 := by
    rw [tableGet_lengthTable_ones (by simp)]
    simp
  have hcoded (x : Nat) : tableGet (lengthTable [(Config.endSym, 1)]) x ≠ 0 ↔ IsLeafSymbol s x := by
    rw [← mem_leafSymbols, hleaves, List.mem_singleton, hlent]
    split <;> simp_all
  refine ⟨lengthTable_wf (by simp), hcoded, ?kraft, fun N len _ hpos => ?optimal⟩
  case kraft =>
    rw [kraftSum_eq_sum_leaves hcoded, hleaves, List.toFinset_cons, List.toFinset_nil, insert_empty_eq, Finset.sum_singleton]
    exact Nat.pow_le_pow_right two_pos (Nat.sub_le ..)
  case optimal =>
    rw [totalBits, totalBits, hleaves, List.toFinset_cons, List.toFinset_nil, insert_empty_eq, Finset.sum_singleton,
      Finset.sum_singleton, hlent, if_pos rfl]
    exact Nat.mul_le_mul_left _ (hpos _ (Or.inl rfl))

/-! ### Some byte counted -/

/-- The code tree of the bytes counted (R107). -/
noncomputable def codeTree (s : State) : CodeTree := treeAt (bldTree s) (bldTree s).root.toNat

/-- The length that the tree gives a symbol: its depth (R110). -/
def treeLengths (t : CodeTree) : Table 8 := lengthTable (t.depths 0)

theorem treeLengths_of_mem {t : CodeTree} (hnodup : t.leaves.Nodup) (hheight : t.height ≤ Config.lmax) {p : Nat × Nat}
    (hp : p ∈ t.depths 0) : (tableGet (treeLengths t) p.1).toNat = p.2 := by
  have hinj : ∀ q ∈ t.depths 0, q.1 = p.1 → q.2 = p.2 := fun q hq e =>
    congrArg Prod.snd (List.inj_on_of_nodup_map (f := Prod.fst) ((t.depths_map_fst 0).symm ▸ hnodup) hq hp e)
  have hle := CodeTree.depth_le hp
  rw [treeLengths, lengthTable_of_mem (n := p.2) hp hinj, BitVec.toNat_ofNat, Nat.mod_eq_of_lt]
  simp only [Config.lmax] at hheight
  omega

/-- A sum over the leaves of a tree with their lengths is one over its list of depths. -/
theorem sum_treeLengths {t : CodeTree} (hheight : t.height ≤ Config.lmax) {l : List Nat} (hperm : t.leaves.Perm l)
    (hnodup : l.Nodup) (f : Nat → Nat → Nat) :
    ∑ x ∈ l.toFinset, f x (tableGet (treeLengths t) x).toNat = ((t.depths 0).map fun p => f p.1 p.2).sum := by
  rw [List.sum_toFinset _ hnodup, ← (hperm.map _).sum_eq, ← t.depths_map_fst 0, List.map_map]
  refine congrArg List.sum (List.map_congr_left fun p hp => ?_)
  rw [Function.comp_apply, treeLengths_of_mem (hperm.nodup_iff.2 hnodup) hheight hp]

/-- R100: every leaf has been counted. -/
theorem one_le_leafWeight {s : State} {x : Nat} (h : IsLeafSymbol s x) : 1 ≤ (leafWeight s x).toNat := by
  rcases h with rfl | ⟨hx, hcounted⟩
  · rw [leafWeight, if_pos rfl]; decide
  · rw [leafWeight, if_neg hx.ne]
    exact Nat.one_le_iff_ne_zero.2 fun e => hcounted (BitVec.eq_of_toNat_eq e)

section Counted

variable {s : State} (hfits : freqSum s + 1 < 2 ^ Config.cntW) (hne : presentSymbols s.freq ≠ [])
include hfits hne

/-- R107 (c): the leaves of the tree are the leaf symbols, each once. -/
theorem codeTree_leaves_perm : (codeTree s).leaves.Perm (leafSymbols s) :=
  Multiset.coe_eq_coe.1 ((bldTree_mergeRun hfits hne).leaves_root.trans (queueAt_zero_val ..))

/-- R113. -/
theorem codeTree_height_le : (codeTree s).height ≤ 91 := by
  have hrun := bldTree_mergeRun hfits hne
  have hroot := sum_queueAt hfits le_rfl
  rw [hrun.last, Finset.sum_singleton] at hroot
  have hfib := hrun.fib_height_le fun x hx => by
    have hleaf := inQueue_zero_iff.1 (mem_queueAt.1 hx)
    rw [bldTree_nodeWeight_of_leaf hleaf]
    exact one_le_leafWeight hleaf
  by_contra h
  have hmono : Nat.fib 94 ≤ Nat.fib ((codeTree s).height + 2) := Nat.fib_mono (by omega)
  have hbig : 2 ^ 64 < Nat.fib 94 := by norm_num
  rw [hroot] at hfib
  exact absurd (hmono.trans hfib) (by simp only [Config.cntW] at hfits; omega)

/-- R111: the walk of `LEN` lists the leaves of the tree with their depths. -/
theorem codewordLengths_bldTree : codewordLengths (bldTree s) = (codeTree s).depths 0 := by
  have hroot := bldTree_root hne
  have hlen := List.length_pos_iff.2 hne
  have hheight := codeTree_height_le hfits hne
  rw [codewordLengths, if_neg (by omega)]
  refine (leafDepths_eq_depths (fun x => bldTree_smallerChildren s) ?_ ?_ le_rfl).trans (by rw [Nat.sub_self]; rfl)
  · simp only [Config.firstInternal, Config.endSym] at *
    omega
  · exact Nat.lt_of_le_of_lt hheight (by decide)

omit hfits in
/-- R107: with a byte counted the root is internal, so no leaf has depth 0. -/
theorem one_le_depth {p : Nat × Nat} (hp : p ∈ (codeTree s).depths 0) : 1 ≤ p.2 := by
  have hroot := bldTree_root hne
  have hlen := List.length_pos_iff.2 hne
  have hsmall := bldTree_smallerChildren s (x := (bldTree s).root.toNat)
    (by simp only [Config.firstInternal, Config.endSym] at *; omega) (by omega)
  rw [codeTree, treeAt_of_internal hsmall, CodeTree.depths] at hp
  rcases List.mem_append.1 hp with hp | hp <;> exact CodeTree.le_depth hp

theorem huffmanLengths_of_present : HuffmanLengths s (treeLengths (codeTree s)) := by
  have hperm := codeTree_leaves_perm hfits hne
  have hnodup := leafSymbols_nodup s
  have hheight : (codeTree s).height ≤ Config.lmax := (codeTree_height_le hfits hne).trans (by decide)
  have hcoded (x : Nat) : tableGet (treeLengths (codeTree s)) x ≠ 0 ↔ IsLeafSymbol s x := by
    rw [← mem_leafSymbols, ← hperm.mem_iff, ← (codeTree s).depths_map_fst 0, List.mem_map]
    constructor
    · intro h
      by_contra hnot
      exact h (lengthTable_of_not_mem fun p hp e => hnot ⟨p, hp, e⟩)
    · rintro ⟨p, hp, rfl⟩ h
      have := one_le_depth hne hp
      rw [← treeLengths_of_mem (hperm.nodup_iff.2 hnodup) hheight hp, h] at this
      exact absurd this (by decide)
  refine ⟨lengthTable_wf fun p hp => ?symbol, hcoded, ?kraft, fun N len hfit _ => ?optimal⟩
  case symbol =>
    have hmem : p.1 ∈ (codeTree s).leaves := (codeTree s).depths_map_fst 0 ▸ List.mem_map_of_mem hp
    exact isLeafSymbol_le (mem_leafSymbols.1 (hperm.mem_iff.1 hmem))
  case kraft =>
    rw [kraftSum_eq_sum_leaves hcoded, sum_treeLengths hheight hperm hnodup fun _ n => 2 ^ (Config.lmax - n),
      CodeTree.sum_pow_depths _ ((Nat.zero_add _).trans_le hheight)]
    exact le_rfl
  case optimal =>
    have hweight : ∀ len : Nat → Nat, totalBits (fun x => (leafWeight s x).toNat) len (leafSymbols s).toFinset
        = totalBits (nodeWeight (bldTree s)) len (queueAt s (bldTree s) 0) := fun len => by
      rw [totalBits, totalBits, queueAt_zero]
      exact Finset.sum_congr rfl fun x hx => by
        rw [bldTree_nodeWeight_of_leaf (mem_leafSymbols.1 (List.mem_toFinset.1 hx))]
    rw [hweight, hweight, totalBits, queueAt_zero,
      sum_treeLengths hheight hperm hnodup fun x n => nodeWeight (bldTree s) x * n, CodeTree.sum_mul_depths, Nat.mul_zero,
      Nat.add_zero]
    exact (queueAt_zero s (bldTree s)) ▸ (bldTree_mergeRun hfits hne).cost_root_le ((queueAt_zero s (bldTree s)).symm ▸ hfit)

end Counted

/-! ### BLD and LEN -/

/-- R106: with no real symbol present `BLD` builds the END leaf alone. -/
theorem exec_bld_of_empty {s : State} (hp : s.phase = .idle ∨ s.phase = .count) (hempty : presentSymbols s.freq = []) :
    exec .bld s = .next (bldEndOnly s) := by
  rw [exec_of_legal (legal_bld_iff.2 hp), bodyOf, bldBody, if_pos hempty]
  rfl

/-- R106, R112: on the END leaf alone `LEN` gives END the length 1. -/
theorem exec_len_bldEndOnly (s : State) :
    exec .len (bldEndOnly s) = .next (withLengths (lengthTable [(Config.endSym, 1)]) s) := by
  have hlist := codewordLengths_of_end (s := bldEndOnly s) rfl
  rw [exec_len_of_fits rfl fun p hp => by rw [hlist, List.mem_singleton] at hp; rw [hp]; decide, hlist]
  rfl

/-- R110, R113: on the tree of the bytes counted `LEN` completes, with the depths of its leaves. -/
theorem exec_len_bldTree {s : State} (hfits : freqSum s + 1 < 2 ^ Config.cntW) (hne : presentSymbols s.freq ≠ []) :
    exec .len (bldTree s) = .next (withLengths (treeLengths (codeTree s)) s) := by
  have hlist := codewordLengths_bldTree hfits hne
  have hshallow : ∀ p ∈ codewordLengths (bldTree s), p.2 ≤ Config.lmax := fun p hp => by
    have hdepth := CodeTree.depth_le (hlist ▸ hp)
    have hheight := codeTree_height_le hfits hne
    simp only [Config.lmax]
    omega
  rw [exec_len_of_fits rfl hshallow, hlist]
  rfl

/-- R106, R110, R113, R172: `BLD` and `LEN` complete, and leave the lengths of an optimal code. -/
theorem exec_bld_len {s : State} (hp : s.phase = .idle ∨ s.phase = .count) (hfits : freqSum s + 1 < 2 ^ Config.cntW) :
    ∃ t lent, exec .bld s = .next t ∧ exec .len t = .next (withLengths lent s) ∧ HuffmanLengths s lent := by
  by_cases hempty : presentSymbols s.freq = []
  · exact ⟨_, _, exec_bld_of_empty hp hempty, exec_len_bldEndOnly s, huffmanLengths_of_empty hempty⟩
  · exact ⟨_, _, exec_bld_of_present hp hempty, exec_len_bldTree hfits hempty, huffmanLengths_of_present hfits hempty⟩

end Sys2Proof.Machine
end

section
/-! SUPPORT. The codewords of a prefix-free code have lengths of Kraft sum at most 1 (R172), by mathlib's Kraft-McMillan
inequality. -/

namespace Sys2Proof.Machine

open InformationTheory

/-- A prefix-free set of words, none of them empty, is uniquely decodable. -/
theorem uniquelyDecodable_of_prefixFree {S : Set (List Bool)} (hne : [] ∉ S)
    (hfree : ∀ v ∈ S, ∀ w ∈ S, v <+: w → v = w) : UniquelyDecodable S := by
  have hnil : ∀ L : List (List Bool), (∀ w ∈ L, w ∈ S) → L.flatten = [] → L = [] := fun L hL h =>
    List.eq_nil_iff_forall_not_mem.2 fun w hw => hne (List.flatten_eq_nil_iff.1 h w hw ▸ hL w hw)
  intro L₁ L₂ hL₁
  induction L₁ generalizing L₂ with
  | nil => exact fun hL₂ h => (hnil L₂ hL₂ h.symm).symm
  | cons v L₁ ih =>
    intro hL₂ h
    cases L₂ with
    | nil => exact hnil _ hL₁ h
    | cons w L₂ =>
      obtain ⟨hv, hvs⟩ := List.forall_mem_cons.1 hL₁
      obtain ⟨hw, hws⟩ := List.forall_mem_cons.1 hL₂
      rw [List.flatten_cons, List.flatten_cons] at h
      obtain rfl : v = w := by
        rcases List.prefix_or_prefix_of_prefix (h ▸ List.prefix_append v _) (List.prefix_append w _) with hvw | hwv
        · exact hfree v hv w hw hvw
        · exact (hfree w hw v hv hwv).symm
      rw [ih L₂ hvs hws (List.append_cancel_left h)]

theorem kraftFits_of_prefixFree {X : Finset Nat} {cw : Nat → List Bool} (hne : ∀ x ∈ X, cw x ≠ [])
    (hfree : ∀ x ∈ X, ∀ y ∈ X, x ≠ y → ¬ cw x <+: cw y) :
    KraftFits (X.sup fun x => (cw x).length) X fun x => (cw x).length := by
  have hbound : ∀ x ∈ X, (cw x).length ≤ X.sup fun x => (cw x).length := fun x hx => Finset.le_sup (f := fun x => (cw x).length) hx
  refine ⟨hbound, ?_⟩
  generalize (X.sup fun x => (cw x).length) = N at hbound
  have hinj : Set.InjOn cw X := fun x hx y hy h => by
    by_contra hxy
    exact hfree x hx y hy hxy (h ▸ List.prefix_rfl)
  have hdecodable : UniquelyDecodable ((X.image cw : Finset (List Bool)) : Set (List Bool)) := by
    refine uniquelyDecodable_of_prefixFree (fun h => ?_) fun v hv w hw hvw => ?_
    · obtain ⟨x, hx, h⟩ := Finset.mem_image.1 (Finset.mem_coe.1 h)
      exact hne x hx h
    · obtain ⟨x, hx, rfl⟩ := Finset.mem_image.1 (Finset.mem_coe.1 hv)
      obtain ⟨y, hy, rfl⟩ := Finset.mem_image.1 (Finset.mem_coe.1 hw)
      by_contra hxy
      exact hfree x hx y hy (fun e => hxy (e ▸ rfl)) hvw
  have hkraft := kraft_mcmillan_inequality hdecodable
  rw [Finset.sum_image hinj, Fintype.card_bool] at hkraft
  have hscale : ((∑ x ∈ X, 2 ^ (N - (cw x).length) : Nat) : ℝ) = 2 ^ N * ∑ x ∈ X, (1 / (2 : Nat) : ℝ) ^ (cw x).length := by
    rw [Nat.cast_sum, Finset.mul_sum]
    refine Finset.sum_congr rfl fun x hx => ?_
    rw [Nat.cast_pow, Nat.cast_ofNat, pow_sub₀ _ two_ne_zero (hbound x hx), one_div, inv_pow]
  have hle : ((∑ x ∈ X, 2 ^ (N - (cw x).length) : Nat) : ℝ) ≤ (2 ^ N : Nat) := by
    rw [hscale, Nat.cast_pow, Nat.cast_ofNat]
    exact mul_le_of_le_one_right (by positivity) hkraft
  exact_mod_cast hle

end Sys2Proof.Machine
end

section
/-! The statement of 47_composite_and_properties.md on optimality, settled. -/

namespace Sys2Proof.Proofs

open Sys2Proof.Machine Sys2Proof.Safety

/-- Settles O57: the weighted sum of the lengths is the sum of the merged weights, and by induction over the merges no lengths
of Kraft sum at most 1 have a smaller one; a prefix-free code has such lengths. -/
theorem lengthsAreOptimal : Obligations.LengthsAreOptimal := by
  intro s hinv hp
  have hfits : freqSum s + 1 < 2 ^ Config.cntW := by
    have hle := hinv.counts.bounded
    rw [hinv.counts.total] at hle
    exact Nat.lt_of_le_of_lt (Nat.succ_le_succ hle) (by decide)
  obtain ⟨t, lent, hbld, hlen, hlent⟩ := exec_bld_len hp hfits
  refine ⟨t, _, hbld, hlen, rfl, fun cw hne hfree => ?_⟩
  have hleaf : ∀ x ∈ (leafSymbols s).toFinset, IsLeafSymbol s x := fun x hx => mem_leafSymbols.1 (List.mem_toFinset.1 hx)
  have hkraft := kraftFits_of_prefixFree (fun x hx => hne x (hleaf x hx)) fun x hx y hy => hfree x y (hleaf x hx) (hleaf y hy)
  have hopt := hlent.optimal _ _ hkraft fun x hx => List.length_pos_iff.2 (hne x hx)
  rwa [totalBits, totalBits, sum_leafWeight, sum_leafWeight] at hopt

end Sys2Proof.Proofs
end

section
/-! SUPPORT. What `encode` has worked out before it writes a byte (R165, R167): the counts, the lengths and the code. -/

namespace Sys2Proof.Machine

open Sys2Proof.Safety

/-- `encode` after `CNT` of each byte. -/
def counted (S : List Byte) (s : State) : State := issueAll (S.map .cnt) (clear s)

/-- `encode` before `WHD`. -/
def coded (S : List Byte) (s : State) : State := issueAll ([Instr.clr] ++ S.map Instr.cnt ++ [Instr.bld, Instr.len, Instr.asg]) s

theorem coded_eq (S : List Byte) (s : State) : coded S s = issue .asg (issue .len (issue .bld (counted S s))) := by
  simp [coded, counted, issueAll_append, issue_clr]

section

variable {S : List Byte} (hS : S.length ≤ 2 ^ Config.cntW - 2) (s : State)
include hS

theorem counted_eq :
    counted S s = { clear s with
      freq := S.foldl tally [], nbytes := BitVec.ofNat Config.cntW S.length, phase := if S = [] then .idle else .count } := by
  rw [counted, issueAll_cnt S (Or.inl (clear_phase s)) (by simpa using hS)]
  simp

theorem counted_phase : (counted S s).phase = .idle ∨ (counted S s).phase = .count := by
  rw [counted_eq hS]
  exact ite_eq_or_eq ..

theorem counted_out : (counted S s).out = s.out := by rw [counted_eq hS]; rfl

/-- R96: the counts are the numbers of occurrences. -/
theorem counted_freq_toNat (x : Nat) : (tableGet (counted S s).freq x).toNat = (S.map BitVec.toNat).count x := by
  have hle := List.count_le_length (a := x) (l := S.map BitVec.toNat)
  rw [List.length_map] at hle
  rw [counted_eq hS]
  change (tableGet (S.foldl tally []) x).toNat = _
  rw [tableGet_foldl_tally, tableGet_nil]
  refine (congrArg _ (BitVec.zero_add _)).trans ?_
  rw [BitVec.toNat_ofNat, Nat.mod_eq_of_lt]
  exact (hle.trans hS).trans_lt (by decide)

/-- R16: the counts sum to the number of bytes. -/
theorem freqSum_counted : freqSum (counted S s) = S.length := by
  rw [freqSum, ← List.sum_toFinset _ (show byteValues.Nodup from List.nodup_range)]
  simp only [counted_freq_toNat hS s]
  have hmem : ∀ x ∈ ((S.map BitVec.toNat : List Nat) : Multiset Nat), x ∈ byteValues.toFinset := fun x hx => by
    obtain ⟨b, -, rfl⟩ := List.mem_map.1 (Multiset.mem_coe.1 hx)
    exact List.mem_toFinset.2 (mem_byteValues.2 b.isLt)
  simpa using Multiset.sum_count_eq_card hmem

/-- The leaves are the bytes of the sequence, and END. -/
theorem isLeafSymbol_counted {x : Nat} : IsLeafSymbol (counted S s) x ↔ x = Config.endSym ∨ ∃ b ∈ S, b.toNat = x := by
  have hcount : tableGet (counted S s).freq x ≠ 0 ↔ ∃ b ∈ S, b.toNat = x := by
    rw [Ne, ← BitVec.toNat_inj, counted_freq_toNat hS, ← List.mem_map, ← List.count_pos_iff, Nat.pos_iff_ne_zero]
    rfl
  rw [IsLeafSymbol, hcount]
  refine or_congr_right (and_iff_right_of_imp ?_)
  rintro ⟨b, -, rfl⟩
  exact b.isLt

end

/-- What the encoder has before `WHD`: the lengths of the counted bytes, and the code of R115 for them. -/
structure CodeReady (t u : State) : Prop where
  phase : u.phase = .codes
  out : u.out = t.out
  lengths : HuffmanLengths t u.lent
  maxlen : u.maxlen = maxLength u.lent
  codes : CodesAssigned u.lent u.maxlen.toNat u.code

theorem maxLenRight_of_maxLength {s : State} (h : s.maxlen = maxLength s.lent) : MaxLenRight s := by
  rw [MaxLenRight, h]
  exact maxLength_spec s.lent

@[simp] theorem withLengths_maxlen (lent : Table 8) (s : State) : (withLengths lent s).maxlen = maxLength lent := by
  rw [withLengths]

/-- R167: before `WHD` the encoder has the code of its sequence. -/
theorem coded_ready {S : List Byte} (hS : S.length ≤ 2 ^ Config.cntW - 2) (s : State) :
    CodeReady (counted S s) (coded S s) := by
  have hfits : freqSum (counted S s) + 1 < 2 ^ Config.cntW := by
    rw [freqSum_counted hS]
    exact Nat.lt_of_le_of_lt (Nat.succ_le_succ hS) (by decide)
  obtain ⟨t, lent, hbld, hlen, hlent⟩ := exec_bld_len (counted_phase hS s) hfits
  have hphase : (withLengths lent (counted S s)).phase = .lens := rfl
  have hout : (withLengths lent (counted S s)).out = (counted S s).out := rfl
  have hsame : (withLengths lent (counted S s)).lent = lent := rfl
  have hmax := withLengths_maxlen lent (counted S s)
  rw [coded_eq, issue_of_exec hbld, issue_of_exec hlen]
  generalize withLengths lent (counted S s) = u at *
  subst hsame
  obtain ⟨table, hasg, hcodes, -⟩ := exec_asg_of_kraft_le (Or.inl hphase) (maxLenRight_of_maxLength hmax) hlent.kraft
  rw [issue_of_exec hasg]
  exact ⟨if_pos hphase, hout, hlent, hmax, hcodes⟩

/-- The bytes with a codeword are those of the sequence. -/
theorem coded_byte_iff {S : List Byte} (hS : S.length ≤ 2 ^ Config.cntW - 2) (s : State) {b : Byte} :
    tableGet (coded S s).lent b.toNat ≠ 0 ↔ b ∈ S := by
  rw [(coded_ready hS s).lengths.coded, isLeafSymbol_counted hS]
  have hb : b.toNat ≠ Config.endSym := (show b.toNat < Config.endSym from b.isLt).ne
  simp only [hb, false_or, BitVec.toNat_inj, exists_eq_right]

/-- R169: a header pair for each distinct byte. -/
theorem codedBytes_length_coded {S : List Byte} (hS : S.length ≤ 2 ^ Config.cntW - 2) (s : State) :
    (codedBytes (coded S s).lent).length = S.dedup.length := by
  have hperm : (codedBytes (coded S s).lent).Perm (S.dedup.map BitVec.toNat) := by
    refine (List.perm_ext_iff_of_nodup ((codedBytes_ascending _).imp fun h => h.ne)
      ((List.nodup_dedup S).map BitVec.toNat_injective)).2 fun x => ?_
    rw [mem_codedBytes, List.mem_map]
    constructor
    · rintro ⟨hx, hlen⟩
      obtain ⟨b, rfl⟩ : ∃ b : Byte, b.toNat = x := ⟨BitVec.ofNat 8 x, Nat.mod_eq_of_lt hx⟩
      exact ⟨b, List.mem_dedup.2 ((coded_byte_iff hS s).1 hlen), rfl⟩
    · rintro ⟨b, hb, rfl⟩
      exact ⟨b.isLt, (coded_byte_iff hS s).2 (List.mem_dedup.1 hb)⟩
  rw [hperm.length_eq, List.length_map]

/-- R167: `encode` writes the header and then the payload. -/
theorem encodeCall_eq {S : List Byte} (hS : S.length ≤ 2 ^ Config.cntW - 2) (s : State) :
    ∃ payload, encodeCall S s = .bytes (headerBytes (coded S s).lent ++ payload)
      ∧ streamBits payload = padToByte ((S.flatMap fun b => codewordOf (coded S s).lent (coded S s).code b.toNat)
          ++ codewordOf (coded S s).lent (coded S s).code Config.endSym)
      ∧ payload.length = ((S.map fun b => (tableGet (coded S s).lent b.toNat).toNat).sum
          + (tableGet (coded S s).lent Config.endSym).toNat + 7) / 8 := by
  have hready := coded_ready hS s
  obtain ⟨payload, hphase, hout, hbits, hlen⟩ :=
    Proofs.payloadIsTheCodewordsInOrder S (coded S s) hready.phase fun b hb => (coded_byte_iff hS s).2 hb
  refine ⟨payload, ?_, hbits, hlen⟩
  have hsplit : (Pseudo.encode S).expand
      = ([Instr.clr] ++ S.map Instr.cnt ++ [Instr.bld, Instr.len, Instr.asg])
        ++ (Instr.whd :: S.map Instr.pkb ++ [Instr.pke]) := by
    simp [Pseudo.expand]
  rw [issue_of_exec (exec_whd hready.phase), whdBody_out, hready.out, counted_out hS, List.append_assoc] at hout
  rw [encodeCall, hsplit, issueAll_append, ← coded, callResult, if_pos hphase, hout, List.drop_left]

end Sys2Proof.Machine
end

section
/-! The statement of 47_composite_and_properties.md on what `encode` computes, settled. -/

namespace Sys2Proof.Proofs

open Sys2Proof.Machine Sys2Proof.Safety

/-- Settles O53: the counts do not wrap, so the lengths are those of a Huffman tree, whose Kraft sum `ASG` accepts and which
gives each byte counted a codeword for `PKB`. -/
theorem encodeIsHeaderThenPayload : Obligations.EncodeIsHeaderThenPayload := by
  intro S s hS
  obtain ⟨payload, hcall, hbits, hlen⟩ := encodeCall_eq hS s
  exact ⟨coded S s, payload, rfl, (coded_ready hS s).phase, fun b => (coded_byte_iff hS s).symm, hcall,
    by rw [headerBytes_length, codedBytes_length_coded hS], hbits, hlen⟩

end Sys2Proof.Proofs
end

section
/-! SUPPORT. The walk of a sequence of codewords (R155, R156, R168): each is recognised where it ends, whatever follows. -/

namespace Sys2Proof.Machine

open Sys2Proof.Safety

/-- A walk of two bit strings is the walk of the first, and of the second from where that stands. -/
theorem walkPath_append (trie : Assoc Symbol) (maxlen : Nat) (p x y : List Bool) :
    walkPath trie maxlen p (x ++ y)
      = match (walkPath trie maxlen p x).2 with
        | .more q => ((walkPath trie maxlen p x).1 ++ (walkPath trie maxlen q y).1, (walkPath trie maxlen q y).2)
        | .ended => walkPath trie maxlen p x
        | .stuck _ => walkPath trie maxlen p x := by
  induction x generalizing p with
  | nil => rfl
  | cons b x ih =>
    rw [List.cons_append]
    by_cases hdeep : p.length = maxlen
    · rw [walkPath_of_deepest hdeep, walkPath_of_deepest hdeep]
    · cases hf : assocFind trie (pathSlot (p ++ [b])) with
      | none => rw [walkPath_of_empty hdeep hf, walkPath_of_empty hdeep hf, ih]
      | some sym =>
        by_cases hend : sym.toNat = Config.endSym
        · rw [walkPath_of_end hdeep hf hend, walkPath_of_end hdeep hf hend]
        · rw [walkPath_of_byte hdeep hf hend, walkPath_of_byte hdeep hf hend, ih]
          generalize walkPath trie maxlen [] x = r
          obtain ⟨out, _ | _ | _⟩ := r <;> rfl

theorem symbolByte_ofNat (a : Nat) : symbolByte (BitVec.ofNat 9 a) = BitVec.ofNat 8 a := by
  refine BitVec.eq_of_toNat_eq ?_
  simp only [symbolByte, BitVec.toNat_setWidth, BitVec.toNat_ofNat]
  omega

/-- A code that fits its trie: what `TRI` and `DCB` are given after `ASG` (R117, R153). -/
structure TrieCode (lent : Table 8) (code : Table Config.codeW) (trie : Assoc Symbol) (maxlen : Nat) : Prop where
  range : CodesInRange lent code
  free : PrefixFree lent code
  holds : TrieHolds lent code trie
  short : ∀ a, Coded lent a → (tableGet lent a).toNat ≤ maxlen

section

variable {lent : Table 8} {code : Table Config.codeW} {trie : Assoc Symbol} {maxlen : Nat}
  (h : TrieCode lent code trie maxlen)
include h

/-- R153: at the end of a codeword the trie holds its symbol. -/
theorem TrieCode.find_codeword {a : Nat} (ha : Coded lent a) :
    assocFind trie (pathSlot (codewordOf lent code a)) = some (BitVec.ofNat 9 a) := by
  have hnat : (BitVec.ofNat 9 a).toNat = a := Nat.mod_eq_of_lt (lt_of_le_of_lt ha.1 (by decide))
  rw [h.holds, hnat, pathSlot_codewordOf h.range ha]
  exact ⟨ha, rfl⟩

/-- R152: inside a codeword the trie holds nothing. -/
theorem TrieCode.find_inside {a : Nat} (ha : Coded lent a) {p q : List Bool} (hq : q ≠ [])
    (hpq : p ++ q = codewordOf lent code a) : assocFind trie (pathSlot p) = none := by
  refine Option.eq_none_iff_forall_ne_some.2 fun sym hsym => ?_
  obtain ⟨hcoded, hslot⟩ := (h.holds _ _).1 hsym
  rw [← pathSlot_codewordOf h.range hcoded] at hslot
  rw [pathSlot_inj hslot] at hpq
  by_cases hsame : sym.toNat = a
  · exact hq (List.append_right_eq_self.1 (hsame ▸ hpq))
  · exact h.free _ _ hcoded ha hsame ⟨q, hpq⟩

/-- The walk from inside a codeword goes to its end and takes its symbol (R155, R156). -/
theorem TrieCode.walk_codeword {a : Nat} (ha : Coded lent a) {p q : List Bool} (hq : q ≠ [])
    (hpq : p ++ q = codewordOf lent code a) (rest : List Bool) :
    walkPath trie maxlen p (q ++ rest)
      = if a = Config.endSym then ([], .ended)
        else (BitVec.ofNat 8 a :: (walkPath trie maxlen [] rest).1, (walkPath trie maxlen [] rest).2) := by
  induction q generalizing p with
  | nil => exact absurd rfl hq
  | cons b q ih =>
    have hpq' : (p ++ [b]) ++ q = codewordOf lent code a := by rw [List.append_assoc]; exact hpq
    have hshort : p.length ≠ maxlen := by
      have hlen := congrArg List.length hpq
      rw [List.length_append, List.length_cons, codewordOf_length] at hlen
      have := h.short a ha
      omega
    rw [List.cons_append]
    cases q with
    | nil =>
      rw [List.append_nil] at hpq'
      have hfind := h.find_codeword ha
      rw [← hpq'] at hfind
      have hnat : (BitVec.ofNat 9 a).toNat = a := Nat.mod_eq_of_lt (lt_of_le_of_lt ha.1 (by decide))
      split
      next hend => exact walkPath_of_end hshort hfind (hnat.trans hend) _
      next hbyte =>
        rw [walkPath_of_byte hshort hfind (hnat.trans_ne hbyte), symbolByte_ofNat, List.nil_append]
    | cons c q =>
      rw [walkPath_of_empty hshort (h.find_inside ha (List.cons_ne_nil c q) hpq')]
      exact ih (List.cons_ne_nil c q) hpq'

/-- R168: the codewords of bytes and then END's are walked to those bytes, and nothing after END is. -/
theorem TrieCode.walk_codewords (T : List Byte) (hT : ∀ b ∈ T, tableGet lent b.toNat ≠ 0)
    (hend : tableGet lent Config.endSym ≠ 0) (rest : List Bool) :
    walkPath trie maxlen [] ((T.flatMap fun b => codewordOf lent code b.toNat) ++ codewordOf lent code Config.endSym ++ rest)
      = (T, .ended) := by
  have hne : ∀ {a}, Coded lent a → codewordOf lent code a ≠ [] := fun ha e => by
    have hlen := congrArg List.length e
    rw [codewordOf_length] at hlen
    exact ha.2 (BitVec.eq_of_toNat_eq hlen)
  induction T with
  | nil =>
    have hcoded : Coded lent Config.endSym := ⟨le_rfl, hend⟩
    rw [List.flatMap_nil, List.nil_append, h.walk_codeword hcoded (hne hcoded) (List.nil_append _), if_pos rfl]
  | cons b T ih =>
    obtain ⟨hb, hT⟩ := List.forall_mem_cons.1 hT
    have hlt : b.toNat < Config.endSym := b.isLt
    have hcoded : Coded lent b.toNat := ⟨hlt.le, hb⟩
    rw [List.flatMap_cons, List.append_assoc, List.append_assoc, h.walk_codeword hcoded (hne hcoded) (List.nil_append _),
      if_neg hlt.ne, ← List.append_assoc, ih hT, BitVec.ofNat_toNat, BitVec.setWidth_eq]

end

/-- "while PHASE = DEC: DCB" (R166) over bytes whose walk meets END: the bytes decoded leave, the walk stands at the start
slot, and the call is done. -/
theorem feedPayload_of_ended (bs : List Byte) {s : State} {p : List Bool} {T : List Byte} (hp : s.phase = .dec)
    (hslot : s.slot.toNat = pathSlot p) (hdepth : s.depth.toNat = p.length) (hle : p.length ≤ s.maxlen.toNat)
    (hwalk : walkPath s.trie s.maxlen.toNat p (streamBits bs) = (T, .ended)) :
    feedPayload bs s = { s with slot := 0, depth := 0, phase := .decDone, out := s.out ++ T } := by
  induction bs generalizing s p T with
  | nil =>
    rw [streamBits_nil, walkPath_nil] at hwalk
    cases hwalk
  | cons b bs ih =>
    rw [feedPayload, if_pos hp, issue_of_exec (exec_dcb_of_dec b hp hslot hdepth hle)]
    rw [streamBits_cons, walkPath_append] at hwalk
    have hwithin := walkPath_endWithin s.trie (byteBits b) hle
    generalize walkPath s.trie s.maxlen.toNat p (byteBits b) = r at hwalk hwithin ⊢
    obtain ⟨out, q | _ | q⟩ := r
    case more =>
      have hq : q.length ≤ s.maxlen.toNat := hwithin
      have hmax := hq.trans (maxlen_le_lmax s)
      obtain ⟨hout, hended⟩ := Prod.mk.inj hwalk
      refine (ih (s := { atPath q s with phase := .dec, out := s.out ++ out }) (p := q) rfl (atPath_slot_toNat hmax s)
        (atPath_depth_toNat hmax s) hq (Prod.ext rfl hended)).trans ?_
      rw [← hout, ← List.append_assoc]
      rfl
    case ended =>
      obtain ⟨rfl, -⟩ := Prod.mk.inj hwalk
      cases bs <;> rfl
    case stuck => cases (Prod.mk.inj hwalk).2

end Sys2Proof.Machine
end

section
/-! SUPPORT. What the decoder makes of a header (R127, R130): the bytes that `WHD` wrote from a length table give that table back,
with its maximum. -/

namespace Sys2Proof.Machine

open Sys2Proof.Safety

/-! ### Copying a table, and its maximum -/

theorem tableGet_foldl_copy {w : Nat} (src : Table w) (l : List Nat) (t : Table w) (x : Nat) :
    tableGet (l.foldl (fun t y => tableSet t y (tableGet src y)) t) x = if x ∈ l then tableGet src x else tableGet t x := by
  induction l generalizing t with
  | nil => simp
  | cons y l ih =>
    rw [List.foldl_cons, ih, tableGet_tableSet]
    by_cases hx : x = y <;> simp [hx]

theorem foldl_copy_wf {w lo hi : Nat} (src : Table w) {l : List Nat} (hl : ∀ x ∈ l, lo ≤ x ∧ x < hi) {t : Table w}
    (ht : tableWf lo hi t = true) : tableWf lo hi (l.foldl (fun t y => tableSet t y (tableGet src y)) t) = true := by
  induction l generalizing t with
  | nil => exact ht
  | cons y l ih =>
    obtain ⟨⟨hlo, hhi⟩, hl⟩ := List.forall_mem_cons.1 hl
    exact ih hl (tableSet_wf ht hlo hhi _)

theorem foldl_umax_le_iff {w : Nat} (src : Table w) (l : List Nat) (m : BitVec w) (n : Nat) :
    (l.foldl (fun m x => umax m (tableGet src x)) m).toNat ≤ n ↔ m.toNat ≤ n ∧ ∀ x ∈ l, (tableGet src x).toNat ≤ n := by
  induction l generalizing m with
  | nil => simp
  | cons y l ih => rw [List.foldl_cons, ih, umax_toNat, Nat.max_le, List.forall_mem_cons, and_assoc]

/-- R130: END's length and those of the coded bytes are the whole table. -/
theorem copy_eq_of_wf {lent : Table 8} (h : tableWf 0 Config.nsym lent = true) :
    (codedBytes lent).foldl (fun t y => tableSet t y (tableGet lent y))
        (tableSet [] Config.endSym (tableGet lent Config.endSym)) = lent := by
  have hl : ∀ x ∈ codedBytes lent, 0 ≤ x ∧ x < Config.nsym := fun x hx =>
    ⟨Nat.zero_le x, (mem_codedBytes.1 hx).1.trans (Nat.lt_succ_self _)⟩
  refine table_ext (foldl_copy_wf lent hl (tableSet_wf (tableWf_nil ..) (Nat.zero_le _) (Nat.lt_succ_self _) _)) h fun x => ?_
  simp only [tableGet_foldl_copy, mem_codedBytes, tableGet_tableSet, tableGet_nil]
  rcases lt_trichotomy x Config.endSym with hlt | rfl | hgt
  · by_cases hzero : tableGet lent x = 0
    · rw [if_neg fun hx => hx.2 hzero, if_neg hlt.ne, hzero]
    · rw [if_pos ⟨hlt, hzero⟩]
  · simp
  · rw [if_neg fun hx => hx.1.not_gt hgt, if_neg hgt.ne', tableGet_eq_zero_of_outside h (Or.inr hgt)]

/-- R22, R130: their maximum is the table's. -/
theorem foldl_umax_eq_maxLength (lent : Table 8) :
    (codedBytes lent).foldl (fun m x => umax m (tableGet lent x)) (tableGet lent Config.endSym) = maxLength lent := by
  refine BitVec.eq_of_toNat_eq (eq_of_forall_ge_iff fun n => ?_)
  rw [maxLength, foldl_umax_le_iff, foldl_umax_le_iff]
  constructor
  · rintro ⟨hend, hcoded⟩
    refine ⟨Nat.zero_le n, fun x hx => ?_⟩
    rcases Nat.lt_or_eq_of_le (mem_symbols.1 hx) with hlt | rfl
    · by_cases hzero : tableGet lent x = 0
      · rw [hzero]
        exact Nat.zero_le n
      · exact hcoded x (mem_codedBytes.2 ⟨hlt, hzero⟩)
    · exact hend
  · exact fun ⟨_, hall⟩ => ⟨hall _ (mem_symbols.2 le_rfl), fun x hx => hall x (mem_symbols.2 (mem_codedBytes.1 hx).1.le)⟩

/-! ### The pairs -/

/-- The decoder's registers after the pairs of the symbols `xs`, with the lengths of `src`, up to the header cursor (R127). -/
structure PairsRead (src : Table 8) (xs : List Nat) (d t : State) : Prop where
  frame : t = { d with
    lent := t.lent, maxlen := t.maxlen, hpos := t.hpos, hsym := t.hsym, hprev := t.hprev, phase := .hdrDone }
  lent : t.lent = xs.foldl (fun t y => tableSet t y (tableGet src y)) d.lent
  maxlen : t.maxlen = xs.foldl (fun m y => umax m (tableGet src y)) d.maxlen

/-- The header pair of each symbol (R125). -/
def headerPairs (lent : Table 8) (xs : List Nat) : List Byte := xs.flatMap fun x => [BitVec.ofNat 8 x, tableGet lent x]

theorem feedHeader_cons {b : Byte} {d t : State} (hp : d.phase = .idle ∨ d.phase = .hdr) (h : rhbBody b d = t)
    (Z : List Byte) : feedHeader (b :: Z) d = feedHeader Z t := by
  rw [feedHeader, if_pos hp, issue_of_exec (exec_rhb b hp), h]

/-- R127: a symbol byte above the one before, and its length byte. -/
theorem feedHeader_pair {x l : Byte} {d : State} (hp : d.phase = .hdr) (hpos : 3 ≤ d.hpos.toNat) (hodd : d.hpos.toNat % 2 = 1)
    (hsmall : d.hpos.toNat ≤ 513) (habove : 3 < d.hpos.toNat → d.hprev.toNat < x.toNat) (hl : l ≠ 0) (Z : List Byte) :
    feedHeader (x :: l :: Z) d = feedHeader Z { d with
      lent := tableSet d.lent x.toNat l, maxlen := umax d.maxlen l, hsym := x, hprev := x, hpos := d.hpos + 1 + 1
      phase := if d.hpos.toNat + 2 = 3 + 2 * (d.hsize.toNat - 1) then .hdrDone else .hdr } := by
  have hnext : (d.hpos + 1).toNat = d.hpos.toNat + 1 :=
    BitVec.toNat_add_of_lt (show d.hpos.toNat + 1 < 2 ^ 10 by omega)
  have hsymbol : rhbBody x d = { d with hsym := x, hpos := d.hpos + 1 } := by
    rw [rhbBody_of_hpos_odd x hpos hodd, rhbSymbol_of_above fun h => (habove h.1).not_ge h.2]
  have hlength : rhbBody l { d with hsym := x, hpos := d.hpos + 1 } = { d with
      lent := tableSet d.lent x.toNat l, maxlen := umax d.maxlen l, hsym := x, hprev := x, hpos := d.hpos + 1 + 1
      phase := if d.hpos.toNat + 2 = 3 + 2 * (d.hsize.toNat - 1) then .hdrDone else .hdr } := by
    rw [rhbBody_of_hpos_even l (s := { d with hsym := x, hpos := d.hpos + 1 }) (by simp only [hnext]; omega)
      (by simp only [hnext]; omega), rhbLength_of_ne_zero hl (by simp only [hnext]; omega)]
    simp only [hnext, hp]
  refine (feedHeader_cons (Or.inr hp) hsymbol _).trans (feedHeader_cons ?_ hlength Z)
  exact Or.inr hp

/-- R127, R130: the pairs of rising symbols are read one after the other, and the last completes the header. -/
theorem feedHeader_pairs {lent : Table 8} (xs : List Nat) {d : State}
    (hp : d.phase = if xs = [] then .hdrDone else .hdr) (hpos : 3 ≤ d.hpos.toNat)
    (hsize : d.hpos.toNat + 2 * xs.length = 3 + 2 * (d.hsize.toNat - 1)) (hfits : d.hpos.toNat + 2 * xs.length ≤ 515)
    (habove : ∀ x ∈ xs, 3 < d.hpos.toNat → d.hprev.toNat < x) (hrising : xs.Pairwise (· < ·))
    (hxs : ∀ x ∈ xs, x < Config.endSym ∧ tableGet lent x ≠ 0) (rest : List Byte) :
    ∃ t, feedHeader (headerPairs lent xs ++ rest) d = (t, rest) ∧ PairsRead lent xs d t := by
  induction xs generalizing d with
  | nil =>
    refine ⟨d, ?_, ?_, rfl, rfl⟩
    · rw [headerPairs, List.flatMap_nil, List.nil_append]
      cases rest with
      | nil => rfl
      | cons b rest => rw [feedHeader, if_neg (by rw [hp]; simp)]
    · rw [if_pos rfl] at hp
      rw [← hp]
  | cons x xs ih =>
    obtain ⟨⟨hx, hlen⟩, hxs⟩ := List.forall_mem_cons.1 hxs
    obtain ⟨hfirst, hrising⟩ := List.pairwise_cons.1 hrising
    rw [if_neg (List.cons_ne_nil x xs)] at hp
    rw [List.length_cons] at hsize hfits
    have hxnat : (BitVec.ofNat 8 x).toNat = x := Nat.mod_eq_of_lt hx
    have hnext : (d.hpos + 1 + 1).toNat = d.hpos.toNat + 2 := by
      rw [BitVec.add_assoc]
      exact BitVec.toNat_add_of_lt (show d.hpos.toNat + 2 < 2 ^ 10 by omega)
    have hpair := feedHeader_pair (x := BitVec.ofNat 8 x) hp hpos (by omega) (by omega)
      (fun h => hxnat.symm ▸ habove x List.mem_cons_self h) hlen (headerPairs lent xs ++ rest)
    have hdone : (d.hpos.toNat + 2 = 3 + 2 * (d.hsize.toNat - 1)) ↔ xs = [] := by
      rw [← hsize, ← List.length_eq_zero_iff]
      omega
    rw [hxnat] at hpair
    obtain ⟨t, hfeed, hread⟩ := ih (d := { d with
      lent := tableSet d.lent x (tableGet lent x), maxlen := umax d.maxlen (tableGet lent x), hsym := BitVec.ofNat 8 x
      hprev := BitVec.ofNat 8 x, hpos := d.hpos + 1 + 1
      phase := if d.hpos.toNat + 2 = 3 + 2 * (d.hsize.toNat - 1) then .hdrDone else .hdr })
      (by simp only [hdone]) (by simp only [hnext]; omega) (by simp only [hnext]; omega) (by simp only [hnext]; omega)
      (fun y hy _ => by simp only [hxnat]; exact hfirst y hy) hrising hxs
    exact ⟨t, hpair.trans hfeed, hread.frame, hread.lent, hread.maxlen⟩

end Sys2Proof.Machine
end

section
/-! SUPPORT. `decode` of what `encode` wrote (R166, R168): the header gives the decoder the encoder's code, and its walk of the
payload meets the codewords in order. -/

namespace Sys2Proof.Machine

open Sys2Proof.Safety

/-! ### The whole header -/

/-- The decoder after the size and END's length (R127). -/
def afterEndLength (lent : Table 8) : State :=
  { State.reset with
    hsize := alphabetSize lent, lent := tableSet [] Config.endSym (tableGet lent Config.endSym)
    maxlen := tableGet lent Config.endSym, hpos := 3
    phase := if (alphabetSize lent).toNat = 1 then .hdrDone else .hdr }

/-- R127: the first three bytes of the header. -/
theorem feedHeader_size_and_end {lent : Table 8} (hend : tableGet lent Config.endSym ≠ 0) (Z : List Byte) :
    feedHeader (opField (alphabetSize lent) :: argField (alphabetSize lent) :: tableGet lent Config.endSym :: Z) State.reset
      = feedHeader Z (afterEndLength lent) := by
  have hhigh := rhbBody_of_hpos_zero (opField (alphabetSize lent)) (s := State.reset) rfl
  have hsize : sizeWithLow (argField (alphabetSize lent)) (rhbSizeHigh (opField (alphabetSize lent)) State.reset)
      = alphabetSize lent := by
    refine BitVec.eq_of_toNat_eq ?_
    rw [sizeWithLow_toNat, rhbSizeHigh_hsize_div, opField_toNat, argField_toNat]
    omega
  have hrange := alphabetSize_toNat lent
  have hle := codedBytes_length_le lent
  simp only [Config.endSym] at hle
  have hlow : rhbBody (argField (alphabetSize lent)) (rhbSizeHigh (opField (alphabetSize lent)) State.reset)
      = { State.reset with hsize := alphabetSize lent, hpos := 2, phase := .hdr } := by
    rw [rhbBody_of_hpos_one _ rfl, rhbSizeLow_of_accepted, hsize]
    · rfl
    · rw [← sizeWithLow_toNat, hsize]; omega
    · rw [← sizeWithLow_toNat, hsize]; omega
  have hlast : rhbBody (tableGet lent Config.endSym)
      { State.reset with hsize := alphabetSize lent, hpos := 2, phase := .hdr } = afterEndLength lent := by
    rw [rhbBody_of_hpos_two _ rfl, rhbEndLength_of_ne_zero hend]
    rfl
  refine (feedHeader_cons (Or.inl rfl) hhigh _).trans ((feedHeader_cons ?_ hlow _).trans (feedHeader_cons ?_ hlast Z)) <;>
    exact Or.inr rfl

/-- R130: the decoder fed the header of a length table holds that table and its maximum. -/
theorem feedHeader_headerBytes {lent : Table 8} (hwf : tableWf 0 Config.nsym lent = true)
    (hend : tableGet lent Config.endSym ≠ 0) (Z : List Byte) :
    ∃ t, feedHeader (headerBytes lent ++ Z) State.reset = (t, Z)
      ∧ t.phase = .hdrDone ∧ t.out = [] ∧ t.lent = lent ∧ t.maxlen = maxLength lent := by
  have hle := codedBytes_length_le lent
  have hsize : (afterEndLength lent).hsize.toNat = (codedBytes lent).length + 1 := alphabetSize_toNat lent
  have hphase : (afterEndLength lent).phase = if codedBytes lent = [] then .hdrDone else .hdr := by
    simp only [afterEndLength, alphabetSize_toNat, Nat.add_eq_right, List.length_eq_zero_iff]
  obtain ⟨t, hfeed, hread⟩ := feedHeader_pairs (lent := lent) (codedBytes lent) hphase le_rfl
    (by rw [hsize]; rfl) (Nat.add_le_add_left (Nat.mul_le_mul_left 2 hle) 3) (fun _ _ h => absurd h (lt_irrefl _))
    (codedBytes_ascending lent) (fun x => mem_codedBytes.1) Z
  refine ⟨t, (feedHeader_size_and_end hend _).trans hfeed, ?phase, ?out, hread.lent.trans (copy_eq_of_wf hwf),
    hread.maxlen.trans (foldl_umax_eq_maxLength lent)⟩
  case phase => rw [hread.frame]
  case out => rw [hread.frame]; rfl

/-! ### The code -/

theorem issueIn_of_eq {p : Phase} {i : Instr} {s : State} (h : s.phase = p) : issueIn p i s = issue i s := if_pos h

theorem issueIn_of_ne {p : Phase} {i : Instr} {s : State} (h : s.phase ≠ p) : issueIn p i s = s := if_neg h

/-- R115, R166: with the header complete, `ASG` and `TRI` give the decoder the code of its lengths, ready to be walked. -/
theorem afterHeader_ready {t : State} (hp : t.phase = .hdrDone) (hmax : t.maxlen = maxLength t.lent)
    (hkraft : kraftSum t.lent ≤ kraftOne) :
    (afterHeader t).phase = .dec ∧ (afterHeader t).slot = 0 ∧ (afterHeader t).depth = 0 ∧ (afterHeader t).out = t.out
      ∧ ∃ table, CodesAssigned t.lent t.maxlen.toNat table
        ∧ TrieCode t.lent table (afterHeader t).trie (afterHeader t).maxlen.toNat := by
  have hright := maxLenRight_of_maxLength hmax
  obtain ⟨table, hasg, hcodes, -⟩ := exec_asg_of_kraft_le (Or.inr hp) hright hkraft
  have hrange := codesInRange_of_assigned hcodes (maxlen_le_lmax t) hright.1 hkraft
  have hfree := prefixFree_of_assigned hcodes (maxlen_le_lmax t) hright.1 hkraft
  have heoi : issueIn .hdr .eoi t = t := issueIn_of_ne (by rw [hp]; decide)
  have hdcodes : (if t.phase = .lens then Phase.codes else .dcodes) = .dcodes := if_neg (by rw [hp]; decide)
  have hafter : afterHeader t = triBody { t with code := table, phase := .dcodes } := by
    rw [afterHeader, heoi, issueIn_of_eq hp, issue_of_exec hasg, hdcodes]
    exact (issueIn_of_eq rfl).trans (issue_of_exec (exec_tri rfl))
  rw [hafter]
  refine ⟨rfl, rfl, rfl, rfl, table, hcodes, hrange, hfree, ?_, fun a => length_le_maxlen_of_coded hright⟩
  rw [triBody_trie]
  exact buildTrie_holds hrange hfree

/-- R115: the values that R115 gives are the code. -/
theorem codewordOf_congr {lent : Table 8} {M : Nat} {code code' : Table Config.codeW} (h : CodesAssigned lent M code)
    (h' : CodesAssigned lent M code') {a : Nat} (ha : Coded lent a) : codewordOf lent code a = codewordOf lent code' a := by
  rw [codewordOf, codewordOf, BitVec.eq_of_toNat_eq ((h a ha).trans (h' a ha).symm)]

/-! ### The whole call -/

/-- R168: a header and a payload in the code of R115 for the header's lengths decode to the bytes packed. -/
theorem decodeFrom_header_payload {lent : Table 8} {code : Table Config.codeW} (hwf : tableWf 0 Config.nsym lent = true)
    (hend : tableGet lent Config.endSym ≠ 0) (hkraft : kraftSum lent ≤ kraftOne)
    (hcodes : CodesAssigned lent (maxLength lent).toNat code) {T payload : List Byte}
    (hT : ∀ b ∈ T, tableGet lent b.toNat ≠ 0)
    (hbits : streamBits payload
      = padToByte ((T.flatMap fun b => codewordOf lent code b.toNat) ++ codewordOf lent code Config.endSym)) :
    callResult .decDone 0 (decodeFrom (headerBytes lent ++ payload) State.reset) = .bytes T := by
  obtain ⟨t, hfeed, hphase, hout, rfl, hmax⟩ := feedHeader_headerBytes hwf hend payload
  obtain ⟨hdec, hslot, hdepth, hout', table, hcodes', htrie⟩ := afterHeader_ready hphase hmax hkraft
  rw [← hmax] at hcodes
  have hsame : (T.flatMap fun b => codewordOf t.lent code b.toNat) = T.flatMap fun b => codewordOf t.lent table b.toNat :=
    List.flatMap_congr fun b hb => codewordOf_congr hcodes hcodes' ⟨(show b.toNat < Config.endSym from b.isLt).le, hT b hb⟩
  rw [padToByte, hsame, codewordOf_congr hcodes hcodes' ⟨le_rfl, hend⟩] at hbits
  have hpayload := feedPayload_of_ended payload (p := []) (T := T) hdec (by rw [hslot]; rfl) (by rw [hdepth]; rfl)
    (Nat.zero_le _) (by rw [hbits]; exact htrie.walk_codewords T hT hend _)
  rw [decodeFrom, hfeed, hpayload, hout', hout, List.nil_append, issueIn, if_neg (show ¬ Phase.decDone = .dec by decide),
    callResult, if_pos rfl, List.drop_zero]

end Sys2Proof.Machine
end

section
/-! SUPPORT. The code of one repeated byte (R173): one bit for the byte and one for END. -/

namespace Sys2Proof.Machine

open Sys2Proof.Safety

section

variable {b : Byte} {n : Nat} (hn : 1 ≤ n) (hS : (List.replicate n b).length ≤ 2 ^ Config.cntW - 2) (s : State)
include hn hS

theorem leafSymbols_repeated : (leafSymbols (counted (List.replicate n b) s)).toFinset = {b.toNat, Config.endSym} := by
  ext x
  have hne : n ≠ 0 := Nat.one_le_iff_ne_zero.1 hn
  rw [List.mem_toFinset, mem_leafSymbols, isLeafSymbol_counted hS]
  simp [hne, or_comm, eq_comm]

/-- R105, R173: both lengths are 1, for no lengths are better and one bit each will do. -/
theorem lengths_repeated :
    tableGet (coded (List.replicate n b) s).lent b.toNat = 1
      ∧ tableGet (coded (List.replicate n b) s).lent Config.endSym = 1 := by
  have hlengths := (coded_ready hS s).lengths
  have hleaves := leafSymbols_repeated hn hS s
  have hbend : b.toNat ≠ Config.endSym := (show b.toNat < Config.endSym from b.isLt).ne
  have hopt := hlengths.optimal 1 (fun _ => 1) ⟨fun _ _ => le_rfl, by rw [hleaves, Finset.sum_pair hbend]; exact le_rfl⟩
    fun _ _ => le_rfl
  have hweight : (leafWeight (counted (List.replicate n b) s) b.toNat).toNat = n := by
    rw [leafWeight, if_neg hbend, counted_freq_toNat hS, List.map_replicate, List.count_replicate_self]
  have hend : (leafWeight (counted (List.replicate n b) s) Config.endSym).toNat = 1 := by
    rw [leafWeight, if_pos rfl]; rfl
  rw [totalBits, totalBits, hleaves, Finset.sum_pair hbend, Finset.sum_pair hbend, hweight, hend] at hopt
  have hcoded : ∀ x ∈ ({b.toNat, Config.endSym} : Finset Nat),
      1 ≤ (tableGet (coded (List.replicate n b) s).lent x).toNat := fun x hx => by
    rw [← hleaves, List.mem_toFinset, mem_leafSymbols] at hx
    exact one_le_length_of_coded ⟨isLeafSymbol_le hx, (hlengths.coded x).2 hx⟩
  have hb := hcoded b.toNat (by simp)
  have he := hcoded Config.endSym (by simp)
  generalize tableGet (coded (List.replicate n b) s).lent b.toNat = lb at *
  generalize tableGet (coded (List.replicate n b) s).lent Config.endSym = le at *
  have hmul : n * 1 ≤ n * lb.toNat := Nat.mul_le_mul_left n hb
  have hlb : lb.toNat = 1 := Nat.eq_of_mul_eq_mul_left hn (by omega)
  exact ⟨BitVec.eq_of_toNat_eq hlb, BitVec.eq_of_toNat_eq (show le.toNat = 1 by omega)⟩

/-- R173: the byte's codeword is `0` and END's is `1`, in the order of the symbols. -/
theorem codewords_repeated :
    codewordOf (coded (List.replicate n b) s).lent (coded (List.replicate n b) s).code b.toNat = [false]
      ∧ codewordOf (coded (List.replicate n b) s).lent (coded (List.replicate n b) s).code Config.endSym = [true] := by
  have hready := coded_ready hS s
  have hbend : b.toNat < Config.endSym := b.isLt
  obtain ⟨hlb, hle⟩ := lengths_repeated hn hS s
  have hcb : Coded (coded (List.replicate n b) s).lent b.toNat := ⟨hbend.le, by rw [hlb]; decide⟩
  have hce : Coded (coded (List.replicate n b) s).lent Config.endSym := ⟨le_rfl, by rw [hle]; decide⟩
  have hlt := code_lt_of_lt hready.codes hcb hce hbend (hlb.trans hle.symm)
  have hrange := codesInRange_of_assigned hready.codes (maxlen_le_lmax _) (maxLenRight_of_maxLength hready.maxlen).1
    hready.lengths.kraft _ hce
  rw [codewordOf, codewordOf]
  rw [hle] at hrange ⊢
  rw [hlb]
  generalize tableGet (coded (List.replicate n b) s).code b.toNat = cb at *
  generalize tableGet (coded (List.replicate n b) s).code Config.endSym = ce at *
  have hrange' : ce.toNat < 2 := hrange
  obtain rfl : cb = 0 := BitVec.eq_of_toNat_eq (show cb.toNat = 0 by omega)
  obtain rfl : ce = 1 := BitVec.eq_of_toNat_eq (show ce.toNat = 1 by omega)
  exact ⟨rfl, rfl⟩

/-- R173: the header. -/
theorem headerBytes_repeated : headerBytes (coded (List.replicate n b) s).lent = [0x00, 0x02, 0x01, b, 0x01] := by
  obtain ⟨hlb, hle⟩ := lengths_repeated hn hS s
  have hbytes : codedBytes (coded (List.replicate n b) s).lent = [b.toNat] := by
    refine List.perm_singleton.1 ((List.perm_ext_iff_of_nodup ((codedBytes_ascending _).imp fun h => h.ne)
      (List.nodup_singleton _)).2 fun x => ?_)
    rw [mem_codedBytes, (coded_ready hS s).lengths.coded, isLeafSymbol_counted hS, List.mem_singleton]
    constructor
    · rintro ⟨hlt, hx | ⟨c, hc, rfl⟩⟩
      · omega
      · rw [List.eq_of_mem_replicate hc]
    · rintro rfl
      exact ⟨b.isLt, Or.inr ⟨b, List.mem_replicate.2 ⟨Nat.one_le_iff_ne_zero.1 hn, rfl⟩, rfl⟩⟩
  rw [headerBytes_eq, hbytes, hle, List.flatMap_singleton, hlb, BitVec.ofNat_toNat, BitVec.setWidth_eq]
  simp

end

end Sys2Proof.Machine
end

section
/-! The statements of 47_composite_and_properties.md on the round trip and on one repeated byte, settled. -/

namespace Sys2Proof.Proofs

open Sys2Proof.Machine Sys2Proof.Safety

/-- Settles O56: the decoder recovers the encoder's lengths and so its code, and END's codeword stops the walk before the
padding. -/
theorem decodeOfEncodeIsIdentity : Obligations.DecodeOfEncodeIsIdentity := by
  intro S s s' hS
  have hready := coded_ready hS s
  obtain ⟨payload, hcall, hbits, -⟩ := encodeCall_eq hS s
  refine ⟨_, hcall, ?_⟩
  have hcodes := hready.codes
  rw [hready.maxlen] at hcodes
  rw [decodeCall_eq_reset (by simp [headerBytes])]
  exact decodeFrom_header_payload hready.lengths.wf ((hready.lengths.coded _).2 (Or.inl rfl)) hready.lengths.kraft hcodes
    (fun b hb => (coded_byte_iff hS s).2 hb) hbits

/-- Settles O54: the byte and END have one bit each, and O56 decodes the stream. -/
theorem encodeOfOneRepeatedByte : Obligations.EncodeOfOneRepeatedByte := by
  intro b n s s' hn hlimit
  have hS : (List.replicate n b).length ≤ 2 ^ Config.cntW - 2 := by rwa [List.length_replicate]
  obtain ⟨payload, hcall, hbits, -⟩ := encodeCall_eq hS s
  obtain ⟨hbyte, hend⟩ := codewords_repeated hn hS s
  obtain ⟨Z, hcall', hdecode⟩ := decodeOfEncodeIsIdentity (List.replicate n b) s s' hS
  rw [headerBytes_repeated hn hS] at hcall
  obtain rfl := CallResult.bytes.inj (hcall.symm.trans hcall')
  have hzeros : ((List.replicate n b).flatMap fun c => codewordOf (coded (List.replicate n b) s).lent
      (coded (List.replicate n b) s).code c.toNat) = List.replicate n false := by
    rw [List.flatMap_congr fun c hc => by rw [List.eq_of_mem_replicate hc, hbyte]]
    simp [List.flatMap]
  exact ⟨payload, hcall, by rw [hbits, hzeros, hend], hdecode⟩

end Sys2Proof.Proofs
end

section
/-! SUPPORT. When the rule of each command faults (R186), and with what: the fault is the one its row of R81 allows. -/

namespace Sys2Proof.Machine

open Sys2Proof.Safety

/-! ### Which fault -/

/-- No cell of R81 leads to FAULT but by a fault of the command's own. -/
theorem fault_not_mem_nextPhases (i : Instr) (p : Phase) : Phase.fault ∉ nextPhases i p := by
  have cell : decide (Phase.fault ∈ nextPhases i p) = false := by
    cases i <;> cases p <;> rfl
  exact of_decide_eq_false cell

namespace FollowsTable

variable {i : Instr} {s t : State} (h : FollowsTable i s t)
include h

theorem own_fault (ht : t.phase = .fault) : t.err ∈ ownFaults i s.phase ∧ t.errcmd = encodeWord i := by
  rcases h with h | ⟨-, herr, hcmd⟩
  · exact absurd (ht ▸ h) (fault_not_mem_nextPhases i s.phase)
  · exact ⟨herr, hcmd⟩

theorem phase_ne_fault (hown : ownFaults i s.phase = []) : t.phase ≠ .fault := fun ht => by
  have hmem := (h.own_fault ht).1
  rw [hown] at hmem
  exact List.not_mem_nil hmem

theorem err_eq {f : Err} (hown : ownFaults i s.phase ⊆ [f]) (ht : t.phase = .fault) : t.err = f :=
  List.mem_singleton.1 (hown (h.own_fault ht).1)

end FollowsTable

/-! ### When: a rule that checks once -/

/-- A rule that raises a fault under one condition, and else goes to another phase, faults under that condition. -/
theorem ite_raise_fault_iff {c : Prop} [Decidable c] {f : Err} {w : Word} {s t : State} (ht : t.phase ≠ .fault) :
    (if c then raise f w s else t).phase = .fault ↔ c := by
  split
  next h => exact iff_of_true rfl h
  next h => exact iff_of_false ht h

/-- R95: the count is at its limit. -/
theorem cntBody_fault_iff (b : Byte) (s : State) :
    (cntBody b s).phase = .fault ↔ s.nbytes.toNat = 2 ^ Config.cntW - 2 := by
  rw [← eq_countLimit_iff]
  exact ite_raise_fault_iff nofun

/-- R142: the byte has no codeword. -/
theorem pkbBody_fault_iff (b : Byte) (s : State) : (pkbBody b s).phase = .fault ↔ tableGet s.lent b.toNat = 0 := by
  rw [← operandIndex_eq]
  exact ite_raise_fault_iff nofun

/-- R118: the lengths over-subscribe the code space. -/
theorem asgBody_fault_iff {s : State} (hp : s.phase = .lens ∨ s.phase = .hdrDone) (hmax : MaxLenRight s) :
    (asgBody s).phase = .fault ↔ kraftOne < kraftSum s.lent := by
  rw [asgBody]
  rcases canonicalCodes_cases hmax with ⟨h, hgt⟩ | ⟨table, h, hle, -⟩ <;> rw [h]
  · exact iff_of_true rfl hgt
  · exact iff_of_false (by rcases hp with hp | hp <;> simp [hp]) hle.not_gt

/-- R106: `BLD` configured to reject zero-byte input. -/
theorem bldBody_reject (s : State) :
    ((∀ x, x < Config.endSym → tableGet s.freq x = 0) ∧ bldBody true s = raise .emptyAlphabet (encodeWord .bld) s)
      ∨ (¬ (∀ x, x < Config.endSym → tableGet s.freq x = 0) ∧ bldBody true s = bldTree s) := by
  have hempty : presentSymbols s.freq = [] ↔ ∀ x, x < Config.endSym → tableGet s.freq x = 0 := by
    simp [List.eq_nil_iff_forall_not_mem]
  rw [← hempty, bldBody]
  split
  next h => exact Or.inl ⟨h, rfl⟩
  next h => exact Or.inr ⟨h, rfl⟩

/-! ### When: `LEN` -/

/-- R101: the identifiers fall on the way down, so a path of internal nodes is not longer than they allow. -/
theorem atDepth_bounds {s : State} (ht : TreeShaped s) {x d : Nat} (h : AtDepth s x d) :
    x + d ≤ s.root.toNat ∧ d ≤ s.root.toNat - Config.endSym := by
  induction h with
  | root => exact ⟨le_rfl, Nat.zero_le _⟩
  | left hn hint ih =>
    have hsmaller := (ht.childrenSmaller _ _ hn hint).1
    omega
  | right hn hint ih =>
    have hsmaller := (ht.childrenSmaller _ _ hn hint).2
    omega

/-- R111: the walk lists nodes of the tree with their depths. -/
theorem atDepth_of_mem_leafDepths {s : State} {fuel n d : Nat} (hd : d + fuel = walkLimit) (hn : AtDepth s n d)
    {p : Nat × Nat} (hp : p ∈ leafDepths s.nodeL s.nodeR fuel n) : AtDepth s p.1 p.2 := by
  induction fuel generalizing n d with
  | zero =>
    obtain rfl : p = (n, walkLimit) := List.mem_singleton.1 hp
    exact hd ▸ hn
  | succ fuel ih =>
    rcases Nat.lt_or_ge Config.endSym n with hint | hleaf
    · rw [leafDepths_of_internal hint] at hp
      rcases List.mem_append.1 hp with hp | hp
      · exact ih (by omega) (.left hn hint) hp
      · exact ih (by omega) (.right hn hint) hp
    · rw [leafDepths_of_leaf hleaf, List.mem_singleton, ← hd, Nat.add_sub_cancel] at hp
      exact hp ▸ hn

/-- R111: the walk from the root goes through every node down to the depth at which it stops. -/
theorem leafDepths_subset_of_atDepth {s : State} {n d fuel : Nat} (h : AtDepth s n d) (hd : d + fuel = walkLimit) :
    leafDepths s.nodeL s.nodeR fuel n ⊆ leafDepths s.nodeL s.nodeR walkLimit s.root.toNat := by
  induction h generalizing fuel with
  | root =>
    obtain rfl : fuel = walkLimit := by omega
    exact List.Subset.refl _
  | left hn hint ih =>
    refine List.Subset.trans ?_ (ih (fuel := fuel + 1) (by omega))
    rw [leafDepths_of_internal hint]
    exact List.subset_append_left ..
  | right hn hint ih =>
    refine List.Subset.trans ?_ (ih (fuel := fuel + 1) (by omega))
    rw [leafDepths_of_internal hint]
    exact List.subset_append_right ..

/-- R110, R111: a length listed is above 255 exactly when a leaf is that deep, which then stands where the walk stops. -/
theorem exists_overlong_iff {s : State} (ht : TreeShaped s) (hroot : s.root.toNat ≤ Config.endSym + walkLimit) :
    (∃ p ∈ codewordLengths s, Config.lmax < p.2) ↔ ∃ x d, x ≤ Config.endSym ∧ AtDepth s x d ∧ Config.lmax < d := by
  have hlimit : walkLimit = Config.lmax + 1 := rfl
  by_cases hend : s.root.toNat = Config.endSym
  · refine iff_of_false (by simp [codewordLengths_of_end hend]) fun ⟨x, d, _, h, hdeep⟩ => ?_
    have hbound := (atDepth_bounds ht h).2
    omega
  rw [codewordLengths, if_neg hend]
  constructor
  · rintro ⟨p, hp, hdeep⟩
    have h := atDepth_of_mem_leafDepths (Nat.zero_add _) .root hp
    have hbound := (atDepth_bounds ht h).1
    exact ⟨p.1, p.2, by omega, h, hdeep⟩
  · rintro ⟨x, d, -, h, hdeep⟩
    have hbound := (atDepth_bounds ht h).2
    obtain rfl : d = walkLimit := by omega
    exact ⟨(x, walkLimit), leafDepths_subset_of_atDepth h (Nat.add_zero _) (List.mem_singleton.2 rfl), hdeep⟩

/-- R19: `ROOT` is a node identifier. -/
theorem root_le_of_treeOk {s : State} (h : TreeOk s) : s.root.toNat ≤ Config.endSym + walkLimit := by
  rw [h.rootIs]
  exact Nat.add_le_add_left (presentSymbols_length_le s.freq) _

theorem lenBody_fault_iff {s : State} (h : TreeOk s) :
    (lenBody s).phase = .fault ↔ ∃ x d, x ≤ Config.endSym ∧ AtDepth s x d ∧ Config.lmax < d := by
  have hany : ((codewordLengths s).any fun p => decide (Config.lmax < p.2)) = true
      ↔ ∃ p ∈ codewordLengths s, Config.lmax < p.2 := by simp
  rw [← exists_overlong_iff h.shaped (root_le_of_treeOk h), ← hany]
  exact ite_raise_fault_iff nofun

/-! ### When: `RHB`, by the position of the byte -/

section Header

variable (b : Byte) {s : State} (hs : s.phase ≠ .fault)
include hs

/-- R128: the size is 0 or above 257. -/
theorem rhbSizeLow_fault_iff :
    (rhbSizeLow b s).phase = .fault
      ↔ s.hsize.toNat / 256 * 256 + b.toNat = 0 ∨ 257 < s.hsize.toNat / 256 * 256 + b.toNat := by
  rw [← sizeWithLow_refused_iff]
  exact ite_raise_fault_iff hs

theorem phase_or_hdrDone_ne_fault (c : Prop) [Decidable c] : (if c then Phase.hdrDone else s.phase) ≠ .fault := by
  split
  · nofun
  · exact hs

theorem rhbEndLength_fault_iff : (rhbEndLength b s).phase = .fault ↔ b = 0 :=
  ite_raise_fault_iff (phase_or_hdrDone_ne_fault hs _)

theorem rhbSymbol_fault_iff :
    (rhbSymbol b s).phase = .fault ↔ 3 < s.hpos.toNat ∧ b.toNat ≤ s.hprev.toNat :=
  ite_raise_fault_iff hs

theorem rhbLength_fault_iff : (rhbLength b s).phase = .fault ↔ b = 0 :=
  ite_raise_fault_iff (phase_or_hdrDone_ne_fault hs _)

/-- R127, R128: one cause for each kind of header byte; the high byte of the size has none. -/
theorem rhbBody_fault_iff :
    (rhbBody b s).phase = .fault ↔
      (s.hpos.toNat = 1 ∧ (s.hsize.toNat / 256 * 256 + b.toNat = 0 ∨ 257 < s.hsize.toNat / 256 * 256 + b.toNat))
        ∨ (s.hpos.toNat = 2 ∧ b = 0)
        ∨ (3 < s.hpos.toNat ∧ s.hpos.toNat % 2 = 1 ∧ b.toNat ≤ s.hprev.toNat)
        ∨ (4 ≤ s.hpos.toNat ∧ s.hpos.toNat % 2 = 0 ∧ b = 0) := by
  rcases rhbBody_cases b s with ⟨h, e⟩ | ⟨h, e⟩ | ⟨h, e⟩ | ⟨h, hodd, e⟩ | ⟨h, heven, e⟩ <;> rw [e]
  · simp [rhbSizeHigh, h]
  · rw [rhbSizeLow_fault_iff b hs]
    simp [h]
  · rw [rhbEndLength_fault_iff b hs]
    simp [h]
  · rw [rhbSymbol_fault_iff b hs]
    simp [hodd, show s.hpos.toNat ≠ 1 by omega, show s.hpos.toNat ≠ 2 by omega]
  · rw [rhbLength_fault_iff b hs]
    simp [h, heven, show s.hpos.toNat ≠ 1 by omega, show s.hpos.toNat ≠ 2 by omega]

end Header

/-! ### When: `DCB` and `EOI` -/

theorem afterWalk_fault_iff (w : Word) (s : State) (r : List Byte × WalkEnd) :
    (afterWalk w s r).phase = .fault ↔ ∃ q, r.2 = .stuck q := by
  obtain ⟨bs, q | _ | q⟩ := r <;> simp [afterWalk]

/-- R157: the walk leaves the trie. -/
theorem dcbBody_fault_iff (b : Byte) {s : State} (hwalk : WalkHeld s) (hp : s.phase = .dec ∨ s.phase = .decDone)
    {path : List Bool} (hslot : s.slot.toNat = pathSlot path) (hdepth : s.depth.toNat = path.length) :
    (dcbBody b s).phase = .fault
      ↔ s.phase = .dec ∧ ∃ q, (walkPath s.trie s.maxlen.toNat path (byteBits b)).2 = .stuck q := by
  rcases hp with hp | hp
  · have hle : path.length ≤ s.maxlen.toNat := hdepth ▸ hwalk.within hp
    rw [dcbBody_of_dec b hp, eq_atPath hslot hdepth, walkBits_atPath _ b 8 hle, afterWalk_fault_iff]
    exact (and_iff_right hp).symm
  · rw [dcbBody_of_decDone b hp, hp]
    exact iff_of_false nofun fun h => nomatch h.1

theorem ownFaults_dcb_subset (b : Byte) (p : Phase) : ownFaults (.dcb b) p ⊆ [.corruptStream] := by
  cases p <;> simp [ownFaults]

end Sys2Proof.Machine
end

section
/-! The statements of 60_exceptions.md on the causes of the faults and on FAULT, settled. -/

namespace Sys2Proof.Proofs

open Sys2Proof.Machine Sys2Proof.Safety

/-- Settles O16: where a command is legal the table of R81 says which fault it may record, and its rule says when; a blank
cell raises `BadSequence` and a reserved word `BadOpcode`. -/
theorem everyFaultHasItsCause : Obligations.EveryFaultHasItsCause := by
  refine ⟨fun i s hinv hflow hl => ?legal, fun i s hf hl => ⟨_, exec_of_illegal hl hf, rfl⟩,
    fun w s hf hres => ⟨_, executeWord_of_reserved hres s, reservedWord_of_not_fault hf⟩, fun s hf => ?emptyAlphabet⟩
  case legal =>
    have htable := bodyOf_followsTable hinv hl
    refine ⟨bodyOf i s, exec_of_legal hl, fun ht => (htable.own_fault ht).2, ?_⟩
    cases i with
    | clr | bld | whd | pke | tri => exact htable.phase_ne_fault rfl
    | cnt b => exact ⟨cntBody_fault_iff b s, htable.err_eq (List.Subset.refl _)⟩
    | len =>
      have hp : s.phase = .tree := by simpa [legal, legalPhases] using hl
      exact ⟨lenBody_fault_iff (hflow.tree hp), htable.err_eq (List.Subset.refl _)⟩
    | asg => exact ⟨asgBody_fault_iff (legal_asg_iff.1 hl) hinv.maxlen, htable.err_eq (List.Subset.refl _)⟩
    | pkb b => exact ⟨pkbBody_fault_iff b s, htable.err_eq (List.Subset.refl _)⟩
    | rhb b =>
      have hs : s.phase ≠ .fault := by rcases legal_rhb_iff.1 hl with hp | hp <;> simp [hp]
      exact ⟨rhbBody_fault_iff b hs, htable.err_eq (List.Subset.refl _)⟩
    | dcb b =>
      exact ⟨fun path => dcbBody_fault_iff b hinv.walk (legal_dcb_iff.1 hl), htable.err_eq (ownFaults_dcb_subset b _)⟩
    | eoi =>
      refine ⟨fun hp => ?_, fun hp => ?_, fun hp => ?_⟩
      · rw [bodyOf, eoiBody_of_hdr hp]
        exact ⟨rfl, rfl⟩
      · rw [bodyOf, eoiBody_of_truncated hp]
        exact ⟨rfl, rfl⟩
      · exact htable.phase_ne_fault (by rw [hp]; rfl)
  case emptyAlphabet =>
    rcases bldBody_reject s with ⟨hzero, e⟩ | ⟨hsome, e⟩ <;> rw [e]
    · exact ⟨iff_of_true rfl hzero, fun _ => rfl⟩
    · exact ⟨iff_of_false nofun hsome, nofun⟩

/-- Settles O11: a word is a command's or reserved, and FAULT discards both but for `CLR`, whose word is 0x0000. -/
theorem faultDiscardsAllButClear : Obligations.FaultDiscardsAllButClear := by
  intro s w rest hf hin
  refine ⟨fun hw => ?discarded, fun hw => ?clears⟩
  case discarded =>
    rw [step_of_word hin]
    by_cases hcmd : ∃ i, decodeWord w = .ok i
    · obtain ⟨i, hi⟩ := hcmd
      have hclr : i ≠ .clr := fun e => hw (by rw [← decodeWord_eq_ok_iff.1 hi, e]; rfl)
      rw [executeWord_of_ok hi]
      exact exec_of_fault hclr hf
    · rw [executeWord_of_reserved (not_exists.1 hcmd)]
      exact congrArg Host.Outcome.next (reservedWord_of_fault hf)
  case clears =>
    subst hw
    exact ⟨_, step_of_clr_word hin, clear_phase _, clear_err _, clear_errcmd _, clear_out _⟩

end Sys2Proof.Proofs
end

section
/-! SUPPORT. What presenting a word and taking it leave of the words that wait (R41). -/

namespace Sys2Proof.Machine

/-- The table's numbering of a 16-bit word is the word. -/
theorem tableWord_toNat (w : Word) : tableWord 16 w.toNat = w := by
  rw [tableWord, Nat.mod_eq_of_lt w.isLt, BitVec.ofNat_toNat, BitVec.setWidth_eq]

/-- The word presented in front is the one the next step executes, on the state as it was (log 10). -/
theorem step_withFetchWord (s : State) (w : Word) : step (s.withFetchWord 16 w.toNat) = executeWord w s := by
  rw [State.withFetchWord, tableWord_toNat]
  exact step_of_word (s := presentNext w s) rfl

/-- R106: the weights of the END leaf alone. -/
theorem bldEndOnly_nodeWt (s : State) : (bldEndOnly s).nodeWt = tableSet s.nodeWt Config.endSym 1 := rfl

/-- R86: no command presents or takes a word. -/
theorem sequenced_input (i : Instr) (s : State) : (sequenced i (bodyOf i) s).input = s.input := by
  have h : issue i s = behind s.input [] (issue i s) := issue_blind i s.input [] s
  rw [← issue_eq, h, behind]

theorem reservedWord_input (w : Word) (s : State) : (reservedWord w s).input = s.input := by
  unfold reservedWord
  split <;> rfl

end Sys2Proof.Machine
end

section
/-! The statements of 30_encoding.md on the decoder, of 20_memory.md on the step, and of 70_reset_and_hazards.md on reset,
settled. -/

namespace Sys2Proof.Proofs

open Sys2Proof.Machine

/-- Settles O1: a word decodes to a command exactly when it is the command's word. -/
theorem decodeInvertsEncode : Obligations.DecodeInvertsEncode :=
  ⟨fun i _ => decodeWord_encodeWord i, fun _ _ => decodeWord_eq_ok_iff.1⟩

/-- Settles O3: each is the word of its command. -/
theorem sampleWordsDecode : Obligations.SampleWordsDecode :=
  ⟨decodeWord_encodeWord .clr, decodeWord_encodeWord (.cnt 0x41), decodeWord_encodeWord .bld, decodeWord_encodeWord .len,
    decodeWord_encodeWord .asg, decodeWord_encodeWord .whd, decodeWord_encodeWord (.pkb 0x42),
    decodeWord_encodeWord (.rhb 0xFF), decodeWord_encodeWord (.dcb 0x55)⟩

/-- Settles O5: the oldest word is taken and executed; a word presented in front is the oldest. -/
theorem stepRunsTheDecodedCommand : Obligations.StepRunsTheDecodedCommand := by
  refine ⟨fun s w i rest hin hw => ?_, fun s i => ?_⟩
  · rw [step_of_word hin, executeWord_of_ok hw]
  · rw [step_withFetchWord, executeWord_of_ok (decodeWord_encodeWord i)]

/-- Settles O6: whichever input a step takes, what waits after it is what waited behind that input. -/
theorem everyStepTakesOneInput : Obligations.EveryStepTakesOneInput := by
  intro s
  rcases step_cases s with ⟨hin, e⟩ | ⟨rest, hin, e⟩ | ⟨w, rest, i, hin, -, e⟩ | ⟨w, rest, _, hin, -, e⟩
  · exact ⟨s, e, by rw [hin]; rfl, fun _ => rfl⟩
  · exact ⟨_, e, by rw [hin]; rfl, fun h => by rw [hin] at h; cases h⟩
  · exact ⟨_, e, by rw [hin, sequenced_input]; rfl, fun h => by rw [hin] at h; cases h⟩
  · exact ⟨_, e, by rw [hin, reservedWord_input]; rfl, fun h => by rw [hin] at h; cases h⟩

/-- Settles O8: a reset is `CLR` on an empty `OUT`, and `CLR` reads nothing of `OUT`. -/
theorem resetAndClearDifferInOutOnly : Obligations.ResetAndClearDifferInOutOnly :=
  fun _ _ => ⟨_, _, step_of_rst rfl, step_of_clr_word rfl, rfl, rfl⟩

/-- Settles O22: no real symbol is present, so `BLD` takes the branch of R106. -/
theorem bldOnEmptyInput : Obligations.BldOnEmptyInput := by
  refine ⟨rfl, fun s hp hzero => ?_⟩
  have hempty : presentSymbols s.freq = [] :=
    List.eq_nil_iff_forall_not_mem.2 fun x hx => (mem_presentSymbols.1 hx).2 (hzero x (mem_presentSymbols.1 hx).1)
  have hexec := exec_bld_of_empty hp hempty
  refine ⟨⟨bldEndOnly s, hexec, rfl, rfl, ?endWeight, fun x hx => ?weights, rfl, rfl, rfl,
    ⟨rfl, rfl⟩, ⟨rfl, rfl⟩, ⟨rfl, rfl⟩, rfl, ⟨rfl, rfl, rfl, rfl⟩, ⟨rfl, rfl⟩, rfl, ⟨rfl, rfl⟩, rfl, rfl⟩, ?accepted, ?rejected⟩
  case endWeight => rw [bldEndOnly_nodeWt, tableGet_tableSet_self]
  case weights => rw [bldEndOnly_nodeWt, tableGet_tableSet_ne _ _ hx]
  case accepted => rw [hexec, bldBody, if_pos hempty, if_neg Bool.false_ne_true]
  case rejected => exact ((bldBody_reject s).resolve_right fun h => h.1 hzero).2

end Sys2Proof.Proofs
end

section
/-! SUPPORT. The places of a code tree as the nodes of the node memory (R107, R111): what is reached from the root at a depth is
a subtree that begins at that depth. -/

namespace Sys2Proof.Machine

open Sys2Proof.Safety

theorem CodeTree.leaves_ne_nil (t : CodeTree) : t.leaves ≠ [] := by
  induction t with
  | leaf x => exact List.cons_ne_nil _ _
  | node l r ihl _ => exact fun h => ihl (List.append_eq_nil_iff.1 h).1

/-- A subtree that begins lower has every leaf lower by as much. -/
theorem CodeTree.mem_depths_add {t : CodeTree} {d k : Nat} {p : Nat × Nat} (h : p ∈ t.depths d) :
    (p.1, p.2 + k) ∈ t.depths (d + k) := by
  induction t generalizing d with
  | leaf x =>
    rw [List.mem_singleton.1 h]
    exact List.mem_singleton_self _
  | node l r ihl ihr =>
    rw [depths, Nat.add_right_comm]
    rcases List.mem_append.1 h with h | h
    · exact List.mem_append_left _ (ihl h)
    · exact List.mem_append_right _ (ihr h)

section Reached

variable {t : State} {bound : Nat} (ht : ∀ x < bound, Config.endSym < x → SmallerChildren t x)
include ht

/-- What lies below a node is a subtree of its tree. -/
theorem leaves_subset_of_below {n x : Nat} (h : Below t n x) (hn : n < bound) :
    (treeAt t x).leaves ⊆ (treeAt t n).leaves := by
  induction h with
  | here => exact List.Subset.refl _
  | left hint _ ih =>
    have hsmall := ht _ hn hint
    rw [treeAt_of_internal hsmall, CodeTree.leaves]
    exact List.Subset.trans (ih (hsmall.2.1.trans hn)) (List.subset_append_left ..)
  | right hint _ ih =>
    have hsmall := ht _ hn hint
    rw [treeAt_of_internal hsmall, CodeTree.leaves]
    exact List.Subset.trans (ih (hsmall.2.2.trans hn)) (List.subset_append_right ..)

variable (hroot : t.root.toNat < bound)
include hroot

/-- The leaves below a node reached are, with their depths, leaves of the whole tree in their order. -/
theorem depths_sublist_of_atDepth {n d : Nat} (h : AtDepth t n d) :
    n < bound ∧ ((treeAt t n).depths d).Sublist ((treeAt t t.root.toNat).depths 0) := by
  induction h with
  | root => exact ⟨hroot, List.Sublist.refl _⟩
  | left _ hint ih =>
    obtain ⟨hn, hsub⟩ := ih
    have hsmall := ht _ hn hint
    rw [treeAt_of_internal hsmall, CodeTree.depths] at hsub
    exact ⟨hsmall.2.1.trans hn, (List.sublist_append_left ..).trans hsub⟩
  | right _ hint ih =>
    obtain ⟨hn, hsub⟩ := ih
    have hsmall := ht _ hn hint
    rw [treeAt_of_internal hsmall, CodeTree.depths] at hsub
    exact ⟨hsmall.2.2.trans hn, (List.sublist_append_right ..).trans hsub⟩

theorem lt_bound_of_atDepth {n d : Nat} (h : AtDepth t n d) : n < bound := (depths_sublist_of_atDepth ht hroot h).1

theorem leaves_sublist_of_atDepth {n d : Nat} (h : AtDepth t n d) :
    (treeAt t n).leaves.Sublist (treeAt t t.root.toNat).leaves := by
  rw [← (treeAt t n).depths_map_fst d, ← (treeAt t t.root.toNat).depths_map_fst 0]
  exact (depths_sublist_of_atDepth ht hroot h).2.map Prod.fst

variable (hnodup : (treeAt t t.root.toNat).leaves.Nodup)
include hnodup

/-- R107 (c): a leaf below the node would otherwise stand at two depths. -/
theorem atDepth_unique {n d e : Nat} (hd : AtDepth t n d) (he : AtDepth t n e) : d = e := by
  obtain ⟨x, hx⟩ := List.exists_mem_of_ne_nil _ (treeAt t n).leaves_ne_nil
  obtain ⟨p, hp, -⟩ := List.mem_map.1 ((treeAt t n).depths_map_fst 0 ▸ hx)
  have hpd := (depths_sublist_of_atDepth ht hroot hd).2.mem (Nat.zero_add d ▸ CodeTree.mem_depths_add hp (k := d))
  have hpe := (depths_sublist_of_atDepth ht hroot he).2.mem (Nat.zero_add e ▸ CodeTree.mem_depths_add hp (k := e))
  have hnodup' := ((treeAt t t.root.toNat).depths_map_fst 0).symm ▸ hnodup
  exact Nat.add_left_cancel (congrArg Prod.snd (List.inj_on_of_nodup_map hnodup' hpd hpe rfl))

/-- R107 (c): the two subtrees of an internal node have no node in common. -/
theorem children_disjoint {n d x : Nat} (hn : AtDepth t n d) (hint : Config.endSym < n) :
    ¬ (Below t (tableGet t.nodeL n).toNat x ∧ Below t (tableGet t.nodeR n).toNat x) := by
  rintro ⟨hl, hr⟩
  have hlt := lt_bound_of_atDepth ht hroot hn
  have hsmall := ht n hlt hint
  have hsub := leaves_sublist_of_atDepth ht hroot hn
  rw [treeAt_of_internal hsmall, CodeTree.leaves] at hsub
  obtain ⟨y, hy⟩ := List.exists_mem_of_ne_nil _ (treeAt t x).leaves_ne_nil
  exact (List.nodup_append.1 (hsub.nodup hnodup)).2.2 y (leaves_subset_of_below ht hl (hsmall.2.1.trans hlt) hy) y
    (leaves_subset_of_below ht hr (hsmall.2.2.trans hlt) hy) rfl

end Reached

end Sys2Proof.Machine
end

section
/-! SUPPORT. The node memory after `BLD` is the full tree of the symbols counted (R18, R19, R107), and the lengths that `LEN`
takes from it are its depths, at most 91 (R113). -/

namespace Sys2Proof.Machine

open Sys2Proof.Safety

/-- R16: with the bytes counted within their limit, the weights of the tree do not wrap. -/
theorem freqSum_fits {s : State} (h : CountsAgree s) : freqSum s + 1 < 2 ^ Config.cntW := by
  have hle := h.bounded
  rw [h.total] at hle
  exact Nat.lt_of_le_of_lt (Nat.succ_le_succ hle) (by decide)

section Counted

variable {s : State} (hfits : freqSum s + 1 < 2 ^ Config.cntW) (hne : presentSymbols s.freq ≠ [])

/-- R19: the identifiers that `BLD` gave reach up to the root's. -/
theorem bldTree_root_lt (hne : presentSymbols s.freq ≠ []) :
    (bldTree s).root.toNat < Config.firstInternal + (presentSymbols s.freq).length := by
  rw [bldTree_root hne]
  exact Nat.add_lt_add_right (Nat.lt_succ_self _) _

include hfits

/-- R107 (a): the sum of R103 does not wrap. -/
theorem bldTree_sum {n : Nat} (hn : n < Config.firstInternal + (presentSymbols s.freq).length) (hint : Config.endSym < n) :
    nodeWeight (bldTree s) n = nodeWeight (bldTree s) (tableGet (bldTree s).nodeL n).toNat
      + nodeWeight (bldTree s) (tableGet (bldTree s).nodeR n).toNat := by
  obtain ⟨k, rfl⟩ := Nat.exists_eq_add_of_le (Nat.succ_le_of_lt hint)
  have hk : k < (presentSymbols s.freq).length := Nat.lt_of_add_lt_add_left hn
  exact (MergedAt.mergeStep (fun j hj => bldTree_mergedAt s (Nat.lt_of_lt_of_le hj hk))
    ((sum_queueAt hfits hk.le).trans_lt hfits)).sum

include hne

theorem bldTree_root_weight : nodeWeight (bldTree s) (bldTree s).root.toNat = freqSum s + 1 := by
  have hsum := sum_queueAt hfits (le_refl (presentSymbols s.freq).length)
  rwa [queueAt_last hne, Finset.sum_singleton] at hsum

/-- The leaves of the code tree are reached from the root, at their depths. -/
theorem atDepth_of_mem_codeTree {p : Nat × Nat} (hp : p ∈ (codeTree s).depths 0) : AtDepth (bldTree s) p.1 p.2 := by
  have hroot := bldTree_root hne
  have hpos := List.length_pos_iff.2 hne
  rw [← codewordLengths_bldTree hfits hne, codewordLengths, if_neg (by omega)] at hp
  exact atDepth_of_mem_leafDepths (Nat.zero_add _) .root hp

/-- R107 (c): the leaves reached are the leaf symbols. -/
theorem atDepth_bldTree_leaf_iff {x : Nat} (hx : x ≤ Config.endSym) :
    (∃ d, AtDepth (bldTree s) x d) ↔ IsLeafSymbol s x := by
  rw [← mem_leafSymbols, ← (codeTree_leaves_perm hfits hne).mem_iff, ← (codeTree s).depths_map_fst 0, List.mem_map]
  constructor
  · rintro ⟨d, h⟩
    have hsub := (depths_sublist_of_atDepth (fun _ => bldTree_smallerChildren s) (bldTree_root_lt hne) h).2
    rw [treeAt_of_leaf hx] at hsub
    exact ⟨(x, d), hsub.mem (List.mem_singleton_self _), rfl⟩
  · rintro ⟨p, hp, rfl⟩
    exact ⟨p.2, atDepth_of_mem_codeTree hfits hne hp⟩

theorem bldTree_treeOk : TreeOk (bldTree s) := by
  have hsmall : ∀ x < _, Config.endSym < x → SmallerChildren (bldTree s) x := fun _ => bldTree_smallerChildren s
  have hroot := bldTree_root_lt hne
  have hnodup : (treeAt (bldTree s) (bldTree s).root.toNat).leaves.Nodup :=
    (codeTree_leaves_perm hfits hne).nodup_iff.2 (leafSymbols_nodup s)
  exact {
    shaped := {
      childrenSmaller := fun n d hn hint => (hsmall n (lt_bound_of_atDepth hsmall hroot hn) hint).2
      oneDepth := fun x d e => atDepth_unique hsmall hroot hnodup }
    count := bldTree_nint s
    rootIs := bldTree_root hne
    leaves := fun x => atDepth_bldTree_leaf_iff hfits hne
    weights := (mergeAll_inv s).leaves
    sums := fun n d hn => bldTree_sum hfits (lt_bound_of_atDepth hsmall hroot hn)
    disjoint := fun n d x => children_disjoint hsmall hroot hnodup }

end Counted

/-! ### No byte counted -/

/-- R106: nothing but END is reached. -/
theorem atDepth_bldEndOnly {s : State} {n d : Nat} (h : AtDepth (bldEndOnly s) n d) : n = Config.endSym ∧ d = 0 := by
  induction h with
  | root => exact ⟨rfl, rfl⟩
  | left _ hint ih => exact absurd ih.1 hint.ne'
  | right _ hint ih => exact absurd ih.1 hint.ne'

theorem bldEndOnly_root_weight (s : State) : tableGet (bldEndOnly s).nodeWt Config.endSym = 1 := by
  rw [bldEndOnly_nodeWt, tableGet_tableSet_self]

theorem isLeafSymbol_iff_of_empty {s : State} (hempty : presentSymbols s.freq = []) {x : Nat} :
    IsLeafSymbol s x ↔ x = Config.endSym := by
  rw [isLeafSymbol_iff_mem, hempty, List.nil_append, List.mem_singleton]

theorem bldEndOnly_treeOk {s : State} (hempty : presentSymbols s.freq = []) : TreeOk (bldEndOnly s) := by
  have hcount : (presentSymbols (bldEndOnly s).freq).length = 0 := congrArg List.length hempty
  have hleaf : ∀ {x}, IsLeafSymbol (bldEndOnly s) x ↔ x = Config.endSym := isLeafSymbol_iff_of_empty (s := bldEndOnly s) hempty
  have hnone : ∀ {n d}, AtDepth (bldEndOnly s) n d → ¬ Config.endSym < n := fun h => (atDepth_bldEndOnly h).1.not_gt
  refine ⟨⟨fun n d h hint => absurd hint (hnone h), fun x d e hd he => ?depth⟩, hcount.symm, by rw [hcount]; rfl,
    fun x _ => ?leaves, fun x hx => ?weights, fun n d h hint => absurd hint (hnone h), fun n d x h hint => absurd hint (hnone h)⟩
  case depth => rw [(atDepth_bldEndOnly hd).2, (atDepth_bldEndOnly he).2]
  case leaves =>
    rw [hleaf]
    refine ⟨fun ⟨d, h⟩ => (atDepth_bldEndOnly h).1, ?_⟩
    rintro rfl
    exact ⟨0, .root⟩
  case weights =>
    obtain rfl := hleaf.1 hx
    rw [bldEndOnly_root_weight, leafWeight, if_pos rfl]

/-- R16: then the counts sum to 0. -/
theorem freqSum_of_empty {s : State} (hempty : presentSymbols s.freq = []) : freqSum s = 0 := by
  refine List.sum_eq_zero fun n hn => ?_
  obtain ⟨x, hx, rfl⟩ := List.mem_map.1 hn
  have hnot : x ∉ presentSymbols s.freq := hempty ▸ List.not_mem_nil
  by_contra h
  exact hnot (mem_presentSymbols.2 ⟨mem_byteValues.1 hx, fun e => h (by rw [e]; rfl)⟩)

/-! ### Both -/

/-- R107: `BLD` completes with the tree of the symbols counted, and its root weighs what they and END do. -/
theorem exec_bld_treeOk {s : State} (hp : s.phase = .idle ∨ s.phase = .count) (hfits : freqSum s + 1 < 2 ^ Config.cntW) :
    ∃ t, exec .bld s = .next t ∧ t.phase = .tree ∧ TreeOk t ∧ (tableGet t.nodeWt t.root.toNat).toNat = freqSum s + 1 := by
  by_cases hempty : presentSymbols s.freq = []
  · refine ⟨_, exec_bld_of_empty hp hempty, rfl, bldEndOnly_treeOk hempty, ?_⟩
    rw [freqSum_of_empty hempty]
    exact congrArg BitVec.toNat (bldEndOnly_root_weight s)
  · exact ⟨_, exec_bld_of_present hp hempty, rfl, bldTree_treeOk hfits hempty, bldTree_root_weight hfits hempty⟩

/-! ### The largest length -/

/-- Where no length listed is above `m`, neither is `MAXLEN`. -/
theorem maxLength_lengthTable_le {d : List (Nat × Nat)} {m : Nat} (h : ∀ p ∈ d, p.2 ≤ m) :
    (maxLength (lengthTable d)).toNat ≤ m := by
  have hentry : ∀ x, (tableGet (lengthTable d) x).toNat ≤ m := by
    intro x
    induction d using List.reverseRecOn with
    | nil => exact Nat.zero_le m
    | append_singleton d p ih =>
      obtain ⟨hd, hp⟩ := List.forall_mem_append.1 h
      rw [lengthTable, List.foldl_append, List.foldl_cons, List.foldl_nil, tableGet_tableSet]
      split
      · exact (Nat.mod_le _ _).trans (hp p (List.mem_singleton_self p))
      · exact ih hd
  rw [maxLength, foldl_umax_le_iff]
  exact ⟨Nat.zero_le m, fun x _ => hentry x⟩

/-- R113: `LEN` completes on the tree that `BLD` built, with no length above 91. -/
theorem exec_bld_len_maxlen {s : State} (hp : s.phase = .idle ∨ s.phase = .count) (hfits : freqSum s + 1 < 2 ^ Config.cntW) :
    ∃ t u, exec .bld s = .next t ∧ exec .len t = .next u ∧ u.phase = .lens ∧ u.maxlen.toNat ≤ 91 := by
  by_cases hempty : presentSymbols s.freq = []
  · refine ⟨_, _, exec_bld_of_empty hp hempty, exec_len_bldEndOnly s, rfl, ?_⟩
    rw [withLengths_maxlen]
    exact maxLength_lengthTable_le (by simp)
  · refine ⟨_, _, exec_bld_of_present hp hempty, exec_len_bldTree hfits hempty, rfl, ?_⟩
    rw [withLengths_maxlen]
    refine maxLength_lengthTable_le fun q hq => (CodeTree.depth_le hq).trans ?_
    rw [Nat.zero_add]
    exact codeTree_height_le hfits hempty

end Sys2Proof.Machine
end

section
/-! The statements of 42_tree_builder.md and 43_canonicalizer.md on the whole tree and on its height, settled. -/

namespace Sys2Proof.Proofs

open Sys2Proof.Machine Sys2Proof.Safety

/-- Settles O24: the leaves of the code tree are the leaf symbols, each once, so a node stands at one depth and has disjoint
subtrees; no queue weighs more than all leaves, so no sum wraps. -/
theorem bldBuildsAFullTree : Obligations.BldBuildsAFullTree := by
  intro s hinv hp
  obtain ⟨t, hexec, hphase, htree, hweight⟩ := exec_bld_treeOk hp (freqSum_fits hinv.counts)
  exact ⟨t, hexec, hphase, htree, by rw [hweight, hinv.counts.total]⟩

/-- Settles O28: a tree of height 92 weighs at least the 94th Fibonacci number, which is above `2^64`. -/
theorem lengthsNeverOverflow : Obligations.LengthsNeverOverflow :=
  fun _ hinv hp => exec_bld_len_maxlen hp (freqSum_fits hinv.counts)

end Sys2Proof.Proofs
end

section
/-! SUPPORT. What each command may write (R86): its own unit's state, and beside it `PHASE`, `ERR` and `ERRCMD`. -/

namespace Sys2Proof.Machine

open Sys2Proof.Safety

/-- From `s` to `t` nothing has changed but the state of the command's unit, `PHASE`, `ERR` and `ERRCMD` (R86). -/
def WritesOwn (i : Instr) (s t : State) : Prop :=
  SameInput s t ∧
    match i with
    | .clr => SameOut s t
    | .cnt _ =>
      SameTree s t ∧ SameLengths s t ∧ SameCodes s t ∧ SameCursor s t ∧ SameAcc s t ∧ SameTrie s t ∧ SameWalk s t ∧ SameOut s t
    | .bld =>
      SameCounts s t ∧ SameLengths s t ∧ SameCodes s t ∧ SameCursor s t ∧ SameAcc s t ∧ SameTrie s t ∧ SameWalk s t ∧ SameOut s t
    | .len => SameCounts s t ∧ SameCodes s t ∧ SameCursor s t ∧ SameAcc s t ∧ SameTrie s t ∧ SameWalk s t ∧ SameOut s t
    | .asg =>
      SameCounts s t ∧ SameTree s t ∧ SameLengths s t ∧ SameCursor s t ∧ SameAcc s t ∧ SameTrie s t ∧ SameWalk s t ∧ SameOut s t
    | .whd | .pkb _ | .pke =>
      SameCounts s t ∧ SameTree s t ∧ SameLengths s t ∧ SameCodes s t ∧ SameCursor s t ∧ SameTrie s t ∧ SameWalk s t
    | .rhb _ => SameCounts s t ∧ SameTree s t ∧ SameCodes s t ∧ SameAcc s t ∧ SameTrie s t ∧ SameWalk s t ∧ SameOut s t
    | .tri =>
      SameCounts s t ∧ SameTree s t ∧ SameLengths s t ∧ SameCodes s t ∧ SameCursor s t ∧ SameAcc s t ∧ SameOut s t
    | .dcb _ =>
      SameCounts s t ∧ SameTree s t ∧ SameLengths s t ∧ SameCodes s t ∧ SameCursor s t ∧ SameAcc s t ∧ SameTrie s t
    | .eoi =>
      SameCounts s t ∧ SameTree s t ∧ SameLengths s t ∧ SameCodes s t ∧ SameCursor s t ∧ SameAcc s t ∧ SameTrie s t
        ∧ SameWalk s t ∧ SameOut s t

theorem writesOwn_refl (i : Instr) (s : State) : WritesOwn i s s := by
  cases i <;>
    simp [WritesOwn, SameInput, SameCounts, SameTree, SameLengths, SameCodes, SameCursor, SameAcc, SameTrie, SameWalk, SameOut]

/-- R190: raising a fault writes `PHASE`, `ERR` and `ERRCMD` alone. -/
theorem raise_writesOwn (i : Instr) (f : Err) (w : Word) (s : State) : WritesOwn i s (raise f w s) := writesOwn_refl i s

/-! ### Each command's rule -/

theorem rhbBody_writesOwn (b : Byte) (s : State) : WritesOwn (.rhb b) s (rhbBody b s) := by
  rcases rhbBody_cases b s with ⟨-, e⟩ | ⟨-, e⟩ | ⟨-, e⟩ | ⟨-, -, e⟩ | ⟨-, -, e⟩ <;> rw [e]
  · exact writesOwn_refl (.rhb b) s
  · unfold rhbSizeLow
    split <;> exact writesOwn_refl (.rhb b) s
  · unfold rhbEndLength
    split <;> exact writesOwn_refl (.rhb b) s
  · unfold rhbSymbol
    split <;> exact writesOwn_refl (.rhb b) s
  · unfold rhbLength
    split <;> exact writesOwn_refl (.rhb b) s

theorem dcbBody_writesOwn (b : Byte) (s : State) : WritesOwn (.dcb b) s (dcbBody b s) := by
  unfold dcbBody
  split
  · exact writesOwn_refl (.dcb b) s
  · obtain ⟨bs, e⟩ := walkBits_frame (encodeWord (.dcb b)) b 8 s
    rw [e]
    exact writesOwn_refl (.dcb b) s

/-- R141: appending a codeword writes `ACC`, `NACC` and `OUT`. -/
theorem appendCodeword_frame (sym : Nat) (s : State) :
    ∃ bs, appendCodeword sym s
      = { s with acc := (appendCodeword sym s).acc, nacc := (appendCodeword sym s).nacc, out := s.out ++ bs } :=
  appendBits_frame _ _ s

theorem pkbBody_writesOwn (b : Byte) (s : State) : WritesOwn (.pkb b) s (pkbBody b s) := by
  unfold pkbBody
  split
  · exact raise_writesOwn ..
  · obtain ⟨bs, e⟩ := appendCodeword_frame (operandIndex b) s
    rw [e]
    exact writesOwn_refl (.pkb b) s

theorem pkeBody_writesOwn (s : State) : WritesOwn .pke s (pkeBody s) := by
  obtain ⟨bs, e⟩ := appendCodeword_frame Config.endSym s
  unfold pkeBody flush
  rw [e]
  split <;> exact writesOwn_refl .pke s

theorem bodyOf_writesOwn (i : Instr) (s : State) : WritesOwn i s (bodyOf i s) := by
  cases i with
  | clr => exact ⟨rfl, rfl⟩
  | cnt b =>
    show WritesOwn _ s (cntBody b s)
    unfold cntBody
    split <;> exact writesOwn_refl (.cnt b) s
  | bld =>
    show WritesOwn _ s (bldBody Config.emptyReject s)
    unfold bldBody
    split <;> exact writesOwn_refl .bld s
  | len =>
    show WritesOwn _ s (lenBody s)
    unfold lenBody
    split <;> exact writesOwn_refl .len s
  | asg =>
    show WritesOwn _ s (asgBody s)
    unfold asgBody
    split <;> exact writesOwn_refl .asg s
  | whd => exact writesOwn_refl .whd s
  | pkb b => exact pkbBody_writesOwn b s
  | pke => exact pkeBody_writesOwn s
  | rhb b => exact rhbBody_writesOwn b s
  | tri => exact writesOwn_refl .tri s
  | dcb b => exact dcbBody_writesOwn b s
  | eoi =>
    show WritesOwn _ s (eoiBody s)
    unfold eoiBody
    split <;> exact writesOwn_refl .eoi s

/-- R86: so does a command that the sequencer discards or refuses. -/
theorem sequenced_writesOwn (i : Instr) (s : State) : WritesOwn i s (sequenced i (bodyOf i) s) :=
  sequenced_keeps (writesOwn_refl i s) (fun _ => bodyOf_writesOwn i s) fun _ => raise_writesOwn ..

/-! ### What a command leaves alone, element by element -/

section

variable {i : Instr} {s t : State} (h : WritesOwn i s t)
include h

theorem WritesOwn.sameCounts (hclr : i ≠ .clr) (hcnt : ∀ b, i ≠ .cnt b) : SameCounts s t := by
  cases i <;> simp_all [WritesOwn]

theorem WritesOwn.sameTree (hclr : i ≠ .clr) (hbld : i ≠ .bld) (hlen : i ≠ .len) : SameTree s t := by
  cases i <;> simp_all [WritesOwn]

theorem WritesOwn.sameLengths (hclr : i ≠ .clr) (hlen : i ≠ .len) (hrhb : ∀ b, i ≠ .rhb b) : SameLengths s t := by
  cases i <;> simp_all [WritesOwn]

theorem WritesOwn.sameCodes (hclr : i ≠ .clr) (hasg : i ≠ .asg) : SameCodes s t := by
  cases i <;> simp_all [WritesOwn]

theorem WritesOwn.sameCursor (hclr : i ≠ .clr) (hrhb : ∀ b, i ≠ .rhb b) : SameCursor s t := by
  cases i <;> simp_all [WritesOwn]

theorem WritesOwn.sameAcc (hclr : i ≠ .clr) (hwhd : i ≠ .whd) (hpkb : ∀ b, i ≠ .pkb b) (hpke : i ≠ .pke) :
    SameAcc s t := by
  cases i <;> simp_all [WritesOwn]

theorem WritesOwn.sameTrie (hclr : i ≠ .clr) (htri : i ≠ .tri) : SameTrie s t := by
  cases i <;> simp_all [WritesOwn]

theorem WritesOwn.sameWalk (hclr : i ≠ .clr) (htri : i ≠ .tri) (hdcb : ∀ b, i ≠ .dcb b) : SameWalk s t := by
  cases i <;> simp_all [WritesOwn]

theorem WritesOwn.sameOut (hwhd : i ≠ .whd) (hpkb : ∀ b, i ≠ .pkb b) (hpke : i ≠ .pke) (hdcb : ∀ b, i ≠ .dcb b) :
    SameOut s t := by
  cases i <;> simp_all [WritesOwn]

end

end Sys2Proof.Machine
end

section
/-! SUPPORT. How a command ends (R190, R191): it completes and records no fault, or it has recorded one with its own word and,
but for `DCB`, changed nothing else. -/

namespace Sys2Proof.Machine

open Sys2Proof.Safety

/-- `t` records a fault of the command's and has of the command's effect what R190 and R191 leave. -/
def FaultsPrecisely (i : Instr) (s t : State) : Prop :=
  t.err ≠ .noFault ∧ t.errcmd = encodeWord i
    ∧ ((∀ b, i ≠ .dcb b) → FaultedBy t.err (encodeWord i) s t)
    ∧ ∃ bs, t = { s with
        err := t.err, errcmd := encodeWord i, phase := .fault, slot := t.slot, depth := t.depth, out := s.out ++ bs }

/-- The command completes, or ends in FAULT precisely. -/
def Ends (i : Instr) (s t : State) : Prop :=
  (t.phase ≠ .fault ∧ SameErr s t) ∨ (t.phase = .fault ∧ FaultsPrecisely i s t)

theorem raise_faultsPrecisely {i : Instr} {f : Err} (hf : f ≠ .noFault) (s : State) :
    FaultsPrecisely i s (raise f (encodeWord i) s) := ⟨hf, rfl, fun _ => rfl, [], by rw [List.append_nil]; rfl⟩

theorem ends_of_raise {i : Instr} {f : Err} (hf : f ≠ .noFault) (s : State) : Ends i s (raise f (encodeWord i) s) :=
  Or.inr ⟨rfl, raise_faultsPrecisely hf s⟩

/-- A rule that checks once. -/
theorem ends_of_ite {i : Instr} {c : Prop} [Decidable c] {f : Err} {s u : State} (hf : f ≠ .noFault) (hu : u.phase ≠ .fault)
    (herr : SameErr s u) : Ends i s (if c then raise f (encodeWord i) s else u) := by
  split
  · exact ends_of_raise hf s
  · exact Or.inl ⟨hu, herr⟩

/-- R83, R193: only `CLR` is legal in FAULT. -/
theorem phase_ne_fault_of_legal {i : Instr} {p : Phase} (hi : i ≠ .clr) (hl : legal i p = true) : p ≠ .fault := by
  rintro rfl
  rw [legal_fault hi] at hl
  cases hl

theorem asgBody_ends {s : State} : Ends .asg s (asgBody s) := by
  unfold asgBody
  split
  · exact ends_of_raise (by decide) s
  · exact Or.inl ⟨by show (if s.phase = .lens then Phase.codes else .dcodes) ≠ .fault; split <;> decide, rfl, rfl⟩

theorem pkbBody_ends (b : Byte) (s : State) : Ends (.pkb b) s (pkbBody b s) := by
  obtain ⟨bs, e⟩ := appendCodeword_frame (operandIndex b) s
  exact ends_of_ite (by decide) nofun (by rw [e]; exact ⟨rfl, rfl⟩)

theorem pkeBody_ends (s : State) : Ends .pke s (pkeBody s) := by
  obtain ⟨bs, e⟩ := appendCodeword_frame Config.endSym s
  refine Or.inl ⟨nofun, ?_⟩
  unfold pkeBody flush
  rw [e]
  split <;> exact ⟨rfl, rfl⟩

theorem rhbBody_ends (b : Byte) {s : State} (hs : s.phase ≠ .fault) : Ends (.rhb b) s (rhbBody b s) := by
  rcases rhbBody_cases b s with ⟨-, e⟩ | ⟨-, e⟩ | ⟨-, e⟩ | ⟨-, -, e⟩ | ⟨-, -, e⟩ <;> rw [e]
  · exact Or.inl ⟨nofun, rfl, rfl⟩
  · exact ends_of_ite (by decide) hs ⟨rfl, rfl⟩
  · exact ends_of_ite (by decide) (phase_or_hdrDone_ne_fault hs _) ⟨rfl, rfl⟩
  · exact ends_of_ite (by decide) hs ⟨rfl, rfl⟩
  · exact ends_of_ite (by decide) (phase_or_hdrDone_ne_fault hs _) ⟨rfl, rfl⟩

/-- R191: what the bits before the faulting one wrote stands. -/
theorem dcbBody_ends (b : Byte) {s : State} (hs : s.phase ≠ .fault) : Ends (.dcb b) s (dcbBody b s) := by
  unfold dcbBody
  split
  · exact Or.inl ⟨hs, rfl, rfl⟩
  · rcases walkBits_phase (encodeWord (.dcb b)) b 8 s with ⟨hp, herr⟩ | ⟨hp, herr, hcmd⟩
    · exact Or.inl ⟨by rcases hp with hp | hp <;> simp [hp], herr⟩
    · obtain ⟨bs, e⟩ := walkBits_frame (encodeWord (.dcb b)) b 8 s
      refine Or.inr ⟨hp, by rw [herr]; decide, hcmd, fun h => absurd rfl (h b), bs, ?_⟩
      rw [hp, hcmd] at e
      exact e

theorem eoiBody_ends {s : State} (hl : legal .eoi s.phase = true) : Ends .eoi s (eoiBody s) := by
  have hp : s.phase = .hdr ∨ (s.phase = .hdrDone ∨ s.phase = .dcodes ∨ s.phase = .dec) ∨ s.phase = .decDone := by
    simpa [legal, legalPhases, or_assoc] using hl
  rcases hp with hp | hp | hp
  · rw [eoiBody_of_hdr hp]
    exact ends_of_raise (by decide) s
  · rw [eoiBody_of_truncated hp]
    exact ends_of_raise (by decide) s
  · rw [eoiBody_of_decDone hp]
    exact Or.inl ⟨by rw [hp]; decide, rfl, rfl⟩

theorem bodyOf_ends {i : Instr} {s : State} (hi : i ≠ .clr) (hl : legal i s.phase = true) : Ends i s (bodyOf i s) := by
  have hs := phase_ne_fault_of_legal hi hl
  cases i with
  | clr => exact absurd rfl hi
  | cnt b => exact ends_of_ite (by decide) nofun ⟨rfl, rfl⟩
  | bld =>
    refine Or.inl ⟨by rw [bodyOf, bldBody_phase]; decide, ?_⟩
    show SameErr s (bldBody Config.emptyReject s)
    unfold bldBody
    split <;> exact ⟨rfl, rfl⟩
  | len => exact ends_of_ite (by decide) nofun ⟨rfl, rfl⟩
  | asg => exact asgBody_ends
  | whd => exact Or.inl ⟨nofun, rfl, rfl⟩
  | pkb b => exact pkbBody_ends b s
  | pke => exact pkeBody_ends s
  | rhb b => exact rhbBody_ends b hs
  | tri => exact Or.inl ⟨nofun, rfl, rfl⟩
  | dcb b => exact dcbBody_ends b hs
  | eoi => exact eoiBody_ends hl

/-- R80, R190: outside FAULT the same holds of a command that is out of sequence. -/
theorem sequenced_ends {i : Instr} {s : State} (hi : i ≠ .clr) (hs : s.phase ≠ .fault) :
    Ends i s (sequenced i (bodyOf i) s) := by
  rcases sequenced_cases i (bodyOf i) s with ⟨hl, e⟩ | ⟨-, hf, -⟩ | ⟨-, -, e⟩
  · exact e ▸ bodyOf_ends hi hl
  · exact absurd hf hs
  · exact e ▸ ends_of_raise (by decide) s

end Sys2Proof.Machine
end

section
/-! The statements of 40_sequencer.md on what a command may write and of 60_exceptions.md on precise faults, settled. -/

namespace Sys2Proof.Proofs

open Sys2Proof.Machine Sys2Proof.Safety

/-- Settles O12: each rule, and the sequencer in its place, keeps to `WritesOwn`. -/
theorem unitsWriteOnlyTheirState : Obligations.UnitsWriteOnlyTheirState := by
  intro i s
  obtain ⟨hin, hown⟩ := sequenced_writesOwn i s
  refine ⟨_, exec_eq i s, hin, ?_⟩
  cases i <;> exact hown

/-- Settles O15: a command that does not complete has raised its fault on the state as it was, and `DCB` on the state that the
bits walked before left. -/
theorem faultsArePrecise : Obligations.FaultsArePrecise := by
  intro i s t hexec hs ht
  obtain rfl := exec_eq_next_iff.1 hexec
  by_cases hi : i = .clr
  · subst hi
    rw [sequenced_of_legal (legal_clr s.phase), bodyOf, clear_phase] at ht
    cases ht
  · exact ((sequenced_ends hi hs).resolve_left fun h => h.1 ht).2

end Sys2Proof.Proofs
end

section
/-! SUPPORT. What every command's rule keeps of the registers (R13, R14, R16, R25, R27). -/

namespace Sys2Proof.Machine

open Sys2Proof.Safety

/-! ### The fault latch -/

theorem clear_faultLatch (s : State) : FaultLatch (clear s) := ⟨by simp, fun _ => rfl⟩

theorem raise_faultLatch {f : Err} (hf : f ≠ .noFault) (w : Word) (s : State) : FaultLatch (raise f w s) :=
  ⟨iff_of_true hf rfl, fun h => absurd h hf⟩

/-- R13, R14: a command that completes was issued outside FAULT and records nothing, and one that faults records its fault. -/
theorem bodyOf_faultLatch {i : Instr} {s : State} (hl : legal i s.phase = true) (h : FaultLatch s) :
    FaultLatch (bodyOf i s) := by
  by_cases hi : i = .clr
  · exact hi ▸ clear_faultLatch s
  have hnone : s.err = .noFault := by
    by_contra he
    exact phase_ne_fault_of_legal hi hl (h.errIff.1 he)
  rcases bodyOf_ends hi hl with ⟨hp, herr, hcmd⟩ | ⟨hp, herr, -⟩
  · exact ⟨iff_of_false (not_not_intro (herr.trans hnone)) hp, fun _ => hcmd.trans (h.errcmdZero hnone)⟩
  · exact ⟨iff_of_true herr hp, fun he => absurd he herr⟩

/-! ### The counts -/

theorem countsAgree_congr {s t : State} (h : CountsAgree s) (hst : SameCounts s t) : CountsAgree t := by
  obtain ⟨hn, hf⟩ := hst
  have hsum : freqSum t = freqSum s := by rw [freqSum, freqSum, hf]
  exact ⟨by rw [hn, hsum]; exact h.total, by rw [hn]; exact h.bounded⟩

theorem clear_countsAgree (s : State) : CountsAgree (clear s) :=
  ⟨(freqSum_of_empty (s := clear s) (List.filter_eq_nil_iff.2 (by simp))).symm, Nat.zero_le _⟩

/-- One more occurrence of a byte value adds one to the sum. -/
theorem sum_tally {freq : Table Config.cntW} {b : Byte}
    (hroom : (tableGet freq b.toNat + 1).toNat = (tableGet freq b.toNat).toNat + 1) :
    (byteValues.map fun x => (tableGet (tally freq b) x).toNat).sum
      = (byteValues.map fun x => (tableGet freq x).toNat).sum + 1 := by
  have hentry : ∀ x, (tableGet (tally freq b) x).toNat = (tableGet freq x).toNat + if x = b.toNat then 1 else 0 := by
    intro x
    by_cases hx : x = b.toNat
    · rw [hx, tableGet_tally_self, hroom, if_pos rfl]
    · rw [tableGet_tally_ne _ hx, if_neg hx, Nat.add_zero]
  have hmem : b.toNat ∈ byteValues.toFinset := List.mem_toFinset.2 (mem_byteValues.2 b.isLt)
  simp only [hentry]
  rw [← List.sum_toFinset _ (show byteValues.Nodup from List.nodup_range),
    ← List.sum_toFinset _ (show byteValues.Nodup from List.nodup_range), Finset.sum_add_distrib, Finset.sum_ite_eq', if_pos hmem]

/-- R16, R95: below the limit neither count wraps. -/
theorem cntBody_countsAgree (b : Byte) {s : State} (h : CountsAgree s) : CountsAgree (cntBody b s) := by
  unfold cntBody
  split
  next => exact countsAgree_congr h ⟨rfl, rfl⟩
  next hne =>
    have hlt : s.nbytes.toNat < 2 ^ Config.cntW - 2 := lt_of_le_of_ne h.bounded (mt eq_countLimit_iff.2 hne)
    have hfreq := count_add_one_toNat ((freq_le_nbytes h b).trans_lt hlt)
    have hnbytes := count_add_one_toNat hlt
    rw [operandIndex_eq]
    refine ⟨?_, hnbytes.trans_le hlt⟩
    exact hnbytes.trans ((congrArg (· + 1) h.total).trans (sum_tally hfreq).symm)

theorem bodyOf_countsAgree (i : Instr) {s : State} (h : CountsAgree s) : CountsAgree (bodyOf i s) := by
  cases i with
  | clr => exact clear_countsAgree s
  | cnt b => exact cntBody_countsAgree b h
  | bld | len | asg | whd | pkb | pke | rhb | tri | dcb | eoi =>
    exact countsAgree_congr h ((bodyOf_writesOwn _ s).sameCounts nofun nofun)

/-! ### The accumulator -/

theorem accHeld_congr {s t : State} (h : AccHeld s) (hst : SameAcc s t) : AccHeld t := by
  obtain ⟨ha, hn⟩ := hst
  exact ⟨by rw [hn]; exact h.atMostSeven, by rw [ha, hn]; exact h.highZero⟩

/-- No bit held. -/
theorem accHeld_of_zero {s : State} (ha : s.acc = 0) (hn : s.nacc = 0) : AccHeld s :=
  ⟨by rw [hn]; exact Nat.zero_le 7, by rw [ha, hn]; exact Nat.one_pos⟩

theorem pkbBody_accHeld (b : Byte) {s : State} (h : AccHeld s) : AccHeld (pkbBody b s) := by
  unfold pkbBody
  split
  · exact accHeld_congr h ⟨rfl, rfl⟩
  · exact accHeld_congr (appendCodeword_packs (operandIndex b) h).accHeld ⟨rfl, rfl⟩

theorem pkeBody_accHeld {s : State} (h : AccHeld s) : AccHeld (pkeBody s) := by
  obtain ⟨bs, e, -⟩ := flush_eq (appendCodeword_packs Config.endSym h).accHeld
  rw [pkeBody, e]
  exact accHeld_of_zero rfl rfl

theorem bodyOf_accHeld (i : Instr) {s : State} (h : AccHeld s) : AccHeld (bodyOf i s) := by
  cases i with
  | clr => exact accHeld_of_zero rfl rfl
  | whd => exact whdBody_accHeld s
  | pkb b => exact pkbBody_accHeld b h
  | pke => exact pkeBody_accHeld h
  | cnt | bld | len | asg | rhb | tri | dcb | eoi =>
    exact accHeld_congr h ((bodyOf_writesOwn _ s).sameAcc nofun nofun nofun nofun)

/-! ### The walk -/

/-- R27, R152: the slot and the depth are those of a path. -/
def AtSomePath (s : State) : Prop := ∃ p : List Bool, s.slot.toNat = pathSlot p ∧ s.depth.toNat = p.length

/-- The slots on the level of a depth are those of the paths of that length. -/
theorem walkHeld_iff {s : State} :
    WalkHeld s ↔ AtSomePath s ∧ (s.phase = .dec → s.depth.toNat ≤ s.maxlen.toNat) := by
  constructor
  · intro h
    have hlow := h.low
    have hhigh := h.high
    have hpos := Nat.two_pow_pos s.depth.toNat
    rw [pow_succ] at hhigh
    have hvalue : (BitVec.ofNat Config.slotW (s.slot.toNat - (2 ^ s.depth.toNat - 1))).toNat
        = s.slot.toNat - (2 ^ s.depth.toNat - 1) :=
      Nat.mod_eq_of_lt ((Nat.sub_le ..).trans_lt s.slot.isLt)
    refine ⟨⟨bitsMsb (BitVec.ofNat Config.slotW (s.slot.toNat - (2 ^ s.depth.toNat - 1))) s.depth.toNat, ?_,
      (bitsMsb_length ..).symm⟩, h.within⟩
    rw [pathSlot_bitsMsb, hvalue, Nat.mod_eq_of_lt (by omega)]
    omega
  · rintro ⟨⟨p, hslot, hdepth⟩, hwithin⟩
    have hzero : s.slot = 0 ↔ s.depth = 0 := by
      rw [← BitVec.toNat_inj, ← BitVec.toNat_inj, hslot, hdepth]
      exact ⟨fun h => congrArg List.length (pathSlot_inj (q := []) h), fun h => by rw [List.eq_nil_of_length_eq_zero h]; rfl⟩
    refine ⟨?_, ?_, hzero, hwithin⟩ <;> rw [hslot, hdepth]
    · exact Nat.le_add_right ..
    · exact pathSlot_le le_rfl

theorem atSomePath_congr {s t : State} (h : AtSomePath s) (hst : SameWalk s t) : AtSomePath t := by
  obtain ⟨p, hslot, hdepth⟩ := h
  exact ⟨p, by rw [hst.1, hslot], by rw [hst.2, hdepth]⟩

/-- The walk stands at the start slot. -/
theorem walkHeld_of_start {s : State} (hslot : s.slot = 0) (hdepth : s.depth = 0) : WalkHeld s :=
  walkHeld_iff.2 ⟨⟨[], by rw [hslot]; rfl, by rw [hdepth]; rfl⟩, fun _ => by rw [hdepth]; exact Nat.zero_le _⟩

/-- A command that does not walk and does not end in DEC. -/
theorem walkHeld_congr {s t : State} (h : WalkHeld s) (hst : SameWalk s t) (ht : t.phase ≠ .dec) : WalkHeld t :=
  walkHeld_iff.2 ⟨atSomePath_congr (walkHeld_iff.1 h).1 hst, fun hp => absurd hp ht⟩

/-- R155 to R157: `DCB` in DEC is the walk by paths. -/
theorem dcbBody_eq_afterWalk (b : Byte) {s : State} {p : List Bool} (hp : s.phase = .dec)
    (hslot : s.slot.toNat = pathSlot p) (hdepth : s.depth.toNat = p.length) (hle : p.length ≤ s.maxlen.toNat) :
    dcbBody b s = afterWalk (encodeWord (.dcb b)) s (walkPath s.trie s.maxlen.toNat p (byteBits b)) :=
  Host.Outcome.next.inj ((exec_of_legal (i := .dcb b) (legal_dcb_iff.2 (Or.inl hp))).symm.trans
    (exec_dcb_of_dec b hp hslot hdepth hle))

theorem dcbBody_walkHeld (b : Byte) {s : State} (h : WalkHeld s) (hp : s.phase = .dec ∨ s.phase = .decDone) :
    WalkHeld (dcbBody b s) := by
  rcases hp with hp | hp
  · obtain ⟨⟨p, hslot, hdepth⟩, hwithin⟩ := walkHeld_iff.1 h
    have hle : p.length ≤ s.maxlen.toNat := hdepth ▸ hwithin hp
    have hmax := maxlen_le_lmax s
    rw [dcbBody_eq_afterWalk b hp hslot hdepth hle]
    have hend := walkPath_endWithin s.trie (byteBits b) hle
    generalize walkPath s.trie s.maxlen.toNat p (byteBits b) = r at hend ⊢
    obtain ⟨bs, q | _ | q⟩ := r
    case more =>
      have hq : q.length ≤ s.maxlen.toNat := hend
      have hdepth' := atPath_depth_toNat (hq.trans hmax) s
      exact walkHeld_iff.2 ⟨⟨q, atPath_slot_toNat (hq.trans hmax) s, hdepth'⟩, fun _ => hdepth'.trans_le hq⟩
    case ended => exact walkHeld_of_start rfl rfl
    case stuck =>
      have hq : q.length ≤ Config.lmax := hend.le.trans hmax
      exact walkHeld_iff.2 ⟨⟨q, atPath_slot_toNat hq s, atPath_depth_toNat hq s⟩, nofun⟩
  · exact (dcbBody_of_decDone b hp).symm ▸ h

/-- R81: no command but `TRI` and `DCB` ends in DEC. -/
theorem bodyOf_phase_ne_dec {i : Instr} {s : State} (hl : legal i s.phase = true) (htri : i ≠ .tri) (hdcb : ∀ b, i ≠ .dcb b) :
    (bodyOf i s).phase ≠ .dec := by
  cases i with
  | tri => exact absurd rfl htri
  | dcb b => exact absurd rfl (hdcb b)
  | clr | whd | pke => nofun
  | cnt b => rcases cntBody_outcome b s with e | e <;> simp [bodyOf, e]
  | bld => rw [bodyOf, bldBody_phase]; decide
  | len => rcases lenBody_outcome s with e | e <;> simp [bodyOf, e]
  | asg =>
    rcases asgBody_outcome s with e | e
    · simp [bodyOf, e]
    · rw [bodyOf, e]
      split <;> decide
  | pkb b => rcases pkbBody_outcome b s with e | e <;> simp [bodyOf, e]
  | rhb b =>
    have hp : s.phase ≠ .dec := by rcases legal_rhb_iff.1 hl with hp | hp <;> simp [hp]
    rcases rhbBody_outcome b s with e | ⟨-, e⟩ | ⟨-, e | e⟩ <;> simp [bodyOf, e, hp]
  | eoi =>
    rcases bodyOf_ends (i := .eoi) nofun hl with ⟨hne, -⟩ | ⟨hf, -⟩
    · have hp : s.phase = .hdr ∨ (s.phase = .hdrDone ∨ s.phase = .dcodes ∨ s.phase = .dec) ∨ s.phase = .decDone := by
        simpa [legal, legalPhases, or_assoc] using hl
      rcases hp with hp | hp | hp
      · exact absurd (congrArg State.phase (eoiBody_of_hdr hp)) hne
      · exact absurd (congrArg State.phase (eoiBody_of_truncated hp)) hne
      · rw [bodyOf, eoiBody_of_decDone hp, hp]; decide
    · rw [hf]; decide

theorem bodyOf_walkHeld {i : Instr} {s : State} (hl : legal i s.phase = true) (h : WalkHeld s) : WalkHeld (bodyOf i s) := by
  cases i with
  | clr | tri => exact walkHeld_of_start rfl rfl
  | dcb b => exact dcbBody_walkHeld b h (legal_dcb_iff.1 hl)
  | cnt | bld | len | asg | whd | pkb | pke | rhb | eoi =>
    exact walkHeld_congr h ((bodyOf_writesOwn _ s).sameWalk nofun nofun nofun) (bodyOf_phase_ne_dec hl nofun nofun)

end Sys2Proof.Machine
end

section
/-! SUPPORT. What every command's rule keeps of the tables and the trie (R26, log 9). -/

namespace Sys2Proof.Machine

open Sys2Proof.Safety

/-! ### The trie -/

theorem trieCanonical_congr {s t : State} (h : TrieCanonical s) (hst : SameTrie s t) : TrieCanonical t := by
  have e : t.trie = s.trie := hst
  exact ⟨by rw [e]; exact h.sorted, by rw [e]; exact h.entries, by rw [e]; exact h.size⟩

/-- R150: the slot of a codeword is inside the array and not the start slot. -/
theorem symbolSlot_bounds {lent : Table 8} {a : Nat} (h : tableGet lent a ≠ 0) (code : Table Config.codeW) :
    1 ≤ (symbolSlot lent code a).toNat ∧ (symbolSlot lent code a).toNat ≤ 2 ^ Config.slotW - 2 := by
  have hpos : (tableGet lent a).toNat ≠ 0 := fun e => h (BitVec.eq_of_toNat_eq e)
  have hpow := Nat.one_lt_two_pow hpos
  rw [symbolSlot_toNat]
  refine ⟨?_, pathSlot_le (n := Config.lmax) ?_⟩
  · rw [pathSlot, codewordOf_length]
    omega
  · rw [codewordOf_length]
    exact Nat.le_of_lt_succ (tableGet lent a).isLt

theorem buildTrie_canonical (lent : Table 8) (code : Table Config.codeW) :
    assocSorted (buildTrie lent code) = true
      ∧ ∀ p ∈ buildTrie lent code, 1 ≤ p.1 ∧ p.1 ≤ 2 ^ Config.slotW - 2 ∧ p.2.toNat ≤ Config.endSym := by
  have key : ∀ l : List Nat, (∀ a ∈ l, a ≤ Config.endSym) → assocSorted (l.foldl (insertSymbol lent code) []) = true
      ∧ ∀ p ∈ l.foldl (insertSymbol lent code) [], 1 ≤ p.1 ∧ p.1 ≤ 2 ^ Config.slotW - 2 ∧ p.2.toNat ≤ Config.endSym := by
    intro l hl
    induction l using List.reverseRecOn with
    | nil => exact ⟨rfl, nofun⟩
    | append_singleton l a ih =>
      obtain ⟨hl, ha⟩ := List.forall_mem_append.1 hl
      obtain ⟨hsorted, hentries⟩ := ih hl
      rw [List.foldl_append, List.foldl_cons, List.foldl_nil]
      by_cases h : tableGet lent a = 0
      · rw [insertSymbol_of_zero h]
        exact ⟨hsorted, hentries⟩
      · rw [insertSymbol_of_ne_zero h]
        refine ⟨assocPut_sorted _ _ hsorted, fun p hp => ?_⟩
        rcases mem_assocPut.1 hp with rfl | ⟨hp, -⟩
        · obtain ⟨hlow, hhigh⟩ := symbolSlot_bounds h code
          exact ⟨hlow, hhigh, (Nat.mod_le ..).trans (ha a (List.mem_singleton_self a))⟩
        · exact hentries p hp
  exact key symbols fun a => mem_symbols.1

theorem bodyOf_trieCanonical (i : Instr) {s : State} (h : TrieCanonical s) : TrieCanonical (bodyOf i s) := by
  cases i with
  | clr => exact ⟨rfl, nofun, Nat.zero_le _⟩
  | tri =>
    obtain ⟨hsorted, hentries⟩ := buildTrie_canonical s.lent s.code
    have e : (bodyOf .tri s).trie = buildTrie s.lent s.code := triBody_trie s
    exact ⟨by rw [e]; exact hsorted, by rw [e]; exact hentries, by rw [e]; exact buildTrie_length_le ..⟩
  | cnt | bld | len | asg | whd | pkb | pke | rhb | dcb | eoi =>
    exact trieCanonical_congr h ((bodyOf_writesOwn _ s).sameTrie nofun nofun)

/-! ### The tables of a command that writes none, or `LENT` alone -/

theorem tablesCanonical_of_lent {s t : State} (h : TablesCanonical s) (hcounts : SameCounts s t) (htree : SameTree s t)
    (hcodes : SameCodes s t) (hlent : tableWf 0 Config.nsym t.lent = true) : TablesCanonical t := by
  obtain ⟨-, hfreq⟩ := hcounts
  obtain ⟨hwt, hleft, hright, -, -⟩ := htree
  have hcode : t.code = s.code := hcodes
  exact ⟨by rw [hfreq]; exact h.freq, by rw [hwt]; exact h.nodeWt, by rw [hleft]; exact h.nodeL, by rw [hright]; exact h.nodeR,
    hlent, by rw [hcode]; exact h.code⟩

theorem tablesCanonical_congr {s t : State} (h : TablesCanonical s) (hcounts : SameCounts s t) (htree : SameTree s t)
    (hlengths : SameLengths s t) (hcodes : SameCodes s t) : TablesCanonical t :=
  tablesCanonical_of_lent h hcounts htree hcodes (by rw [hlengths.1]; exact h.lent)

/-! ### The node memory -/

/-- The node memory that the merge loop works on is in canonical form. -/
structure NodesWf (m : Merge) : Prop where
  wt : tableWf 0 Config.nnode m.wt = true
  left : tableWf Config.firstInternal Config.nnode m.left = true
  right : tableWf Config.firstInternal Config.nnode m.right = true

theorem mergeTurn_nodesWf {m : Merge} (h : NodesWf m) (hk : m.k < Config.endSym) :
    NodesWf (mergeTurn m) ∧ (mergeTurn m).k ≤ m.k + 1 := by
  have hnew : Config.firstInternal + m.k < Config.nnode := Nat.add_lt_add_left hk _
  rcases mergeTurn_cases m with ⟨-, e⟩ | ⟨a, b, q, rest, -, -, -, e⟩ <;> rw [e]
  · exact ⟨h, Nat.le_succ _⟩
  · exact ⟨⟨tableSet_wf h.wt (Nat.zero_le _) hnew _, tableSet_wf h.left (Nat.le_add_right ..) hnew _,
      tableSet_wf h.right (Nat.le_add_right ..) hnew _⟩, le_rfl⟩

theorem mergeLoop_nodesWf (n : Nat) {m : Merge} (h : NodesWf m) (hk : m.k + n ≤ Config.endSym) : NodesWf (mergeLoop n m) := by
  induction n generalizing m with
  | zero => exact h
  | succ n ih =>
    obtain ⟨hturn, hk'⟩ := mergeTurn_nodesWf h (by omega)
    exact ih hturn (by omega)

theorem leafWeights_wf (freq : Table Config.cntW) {wt : Table Config.cntW} (h : tableWf 0 Config.nnode wt = true) :
    tableWf 0 Config.nnode (leafWeights freq wt) = true := by
  refine tableSet_wf (foldl_copy_wf freq (fun x hx => ⟨Nat.zero_le x, ?_⟩) h) (Nat.zero_le _) (by decide) _
  exact (mem_presentSymbols.1 hx).1.trans (by decide)

theorem mergeAll_nodesWf {s : State} (h : TablesCanonical s) : NodesWf (mergeAll s) :=
  mergeLoop_nodesWf _ ⟨leafWeights_wf s.freq h.nodeWt, h.nodeL, h.nodeR⟩
    ((Nat.zero_add _).trans_le (presentSymbols_length_le s.freq))

theorem bldBody_tablesCanonical {s : State} (h : TablesCanonical s) : TablesCanonical (bldBody Config.emptyReject s) := by
  unfold bldBody
  split
  · have hend : tableWf 0 Config.nnode (bldEndOnly s).nodeWt = true := by
      rw [bldEndOnly_nodeWt]
      exact tableSet_wf h.nodeWt (Nat.zero_le _) (by decide) _
    exact ⟨h.freq, hend, h.nodeL, h.nodeR, h.lent, h.code⟩
  · obtain ⟨hwt, hleft, hright⟩ := mergeAll_nodesWf h
    exact ⟨h.freq, hwt, hleft, hright, h.lent, h.code⟩

/-! ### The lengths -/

/-- R111: where no length is above 255, only symbols are listed. -/
theorem codewordLengths_symbol {s : State} {p : Nat × Nat} (hp : p ∈ codewordLengths s) (hfit : p.2 ≤ Config.lmax) :
    p.1 ≤ Config.endSym := by
  by_cases hend : s.root.toNat = Config.endSym
  · rw [codewordLengths_of_end hend, List.mem_singleton] at hp
    exact hp ▸ le_rfl
  · rw [codewordLengths, if_neg hend] at hp
    exact leafDepths_leaf hp hfit

theorem lenBody_tablesCanonical {s : State} (h : TablesCanonical s) : TablesCanonical (lenBody s) := by
  unfold lenBody
  split
  next => exact ⟨h.freq, h.nodeWt, h.nodeL, h.nodeR, h.lent, h.code⟩
  next hfits =>
    have hle : ∀ p ∈ codewordLengths s, p.2 ≤ Config.lmax := by simpa using hfits
    exact ⟨h.freq, tableWf_nil .., tableWf_nil .., tableWf_nil .., lengthTable_wf fun p hp => codewordLengths_symbol hp (hle p hp),
      h.code⟩

theorem rhbBody_tablesCanonical (b : Byte) {s : State} (h : TablesCanonical s) : TablesCanonical (rhbBody b s) := by
  have hown := rhbBody_writesOwn b s
  refine tablesCanonical_of_lent h (hown.sameCounts nofun nofun) (hown.sameTree nofun nofun nofun) (hown.sameCodes nofun nofun) ?_
  rcases rhbBody_cases b s with ⟨-, e⟩ | ⟨-, e⟩ | ⟨-, e⟩ | ⟨-, -, e⟩ | ⟨-, -, e⟩ <;> rw [e]
  · exact h.lent
  · unfold rhbSizeLow
    split <;> exact h.lent
  · unfold rhbEndLength
    split
    · exact h.lent
    · exact tableSet_wf h.lent (Nat.zero_le _) (by decide) _
  · unfold rhbSymbol
    split <;> exact h.lent
  · unfold rhbLength
    split
    · exact h.lent
    · exact tableSet_wf h.lent (Nat.zero_le _) (by rw [operandIndex_eq]; exact s.hsym.isLt.trans (by decide)) _

/-! ### The code -/

theorem assignBucket_wf {lent : Table 8} {L : Nat} {l : List Nat} (hl : ∀ x ∈ l, x < Config.nsym) {a a' : Assign}
    (ha : tableWf 0 Config.nsym a.table = true) (h : assignBucket lent L l a = some a') :
    tableWf 0 Config.nsym a'.table = true := by
  induction l generalizing a with
  | nil => exact Option.some.inj h ▸ ha
  | cons x l ih =>
    obtain ⟨hx, hl⟩ := List.forall_mem_cons.1 hl
    rw [assignBucket] at h
    split at h
    · split at h
      · cases h
      · exact ih hl (tableSet_wf ha (Nat.zero_le x) hx _) h
    · exact ih hl ha h

theorem assignFrom_wf {lent : Table 8} {L : Nat} {a a' : Assign} (ha : tableWf 0 Config.nsym a.table = true)
    (h : assignFrom lent L a = some a') : tableWf 0 Config.nsym a'.table = true := by
  induction L generalizing a with
  | zero => exact Option.some.inj h ▸ ha
  | succ L ih =>
    rw [assignFrom] at h
    cases hb : assignBucket lent (L + 1) symbols a with
    | none => rw [hb] at h; cases h
    | some b =>
      rw [hb] at h
      have hwf := assignBucket_wf (fun x hx => Nat.lt_succ_of_le (mem_symbols.1 hx)) ha hb
      exact ih (a := levelUp b) hwf h

theorem asgBody_tablesCanonical {s : State} (h : TablesCanonical s) : TablesCanonical (asgBody s) := by
  unfold asgBody
  split
  next => exact ⟨h.freq, h.nodeWt, h.nodeL, h.nodeR, h.lent, h.code⟩
  next table htable =>
    obtain ⟨a, ha, rfl⟩ := Option.map_eq_some_iff.1 htable
    exact ⟨h.freq, h.nodeWt, h.nodeL, h.nodeR, h.lent, assignFrom_wf h.code ha⟩

/-! ### All tables -/

theorem clear_tablesCanonical (s : State) : TablesCanonical (clear s) :=
  ⟨tableWf_nil .., tableWf_nil .., tableWf_nil .., tableWf_nil .., tableWf_nil .., tableWf_nil ..⟩

theorem cntBody_tablesCanonical (b : Byte) {s : State} (h : TablesCanonical s) : TablesCanonical (cntBody b s) := by
  unfold cntBody
  split
  · exact ⟨h.freq, h.nodeWt, h.nodeL, h.nodeR, h.lent, h.code⟩
  · rw [operandIndex_eq]
    exact ⟨tally_wf h.freq b, h.nodeWt, h.nodeL, h.nodeR, h.lent, h.code⟩

theorem bodyOf_tablesCanonical (i : Instr) {s : State} (h : TablesCanonical s) : TablesCanonical (bodyOf i s) := by
  have hown := bodyOf_writesOwn i s
  cases i with
  | clr => exact clear_tablesCanonical s
  | cnt b => exact cntBody_tablesCanonical b h
  | bld => exact bldBody_tablesCanonical h
  | len => exact lenBody_tablesCanonical h
  | asg => exact asgBody_tablesCanonical h
  | rhb b => exact rhbBody_tablesCanonical b h
  | whd | pkb | pke | tri | dcb | eoi =>
    exact tablesCanonical_congr h (hown.sameCounts nofun nofun) (hown.sameTree nofun nofun nofun)
      (hown.sameLengths nofun nofun nofun) (hown.sameCodes nofun nofun)

end Sys2Proof.Machine
end

section
/-! The statements of 10_state.md on what every step keeps of one element, settled. -/

namespace Sys2Proof.Proofs

open Sys2Proof.Machine Sys2Proof.Safety

/-- Settles O43: a command that completes leaves `ERR` and `ERRCMD`, and one that faults records both. -/
theorem stepKeepsFaultLatch : Obligations.StepKeepsFaultLatch := fun _ _ =>
  step_keeps (P := FaultLatch) (fun _ _ h => ⟨h.errIff, h.errcmdZero⟩) (fun s => resetBlock_eq_clear s ▸ clear_faultLatch _)
    (fun _ w s hf _ _ => raise_faultLatch hf w s) fun _ _ hl h => bodyOf_faultLatch hl h

/-- Settles O44: `CNT` adds one to both sides of the sum below the limit, and no other command writes either. -/
theorem stepKeepsCountsAgree : Obligations.StepKeepsCountsAgree := fun _ _ =>
  step_keeps (P := CountsAgree) (fun _ _ h => countsAgree_congr h ⟨rfl, rfl⟩)
    (fun s => resetBlock_eq_clear s ▸ clear_countsAgree _) (fun _ _ _ _ _ h => countsAgree_congr h ⟨rfl, rfl⟩)
    fun i _ _ h => bodyOf_countsAgree i h

/-- Settles O45: eight bits held leave as a byte, and `WHD` and `PKE` leave none held. -/
theorem stepKeepsAccHeld : Obligations.StepKeepsAccHeld := fun _ _ =>
  step_keeps (P := AccHeld) (fun _ _ h => accHeld_congr h ⟨rfl, rfl⟩) (fun _ => accHeld_of_zero rfl rfl)
    (fun _ _ _ _ _ h => accHeld_congr h ⟨rfl, rfl⟩) fun i _ _ h => bodyOf_accHeld i h

/-- Settles O46: the slot and the depth are those of the path that the walk has taken, which stays in the trie. -/
theorem stepKeepsWalkHeld : Obligations.StepKeepsWalkHeld := fun _ _ =>
  step_keeps (P := WalkHeld) (fun _ _ h => ⟨h.low, h.high, h.startOnly, h.within⟩) (fun _ => walkHeld_of_start rfl rfl)
    (fun _ _ _ _ _ h => walkHeld_congr h ⟨rfl, rfl⟩ nofun) fun _ _ hl h => bodyOf_walkHeld hl h

/-- Settles O47: only `TRI` writes the trie, one slot inside the array for each coded symbol. -/
theorem stepKeepsTrieCanonical : Obligations.StepKeepsTrieCanonical := fun _ _ =>
  step_keeps (P := TrieCanonical) (fun _ _ h => trieCanonical_congr h rfl) (fun _ => ⟨rfl, nofun, Nat.zero_le _⟩)
    (fun _ _ _ _ _ h => trieCanonical_congr h rfl) fun i _ _ h => bodyOf_trieCanonical i h

/-- Settles O48: every write to a table is to an entry it has, and keeps its form. -/
theorem stepKeepsTablesCanonical : Obligations.StepKeepsTablesCanonical := fun _ _ =>
  step_keeps (P := TablesCanonical)
    (fun _ _ h => tablesCanonical_congr h ⟨rfl, rfl⟩ ⟨rfl, rfl, rfl, rfl, rfl⟩ ⟨rfl, rfl⟩ rfl)
    (fun s => resetBlock_eq_clear s ▸ clear_tablesCanonical _)
    (fun _ _ _ _ _ h => tablesCanonical_congr h ⟨rfl, rfl⟩ ⟨rfl, rfl, rfl, rfl, rfl⟩ ⟨rfl, rfl⟩ rfl)
    fun i _ _ h => bodyOf_tablesCanonical i h

end Sys2Proof.Proofs
end

section
/-! SUPPORT. What every command's rule keeps of the phases of a fresh block (R12), of the header cursor (R23, R24, R128) and of
`MAXLEN` (R22). -/

namespace Sys2Proof.Machine

open Sys2Proof.Safety

/-! ### Which command leads to which phase (R81) -/

/-- Where the table of R81 has a phase that only one command leads to, that command led there. -/
theorem FollowsTable.phase_mem {i : Instr} {s t : State} (h : FollowsTable i s t) (ht : t.phase ≠ .fault) :
    t.phase ∈ nextPhases i s.phase := h.resolve_right fun h => ht h.1

theorem eq_clr_of_next_idle {i : Instr} {p : Phase} (h : Phase.idle ∈ nextPhases i p) : i = .clr := by
  cases i <;> cases p <;> simp [nextPhases] at h ⊢

theorem eq_cnt_of_next_count {i : Instr} {p : Phase} (h : Phase.count ∈ nextPhases i p) : ∃ b, i = .cnt b := by
  cases i <;> cases p <;> simp [nextPhases] at h ⊢

theorem eq_rhb_of_next_hdr {i : Instr} {p : Phase} (h : Phase.hdr ∈ nextPhases i p) : ∃ b, i = .rhb b := by
  cases i <;> cases p <;> simp [nextPhases] at h ⊢

/-! ### The fresh phases -/

/-- In IDLE and in COUNT nothing but the counts has been written. -/
theorem eq_of_counting {s : State} (h : FreshPhases s) (hp : s.phase = .idle ∨ s.phase = .count) :
    s = { State.reset with input := s.input, out := s.out, phase := s.phase, nbytes := s.nbytes, freq := s.freq } := by
  rcases hp with hp | hp
  · have e := h.idle hp
    have hn : s.nbytes = 0 := congrArg State.nbytes e
    have hf : s.freq = [] := congrArg State.freq e
    rw [hn, hf, hp]
    exact e
  · rw [hp]
    exact h.count hp

theorem clear_freshPhases (s : State) : FreshPhases (clear s) := ⟨fun _ => rfl, nofun⟩

theorem freshPhases_of_ne {s : State} (hidle : s.phase ≠ .idle) (hcount : s.phase ≠ .count) : FreshPhases s :=
  ⟨fun h => absurd h hidle, fun h => absurd h hcount⟩

theorem cntBody_freshPhases (b : Byte) {s : State} (h : FreshPhases s) (hp : s.phase = .idle ∨ s.phase = .count) :
    FreshPhases (cntBody b s) := by
  unfold cntBody
  split
  · exact freshPhases_of_ne nofun nofun
  · rw [operandIndex_eq]
    exact ⟨nofun, fun _ => congrArg
      (fun u : State => { u with freq := tally s.freq b, nbytes := s.nbytes + 1, phase := .count }) (eq_of_counting h hp)⟩

theorem bodyOf_freshPhases {i : Instr} {s : State} (hinv : Inv s) (hl : legal i s.phase = true) :
    FreshPhases (bodyOf i s) := by
  have htable := bodyOf_followsTable hinv hl
  by_cases hclr : i = .clr
  · exact hclr ▸ clear_freshPhases s
  by_cases hcnt : ∃ b, i = .cnt b
  · obtain ⟨b, rfl⟩ := hcnt
    exact cntBody_freshPhases b hinv.fresh (legal_cnt_iff.1 hl)
  refine freshPhases_of_ne (fun h => hclr (eq_clr_of_next_idle (h ▸ htable.phase_mem ?_)))
    fun h => hcnt (eq_cnt_of_next_count (h ▸ htable.phase_mem ?_)) <;> rw [h] <;> decide

/-! ### `MAXLEN` -/

theorem maxLenRight_congr {s t : State} (h : MaxLenRight s) (hst : SameLengths s t) : MaxLenRight t := by
  obtain ⟨hlent, hmax⟩ := hst
  rw [MaxLenRight, hlent, hmax]
  exact h

theorem clear_maxLenRight (s : State) : MaxLenRight (clear s) := ⟨fun _ _ => le_rfl, fun h => absurd rfl h⟩

/-- R127: a running maximum is the maximum, where the entry written held 0. -/
theorem maxLenRight_of_tableSet {s t : State} {x : Nat} {b : Byte} (h : MaxLenRight s) (hx : x ≤ Config.endSym)
    (hzero : tableGet s.lent x = 0) (hlent : t.lent = tableSet s.lent x b) (hmax : t.maxlen = umax s.maxlen b) :
    MaxLenRight t := by
  obtain ⟨hle, hattained⟩ := h
  rw [MaxLenRight, hlent, hmax, umax_toNat]
  refine ⟨fun a ha => ?_, fun hne => ?_⟩
  · rw [tableGet_tableSet]
    split
    · exact le_max_right ..
    · exact (hle a ha).trans (le_max_left ..)
  · unfold umax at hne ⊢
    split
    · exact ⟨x, hx, tableGet_tableSet_self ..⟩
    next hnot =>
      rw [if_neg hnot] at hne
      obtain ⟨a, ha, hlen⟩ := hattained hne
      exact ⟨a, ha, by rw [tableGet_tableSet_ne _ _ fun e => hne (by rw [← hlen, e, hzero]), hlen]⟩

theorem umax_zero {w : Nat} (b : BitVec w) : umax 0 b = b :=
  BitVec.eq_of_toNat_eq (by rw [umax_toNat]; exact Nat.zero_max _)

/-! ### The header cursor -/

/-- Outside HDR only the bound of `HPOS` says anything. -/
theorem cursorHeld_of_ne_hdr {s : State} (hpos : s.hpos.toNat ≤ 515) (hp : s.phase ≠ .hdr) : CursorHeld s :=
  ⟨hpos, fun h => absurd h hp, fun h => absurd h hp, fun h => absurd h hp, fun h => absurd h hp, fun h => absurd h hp,
    fun h => absurd h hp, fun h => absurd h hp⟩

/-- R24, R128: while only the size is being read no length is held. -/
theorem cursorHeld_of_size {s : State} (hlow : 1 ≤ s.hpos.toNat) (hhigh : s.hpos.toNat ≤ 2) (hlent : s.lent = [])
    (hmax : s.maxlen = 0) (hsize : 2 ≤ s.hpos.toNat → 1 ≤ s.hsize.toNat ∧ s.hsize.toNat ≤ Config.nsym) : CursorHeld s where
  bounded := by omega
  started _ := hlow
  size _ := hsize
  inside _ h3 := by omega
  nothingYet _ _ := ⟨hlent, hmax⟩
  endLength _ h3 := by omega
  ascending _ x _ hx := absurd (by rw [hlent]; rfl) hx
  awaited _ _ h4 := by omega

/-- R12, R23: past its first byte the header is read in HDR. -/
theorem phase_hdr_of_hpos {s : State} (hinv : Inv s) (hp : s.phase = .idle ∨ s.phase = .hdr) (hpos : s.hpos.toNat ≠ 0) :
    s.phase = .hdr := by
  refine hp.resolve_left fun hidle => hpos ?_
  rw [hinv.fresh.idle hidle]
  rfl

/-- R12, R23: at its first byte no length has been read. -/
theorem phase_idle_of_hpos {s : State} (hinv : Inv s) (hp : s.phase = .idle ∨ s.phase = .hdr) (hpos : s.hpos.toNat = 0) :
    s.phase = .idle := by
  refine hp.resolve_right fun hhdr => ?_
  have := hinv.cursor.started hhdr
  omega

/-- R127: a symbol byte awaits its length, and has none. -/
theorem awaited_zero {s : State} (h : CursorHeld s) (hp : s.phase = .hdr) (heven : s.hpos.toNat % 2 = 0) :
    tableGet s.lent s.hsym.toNat = 0 := by
  by_contra hne
  obtain ⟨hpos, hle⟩ := h.ascending hp _ s.hsym.isLt hne
  exact (h.awaited hp heven hpos).not_ge hle

section Header

variable (b : Byte) {s : State} (h : CursorHeld s)
include h

theorem rhbSizeLow_cursorHeld (hp : s.phase = .hdr) (hpos : s.hpos.toNat = 1) : CursorHeld (rhbSizeLow b s) := by
  obtain ⟨hlent, hmax⟩ := h.nothingYet hp (by omega)
  unfold rhbSizeLow
  split
  next => exact cursorHeld_of_ne_hdr h.bounded nofun
  next hsize =>
    rw [not_or] at hsize
    have hne : (sizeWithLow b s).toNat ≠ 0 := fun e => hsize.1 (BitVec.eq_of_toNat_eq e)
    exact cursorHeld_of_size (show 1 ≤ (2 : BitVec 10).toNat by decide) (show (2 : BitVec 10).toNat ≤ 2 by decide) hlent hmax
      fun _ => ⟨Nat.one_le_iff_ne_zero.2 hne, Nat.le_of_not_lt hsize.2⟩

theorem rhbEndLength_cursorHeld (hp : s.phase = .hdr) (hpos : s.hpos.toNat = 2) : CursorHeld (rhbEndLength b s) := by
  obtain ⟨hlent, -⟩ := h.nothingYet hp (by omega)
  have hsize := h.size hp (by omega)
  by_cases hb : b = 0
  · subst hb
    rw [rhbEndLength_zero]
    exact cursorHeld_of_ne_hdr h.bounded nofun
  rw [rhbEndLength_of_ne_zero hb]
  by_cases hone : s.hsize.toNat = 1
  · exact cursorHeld_of_ne_hdr (show (3 : BitVec 10).toNat ≤ 515 by decide) (by simp [hone])
  exact {
    bounded := show (3 : BitVec 10).toNat ≤ 515 by decide
    started := fun _ => show 1 ≤ (3 : BitVec 10).toNat by decide
    size := fun _ _ => hsize
    inside := fun _ _ => show 3 < 3 + 2 * (s.hsize.toNat - 1) by omega
    nothingYet := fun _ h2 => absurd h2 (show ¬ (3 : BitVec 10).toNat ≤ 2 by decide)
    endLength := fun _ _ => by rw [tableGet_tableSet_self]; exact hb
    ascending := fun _ x hx hne => absurd (by rw [tableGet_tableSet_ne _ _ hx.ne, hlent]; rfl) hne
    awaited := fun _ _ h4 => absurd h4 (show ¬ 4 < (3 : BitVec 10).toNat by decide) }

theorem rhbSymbol_cursorHeld (hp : s.phase = .hdr) (hpos : 3 ≤ s.hpos.toNat) (hodd : s.hpos.toNat % 2 = 1) :
    CursorHeld (rhbSymbol b s) := by
  by_cases hlow : 3 < s.hpos.toNat ∧ b.toNat ≤ s.hprev.toNat
  · rw [rhbSymbol_of_not_above hlow]
    exact cursorHeld_of_ne_hdr h.bounded nofun
  rw [rhbSymbol_of_above hlow]
  have hsize := h.size hp (by omega)
  have hinside := h.inside hp hpos
  simp only [Config.nsym] at hsize
  have hnext : (s.hpos + 1).toNat = s.hpos.toNat + 1 :=
    BitVec.toNat_add_of_lt (show s.hpos.toNat + 1 < 2 ^ 10 by omega)
  exact {
    bounded := by simp only [hnext]; omega
    started := fun _ => by simp only [hnext]; omega
    size := fun _ _ => hsize
    inside := fun _ _ => by simp only [hnext]; omega
    nothingYet := fun _ h2 => by simp only [hnext] at h2; omega
    endLength := fun _ _ => h.endLength hp hpos
    ascending := fun _ x hx hne => by
      obtain ⟨hlt, hle⟩ := h.ascending hp x hx hne
      exact ⟨by simp only [hnext]; omega, hle⟩
    awaited := fun _ _ h4 => by simp only [hnext] at h4 ⊢; omega }

theorem rhbLength_cursorHeld (hp : s.phase = .hdr) (hpos : 4 ≤ s.hpos.toNat) (heven : s.hpos.toNat % 2 = 0) :
    CursorHeld (rhbLength b s) := by
  by_cases hb : b = 0
  · subst hb
    rw [rhbLength_zero]
    exact cursorHeld_of_ne_hdr h.bounded nofun
  rw [rhbLength_of_ne_zero hb heven]
  have hsize := h.size hp (by omega)
  have hinside := h.inside hp (by omega)
  simp only [Config.nsym] at hsize
  have hnext := hpos_add_one_toNat heven
  by_cases hlast : s.hpos.toNat + 1 = 3 + 2 * (s.hsize.toNat - 1)
  · exact cursorHeld_of_ne_hdr (by simp only [hnext]; omega) (by simp [hlast])
  exact {
    bounded := by simp only [hnext]; omega
    started := fun _ => by simp only [hnext]; omega
    size := fun _ _ => hsize
    inside := fun _ _ => by simp only [hnext]; omega
    nothingYet := fun _ h2 => by simp only [hnext] at h2; omega
    endLength := fun _ _ => by
      rw [tableGet_tableSet_ne _ _ (show s.hsym.toNat < Config.endSym from s.hsym.isLt).ne']
      exact h.endLength hp (by omega)
    ascending := fun _ x hx hne => by
      refine ⟨by simp only [hnext]; omega, ?_⟩
      by_cases hxs : x = s.hsym.toNat
      · exact hxs.le
      · rw [tableGet_tableSet_ne _ _ hxs] at hne
        obtain ⟨hlt, hle⟩ := h.ascending hp x hx hne
        exact hle.trans (h.awaited hp heven hlt).le
    awaited := fun _ hodd => by simp only [hnext] at hodd; omega }

end Header

theorem rhbBody_cursorHeld (b : Byte) {s : State} (hinv : Inv s) (hp : s.phase = .idle ∨ s.phase = .hdr) :
    CursorHeld (rhbBody b s) := by
  rcases rhbBody_cases b s with ⟨hpos, e⟩ | ⟨hpos, e⟩ | ⟨hpos, e⟩ | ⟨hpos, hodd, e⟩ | ⟨hpos, heven, e⟩ <;> rw [e]
  · have hfresh := hinv.fresh.idle (phase_idle_of_hpos hinv hp hpos)
    have hlent : s.lent = [] := congrArg State.lent hfresh
    exact cursorHeld_of_size (show 1 ≤ (1 : BitVec 10).toNat by decide) (show (1 : BitVec 10).toNat ≤ 2 by decide) hlent
      (congrArg State.maxlen hfresh) fun h2 => absurd h2 (show ¬ 2 ≤ (1 : BitVec 10).toNat by decide)
  · exact rhbSizeLow_cursorHeld b hinv.cursor (phase_hdr_of_hpos hinv hp (by omega)) hpos
  · exact rhbEndLength_cursorHeld b hinv.cursor (phase_hdr_of_hpos hinv hp (by omega)) hpos
  · exact rhbSymbol_cursorHeld b hinv.cursor (phase_hdr_of_hpos hinv hp (by omega)) hpos hodd
  · exact rhbLength_cursorHeld b hinv.cursor (phase_hdr_of_hpos hinv hp (by omega)) hpos heven

theorem bodyOf_cursorHeld {i : Instr} {s : State} (hinv : Inv s) (hl : legal i s.phase = true) : CursorHeld (bodyOf i s) := by
  by_cases hclr : i = .clr
  · subst hclr
    exact cursorHeld_of_ne_hdr (s := clear s) (Nat.zero_le _) nofun
  by_cases hrhb : ∃ b, i = .rhb b
  · obtain ⟨b, rfl⟩ := hrhb
    exact rhbBody_cursorHeld b hinv (legal_rhb_iff.1 hl)
  obtain ⟨hpos, -⟩ := (bodyOf_writesOwn i s).sameCursor hclr (not_exists.1 hrhb)
  refine cursorHeld_of_ne_hdr (by rw [hpos]; exact hinv.cursor.bounded) fun h => ?_
  exact hrhb (eq_rhb_of_next_hdr (h ▸ (bodyOf_followsTable hinv hl).phase_mem (by rw [h]; decide)))

/-- R22: `RHB` keeps `MAXLEN` the maximum, for a length byte writes an entry that held 0. -/
theorem rhbBody_maxLenRight (b : Byte) {s : State} (hinv : Inv s) (hp : s.phase = .idle ∨ s.phase = .hdr) :
    MaxLenRight (rhbBody b s) := by
  rcases rhbBody_cases b s with ⟨-, e⟩ | ⟨-, e⟩ | ⟨hpos, e⟩ | ⟨-, -, e⟩ | ⟨hpos, heven, e⟩ <;> rw [e]
  · exact hinv.maxlen
  · unfold rhbSizeLow
    split <;> exact hinv.maxlen
  · obtain ⟨hlent, hmax⟩ := hinv.cursor.nothingYet (phase_hdr_of_hpos hinv hp (by omega)) (by omega)
    unfold rhbEndLength
    split
    · exact hinv.maxlen
    · exact maxLenRight_of_tableSet hinv.maxlen le_rfl (by rw [hlent]; rfl) rfl (by rw [hmax, umax_zero])
  · unfold rhbSymbol
    split <;> exact hinv.maxlen
  · have hzero := awaited_zero hinv.cursor (phase_hdr_of_hpos hinv hp (by omega)) heven
    unfold rhbLength
    split
    · exact hinv.maxlen
    · rw [operandIndex_eq]
      exact maxLenRight_of_tableSet hinv.maxlen (show s.hsym.toNat < Config.endSym from s.hsym.isLt).le hzero rfl rfl

theorem lenBody_maxLenRight {s : State} (h : MaxLenRight s) : MaxLenRight (lenBody s) := by
  unfold lenBody
  split
  · exact h
  · exact maxLenRight_of_maxLength (by dsimp only)

theorem bodyOf_maxLenRight {i : Instr} {s : State} (hinv : Inv s) (hl : legal i s.phase = true) :
    MaxLenRight (bodyOf i s) := by
  cases i with
  | clr => exact clear_maxLenRight s
  | len => exact lenBody_maxLenRight hinv.maxlen
  | rhb b => exact rhbBody_maxLenRight b hinv (legal_rhb_iff.1 hl)
  | cnt | bld | asg | whd | pkb | pke | tri | dcb | eoi =>
    exact maxLenRight_congr hinv.maxlen ((bodyOf_writesOwn _ s).sameLengths nofun nofun nofun)

end Sys2Proof.Machine
end

section
/-! SUPPORT. What every command's rule keeps: all the invariants that hold in every phase. -/

namespace Sys2Proof.Machine

open Sys2Proof.Safety

theorem clear_inv (s : State) : Inv (clear s) where
  latch := clear_faultLatch s
  counts := clear_countsAgree s
  acc := accHeld_of_zero rfl rfl
  walk := walkHeld_of_start rfl rfl
  trie := ⟨rfl, nofun, Nat.zero_le _⟩
  tables := clear_tablesCanonical s
  fresh := clear_freshPhases s
  cursor := cursorHeld_of_ne_hdr (Nat.zero_le _) nofun
  maxlen := clear_maxLenRight s

/-- What is presented plays no part. -/
theorem inv_with_input {s : State} (h : Inv s) (l : List Input) : Inv { s with input := l } where
  latch := ⟨h.latch.errIff, h.latch.errcmdZero⟩
  counts := countsAgree_congr h.counts ⟨rfl, rfl⟩
  acc := accHeld_congr h.acc ⟨rfl, rfl⟩
  walk := ⟨h.walk.low, h.walk.high, h.walk.startOnly, h.walk.within⟩
  trie := trieCanonical_congr h.trie rfl
  tables := tablesCanonical_congr h.tables ⟨rfl, rfl⟩ ⟨rfl, rfl, rfl, rfl, rfl⟩ ⟨rfl, rfl⟩ rfl
  fresh := ⟨fun hp => congrArg (fun u : State => { u with input := l }) (h.fresh.idle hp),
    fun hp => congrArg (fun u : State => { u with input := l }) (h.fresh.count hp)⟩
  cursor := ⟨h.cursor.bounded, h.cursor.started, h.cursor.size, h.cursor.inside, h.cursor.nothingYet, h.cursor.endLength,
    h.cursor.ascending, h.cursor.awaited⟩
  maxlen := h.maxlen

theorem raise_inv {s : State} (h : Inv s) {f : Err} (hf : f ≠ .noFault) (w : Word) : Inv (raise f w s) where
  latch := raise_faultLatch hf w s
  counts := countsAgree_congr h.counts ⟨rfl, rfl⟩
  acc := accHeld_congr h.acc ⟨rfl, rfl⟩
  walk := walkHeld_congr h.walk ⟨rfl, rfl⟩ nofun
  trie := trieCanonical_congr h.trie rfl
  tables := tablesCanonical_congr h.tables ⟨rfl, rfl⟩ ⟨rfl, rfl, rfl, rfl, rfl⟩ ⟨rfl, rfl⟩ rfl
  fresh := freshPhases_of_ne nofun nofun
  cursor := cursorHeld_of_ne_hdr h.cursor.bounded nofun
  maxlen := h.maxlen

theorem bodyOf_inv {i : Instr} {s : State} (hl : legal i s.phase = true) (h : Inv s) : Inv (bodyOf i s) where
  latch := bodyOf_faultLatch hl h.latch
  counts := bodyOf_countsAgree i h.counts
  acc := bodyOf_accHeld i h.acc
  walk := bodyOf_walkHeld hl h.walk
  trie := bodyOf_trieCanonical i h.trie
  tables := bodyOf_tablesCanonical i h.tables
  fresh := bodyOf_freshPhases h hl
  cursor := bodyOf_cursorHeld h hl
  maxlen := bodyOf_maxLenRight h hl

end Sys2Proof.Machine
end

section
/-! The statement of 10_state.md on the invariants of every phase, settled. -/

namespace Sys2Proof.Proofs

open Sys2Proof.Machine Sys2Proof.Safety

/-- Settles O50: each part is kept by every command's rule where it is legal; `PHASE` follows the table of R81, so only `CLR`,
`CNT` and `RHB` end in the phases that say more. -/
theorem stepKeepsInv : Obligations.StepKeepsInv := fun _ _ =>
  step_keeps (P := Inv) (fun _ l h => inv_with_input h l) (fun s => resetBlock_eq_clear s ▸ clear_inv _)
    (fun _ w _ hf _ h => raise_inv h hf w) fun _ _ hl h => bodyOf_inv hl h

end Sys2Proof.Proofs
end

section
/-! SUPPORT. What the walk of `LEN` lists of a tree of the shape that `BLD` builds (R110, R111): every leaf with its depth, once. -/

namespace Sys2Proof.Machine

open Sys2Proof.Safety

/-- On the way down to a node every smaller depth is passed. -/
theorem exists_atDepth_of_le {s : State} {x d e : Nat} (h : AtDepth s x d) (he : e ≤ d) : ∃ n, AtDepth s n e := by
  induction h with
  | root =>
    obtain rfl := Nat.le_zero.1 he
    exact ⟨_, AtDepth.root⟩
  | left hn hint ih =>
    rcases Nat.le_succ_iff.1 he with he | rfl
    · exact ih he
    · exact ⟨_, .left hn hint⟩
  | right hn hint ih =>
    rcases Nat.le_succ_iff.1 he with he | rfl
    · exact ih he
    · exact ⟨_, .right hn hint⟩

/-- R101: the identifiers fall on the way down, so below every node there is a leaf. -/
theorem exists_leaf_below {s : State} (ht : TreeShaped s) {n d : Nat} (h : AtDepth s n d) :
    ∃ x e, x ≤ Config.endSym ∧ AtDepth s x e ∧ d ≤ e := by
  induction n using Nat.strong_induction_on generalizing d with
  | _ n ih =>
    rcases Nat.lt_or_ge Config.endSym n with hint | hleaf
    · obtain ⟨x, e, hx, hxe, hle⟩ := ih _ (ht.childrenSmaller n d h hint).1 (.left h hint)
      exact ⟨x, e, hx, hxe, Nat.le_of_succ_le hle⟩
    · exact ⟨n, d, hleaf, h, le_rfl⟩

/-- What the walk lists below a node lies below it. -/
theorem below_of_mem_leafDepths {s : State} {fuel n : Nat} {p : Nat × Nat} (hp : p ∈ leafDepths s.nodeL s.nodeR fuel n) :
    Below s n p.1 := by
  induction fuel generalizing n with
  | zero => exact List.mem_singleton.1 hp ▸ .here
  | succ fuel ih =>
    rcases Nat.lt_or_ge Config.endSym n with hint | hleaf
    · rw [leafDepths_of_internal hint] at hp
      rcases List.mem_append.1 hp with hp | hp
      · exact .left hint (ih hp)
      · exact .right hint (ih hp)
    · rw [leafDepths_of_leaf hleaf] at hp
      exact List.mem_singleton.1 hp ▸ .here

/-- Where no depth is above 255, the depths fill the code space below the node (R20). -/
theorem sum_pow_leafDepths {left right : Table 10} {fuel n : Nat} (hfuel : fuel ≤ walkLimit)
    (hfit : ∀ p ∈ leafDepths left right fuel n, p.2 ≤ Config.lmax) :
    1 ≤ fuel ∧ ((leafDepths left right fuel n).map fun p => 2 ^ (Config.lmax - p.2)).sum = 2 ^ (fuel - 1) := by
  have hlimit : walkLimit = Config.lmax + 1 := rfl
  induction fuel generalizing n with
  | zero => exact absurd (hfit (n, walkLimit) (List.mem_singleton_self _)) (Nat.not_succ_le_self _)
  | succ fuel ih =>
    refine ⟨Nat.succ_pos fuel, ?_⟩
    rcases Nat.lt_or_ge Config.endSym n with hint | hleaf
    · rw [leafDepths_of_internal hint] at hfit ⊢
      obtain ⟨hleft, hright⟩ := List.forall_mem_append.1 hfit
      obtain ⟨hpos, hl⟩ := ih (Nat.le_of_succ_le hfuel) hleft
      obtain ⟨-, hr⟩ := ih (Nat.le_of_succ_le hfuel) hright
      rw [List.map_append, List.sum_append, hl, hr, ← two_mul, ← pow_succ', Nat.sub_add_cancel hpos, Nat.add_sub_cancel]
    · rw [leafDepths_of_leaf hleaf, List.map_singleton, List.sum_singleton]
      congr 1
      omega

section Listed

variable {s : State} (hroot : s.root.toNat ≠ Config.endSym)
include hroot

theorem atDepth_of_mem_codewordLengths {p : Nat × Nat} (hp : p ∈ codewordLengths s) : AtDepth s p.1 p.2 := by
  rw [codewordLengths, if_neg hroot] at hp
  exact atDepth_of_mem_leafDepths (Nat.zero_add _) .root hp

/-- R111: a leaf below depth 255 makes the walk list the node at depth 256 above it. -/
theorem exists_overlong_of_deep {x d : Nat} (h : AtDepth s x d) (hdeep : Config.lmax < d) :
    ∃ p ∈ codewordLengths s, Config.lmax < p.2 := by
  obtain ⟨n, hn⟩ := exists_atDepth_of_le h (Nat.succ_le_of_lt hdeep)
  refine ⟨(n, walkLimit), ?_, Nat.lt_succ_self _⟩
  rw [codewordLengths, if_neg hroot]
  exact leafDepths_subset_of_atDepth hn (fuel := 0) (Nat.add_zero _) (List.mem_singleton_self _)

/-- Where no leaf is below depth 255, no length listed is above it. -/
theorem codewordLengths_fit (ht : TreeShaped s) (h : ∀ x d, x ≤ Config.endSym → AtDepth s x d → d ≤ Config.lmax) :
    ∀ p ∈ codewordLengths s, p.2 ≤ Config.lmax := fun _ hp => by
  obtain ⟨x, e, hx, hxe, hle⟩ := exists_leaf_below ht (atDepth_of_mem_codewordLengths hroot hp)
  exact hle.trans (h x e hx hxe)

variable (hfit : ∀ p ∈ codewordLengths s, p.2 ≤ Config.lmax)
include hfit

/-- R111: then the walk lists the leaves with their depths. -/
theorem mem_codewordLengths_iff {x d : Nat} : (x, d) ∈ codewordLengths s ↔ x ≤ Config.endSym ∧ AtDepth s x d := by
  refine ⟨fun h => ⟨codewordLengths_symbol h (hfit _ h), atDepth_of_mem_codewordLengths hroot h⟩, fun ⟨hx, h⟩ => ?_⟩
  have hd : d ≤ Config.lmax := by
    by_contra hdeep
    obtain ⟨p, hp, hlt⟩ := exists_overlong_of_deep hroot h (Nat.lt_of_not_le hdeep)
    exact (hfit p hp).not_gt hlt
  have hsub := leafDepths_subset_of_atDepth h (fuel := Config.lmax - d + 1)
    (by rw [show walkLimit = Config.lmax + 1 from rfl]; omega)
  rw [codewordLengths, if_neg hroot]
  refine hsub ?_
  rw [leafDepths_of_leaf hx, List.mem_singleton, show walkLimit = Config.lmax + 1 from rfl]
  congr 1
  omega

/-- R110: a leaf's length is its depth. -/
theorem length_of_atDepth (ht : TreeShaped s) {x d : Nat} (hx : x ≤ Config.endSym) (h : AtDepth s x d) :
    (tableGet (lengthTable (codewordLengths s)) x).toNat = d := by
  have hmem := (mem_codewordLengths_iff hroot hfit).2 ⟨hx, h⟩
  have hunique : ∀ p ∈ codewordLengths s, p.1 = x → p.2 = d := fun p hp e =>
    ht.oneDepth x p.2 d (e ▸ atDepth_of_mem_codewordLengths hroot hp) h
  rw [lengthTable_of_mem hmem hunique]
  exact Nat.mod_eq_of_lt (Nat.lt_succ_of_le (hfit _ hmem))

omit hfit in
/-- R110: a symbol that is no leaf of the tree has length 0. -/
theorem length_of_not_reached {x : Nat} (h : ∀ d, ¬ AtDepth s x d) : tableGet (lengthTable (codewordLengths s)) x = 0 :=
  lengthTable_of_not_mem fun p hp e => h p.2 (e ▸ atDepth_of_mem_codewordLengths hroot hp)

omit hfit in
/-- R107 (c): the walk lists no leaf twice. -/
theorem codewordLengths_nodup (h : TreeOk s) : ((codewordLengths s).map Prod.fst).Nodup := by
  have key : ∀ {fuel n d : Nat}, AtDepth s n d → ((leafDepths s.nodeL s.nodeR fuel n).map Prod.fst).Nodup := by
    intro fuel
    induction fuel with
    | zero => exact fun _ => List.nodup_singleton _
    | succ fuel ih =>
      intro n d hn
      rcases Nat.lt_or_ge Config.endSym n with hint | hleaf
      · rw [leafDepths_of_internal hint, List.map_append, List.nodup_append]
        refine ⟨ih (.left hn hint), ih (.right hn hint), fun x hx y hy e => ?_⟩
        obtain ⟨p, hp, rfl⟩ := List.mem_map.1 hx
        obtain ⟨q, hq, rfl⟩ := List.mem_map.1 hy
        exact h.disjoint n d p.1 hn hint ⟨below_of_mem_leafDepths hp, e ▸ below_of_mem_leafDepths hq⟩
      · rw [leafDepths_of_leaf hleaf]
        exact List.nodup_singleton _
  rw [codewordLengths, if_neg hroot]
  exact key .root

end Listed

/-- R110, R111: `LEN` where a leaf is deeper than 255. -/
theorem exec_len_of_overlong {s : State} (hp : s.phase = .tree) (h : ∃ p ∈ codewordLengths s, Config.lmax < p.2) :
    exec .len s = .next (raise .lengthOverflow (encodeWord .len) s) := by
  have hany : ((codewordLengths s).any fun p => decide (Config.lmax < p.2)) = true := by simpa using h
  rw [exec_of_legal (by rw [hp]; rfl), bodyOf, lenBody, if_pos hany]

/-! ### The lengths of a tree that `BLD` built -/

/-- R19: with no real symbol the tree is the END leaf alone. -/
theorem root_eq_end_iff {s : State} (h : TreeOk s) : s.root.toNat = Config.endSym ↔ presentSymbols s.freq = [] := by
  rw [h.rootIs, Nat.add_eq_left, List.length_eq_zero_iff]

/-- What LENS and the phases of the encode flow after it hold of the lengths (R20, R32). -/
def EncodeLengths (s : State) (lent : Table 8) : Prop :=
  (∀ x, x ≤ Config.endSym → (tableGet lent x ≠ 0 ↔ IsLeafSymbol s x)) ∧ kraftSum lent ≤ kraftOne
    ∧ (presentSymbols s.freq ≠ [] → kraftSum lent = kraftOne)

/-- R20, R110: the leaves and no other symbols have lengths, and with two or more leaves these satisfy Kraft with equality. -/
theorem encodeLengths_of_treeOk {s : State} (h : TreeOk s) (hfit : ∀ p ∈ codewordLengths s, p.2 ≤ Config.lmax) :
    EncodeLengths s (lengthTable (codewordLengths s)) := by
  by_cases hempty : presentSymbols s.freq = []
  · have hlengths := huffmanLengths_of_empty hempty
    rw [codewordLengths_of_end ((root_eq_end_iff h).2 hempty)]
    exact ⟨fun x _ => hlengths.coded x, hlengths.kraft, fun hne => absurd hempty hne⟩
  have hroot : s.root.toNat ≠ Config.endSym := mt (root_eq_end_iff h).1 hempty
  have hdepth {x d : Nat} (hx : x ≤ Config.endSym) (hd : AtDepth s x d) := length_of_atDepth hroot hfit h.shaped hx hd
  have hcoded (x : Nat) : tableGet (lengthTable (codewordLengths s)) x ≠ 0 ↔ IsLeafSymbol s x := by
    constructor
    · intro hne
      by_contra hnot
      refine hne (lengthTable_of_not_mem fun p hp e => hnot ?_)
      obtain ⟨hx, hd⟩ := (mem_codewordLengths_iff hroot hfit).1 hp
      exact e ▸ (h.leaves p.1 hx).1 ⟨p.2, hd⟩
    · intro hleaf hzero
      have hx := isLeafSymbol_le hleaf
      obtain ⟨d, hd⟩ := (h.leaves x hx).2 hleaf
      obtain rfl : 0 = d := by rw [← hdepth hx hd, hzero]; rfl
      have hend := h.rootIs
      cases hd
      exact hroot (by omega)
  have hkraft : kraftSum (lengthTable (codewordLengths s)) = kraftOne := by
    have hleaves : (leafSymbols s).toFinset = ((codewordLengths s).map Prod.fst).toFinset := by
      ext x
      rw [List.mem_toFinset, List.mem_toFinset, mem_leafSymbols, List.mem_map]
      constructor
      · intro hleaf
        have hx := isLeafSymbol_le hleaf
        obtain ⟨d, hd⟩ := (h.leaves x hx).2 hleaf
        exact ⟨(x, d), (mem_codewordLengths_iff hroot hfit).2 ⟨hx, hd⟩, rfl⟩
      · rintro ⟨p, hp, rfl⟩
        obtain ⟨hx, hd⟩ := (mem_codewordLengths_iff hroot hfit).1 hp
        exact (h.leaves p.1 hx).1 ⟨p.2, hd⟩
    have hterm : ∀ p ∈ codewordLengths s,
        2 ^ (Config.lmax - (tableGet (lengthTable (codewordLengths s)) p.1).toNat) = 2 ^ (Config.lmax - p.2) := fun p hp => by
      obtain ⟨hx, hd⟩ := (mem_codewordLengths_iff hroot hfit).1 hp
      rw [hdepth hx hd]
    rw [kraftSum_eq_sum_leaves hcoded, hleaves, List.sum_toFinset _ (codewordLengths_nodup hroot h), List.map_map]
    refine (congrArg List.sum (List.map_congr_left hterm)).trans ?_
    rw [codewordLengths, if_neg hroot] at hfit ⊢
    exact (sum_pow_leafDepths le_rfl hfit).2
  exact ⟨fun x _ => hcoded x, hkraft.le, fun _ => hkraft⟩

end Sys2Proof.Machine
end

section
/-! SUPPORT. The queue of R102 is the same for two blocks that counted the same (R107 (e)), whatever else their node memories
hold. -/

namespace Sys2Proof.Machine

open Sys2Proof.Safety

/-- The queue has one first node. -/
theorem firstInQueue_unique {s t : State} {k x y : Nat} {gone : List Nat} (hx : FirstInQueue s t k gone x)
    (hy : FirstInQueue s t k gone y) : x = y := by
  by_contra hne
  exact before_asymm (hx.2.2 y hy.1 hy.2.1 (Ne.symm hne)) (hy.2.2 x hx.1 hx.2.1 hne)

/-- Two node memories agree on the leaves of `s` and on the `k` internal nodes made first. -/
structure SameBuilt (s t t' : State) (k : Nat) : Prop where
  leaf : ∀ x, IsLeafSymbol s x → tableGet t.nodeWt x = tableGet t'.nodeWt x
  left : ∀ j < k, tableGet t.nodeL (Config.firstInternal + j) = tableGet t'.nodeL (Config.firstInternal + j)
  right : ∀ j < k, tableGet t.nodeR (Config.firstInternal + j) = tableGet t'.nodeR (Config.firstInternal + j)
  weight : ∀ j < k, tableGet t.nodeWt (Config.firstInternal + j) = tableGet t'.nodeWt (Config.firstInternal + j)

section

variable {s s' t t' : State} {k : Nat} (hleaf : ∀ x, IsLeafSymbol s x ↔ IsLeafSymbol s' x) (h : SameBuilt s t t' k)
include hleaf h

theorem inQueue_iff_of_sameBuilt {x : Nat} : InQueue s t k x ↔ InQueue s' t' k x := by
  rw [InQueue, InQueue, hleaf]
  refine and_congr_right' (forall₂_congr fun j hj => ?_)
  rw [h.left j hj, h.right j hj]

omit hleaf in
theorem weight_of_inQueue {x : Nat} (hx : InQueue s t k x) : tableGet t.nodeWt x = tableGet t'.nodeWt x := by
  rcases hx.1 with hx | ⟨hlow, hhigh⟩
  · exact h.leaf x hx
  · obtain ⟨j, rfl⟩ := Nat.exists_eq_add_of_le hlow
    exact h.weight j (Nat.lt_of_add_lt_add_left hhigh)

theorem firstInQueue_of_sameBuilt {x : Nat} {gone : List Nat} (hx : FirstInQueue s t k gone x) :
    FirstInQueue s' t' k gone x := by
  obtain ⟨hin, hgone, hfirst⟩ := hx
  refine ⟨(inQueue_iff_of_sameBuilt hleaf h).1 hin, hgone, fun y hy hyg hne => ?_⟩
  have hyt := (inQueue_iff_of_sameBuilt hleaf h).2 hy
  rw [Before, ← weight_of_inQueue h hin, ← weight_of_inQueue h hyt]
  exact hfirst y hyt hyg hne

/-- R103: then the next merge is the same too. -/
theorem sameBuilt_succ (hm : MergedAt s t k) (hm' : MergedAt s' t' k) : SameBuilt s t t' (k + 1) := by
  obtain ⟨hl, hr, hw⟩ := hm
  obtain ⟨hl', hr', hw'⟩ := hm'
  have hleft := BitVec.eq_of_toNat_eq (firstInQueue_unique (firstInQueue_of_sameBuilt hleaf h hl) hl')
  have hr₁ := firstInQueue_of_sameBuilt hleaf h hr
  rw [hleft] at hr₁
  have hright := BitVec.eq_of_toNat_eq (firstInQueue_unique hr₁ hr')
  have hweight : tableGet t.nodeWt (Config.firstInternal + k) = tableGet t'.nodeWt (Config.firstInternal + k) := by
    rw [hw, hw', weight_of_inQueue h hl.1, weight_of_inQueue h hr.1, hleft, hright]
  exact ⟨h.leaf, Nat.forall_lt_succ_right.2 ⟨h.left, hleft⟩, Nat.forall_lt_succ_right.2 ⟨h.right, hright⟩,
    Nat.forall_lt_succ_right.2 ⟨h.weight, hweight⟩⟩

end

section

variable {s s' : State} (hfreq : ∀ x, tableGet s.freq x = tableGet s'.freq x)
include hfreq

theorem presentSymbols_congr : presentSymbols s.freq = presentSymbols s'.freq :=
  List.filter_congr fun x _ => by rw [hfreq]

theorem isLeafSymbol_congr (x : Nat) : IsLeafSymbol s x ↔ IsLeafSymbol s' x := by rw [IsLeafSymbol, IsLeafSymbol, hfreq]

/-- R107 (e): the merges are determined one after the other. -/
theorem bldTree_sameBuilt {k : Nat} (hk : k ≤ (presentSymbols s.freq).length) :
    SameBuilt s (bldTree s) (bldTree s') k := by
  induction k with
  | zero =>
    refine ⟨fun x hx => ?_, nofun, nofun, nofun⟩
    have hwt : tableGet (bldTree s).nodeWt x = leafWeight s x := (mergeAll_inv s).leaves x hx
    have hwt' : tableGet (bldTree s').nodeWt x = leafWeight s' x :=
      (mergeAll_inv s').leaves x ((isLeafSymbol_congr hfreq x).1 hx)
    rw [hwt, hwt', leafWeight, leafWeight, hfreq]
  | succ k ih =>
    exact sameBuilt_succ (isLeafSymbol_congr hfreq) (ih (Nat.le_of_succ_le hk)) (bldTree_mergedAt s hk)
      (bldTree_mergedAt s' (presentSymbols_congr hfreq ▸ hk))

end

end Sys2Proof.Machine
end

section
/-! The statements of 42_tree_builder.md on what the tree depends on and of 43_canonicalizer.md on the lengths, settled. -/

namespace Sys2Proof.Proofs

open Sys2Proof.Machine Sys2Proof.Safety

/-- Settles O25: the first two of the queue are determined by the merges before, and the leaves by `FREQ`. -/
theorem treeDependsOnFreqOnly : Obligations.TreeDependsOnFreqOnly := by
  intro s s' hp hp' hfreq
  have hpresent := presentSymbols_congr hfreq
  by_cases hempty : presentSymbols s.freq = []
  · refine ⟨_, _, exec_bld_of_empty hp hempty, exec_bld_of_empty hp' (hpresent ▸ hempty), rfl, rfl, fun x hx => ?_,
      fun x hlow hhigh => absurd (hlow.trans hhigh) (by decide : ¬ Config.firstInternal ≤ Config.endSym)⟩
    obtain rfl : x = Config.endSym := hx.elim (isLeafSymbol_iff_of_empty hempty).1 fun h =>
      absurd (h.1.trans h.2) (by decide : ¬ Config.firstInternal ≤ Config.endSym)
    rw [bldEndOnly_root_weight, bldEndOnly_root_weight]
  · have hempty' : presentSymbols s'.freq ≠ [] := hpresent ▸ hempty
    have hsame := bldTree_sameBuilt hfreq le_rfl
    have hroot := bldTree_root hempty
    have hroot' := bldTree_root hempty'
    have hmade : ∀ x, Config.firstInternal ≤ x → x ≤ (bldTree s).root.toNat →
        ∃ j < (presentSymbols s.freq).length, x = Config.firstInternal + j := fun x hlow hhigh => by
      obtain ⟨j, rfl⟩ := Nat.exists_eq_add_of_le hlow
      refine ⟨j, ?_, rfl⟩
      simp only [Config.firstInternal, Config.endSym] at *
      omega
    refine ⟨_, _, exec_bld_of_present hp hempty, exec_bld_of_present hp' hempty', BitVec.eq_of_toNat_eq ?root,
      BitVec.eq_of_toNat_eq ?nint, fun x hx => ?weights, fun x hlow hhigh => ?children⟩
    case root => rw [hroot, hroot', hpresent]
    case nint => rw [bldTree_nint, bldTree_nint, hpresent]
    case weights =>
      rcases hx with hx | ⟨hlow, hhigh⟩
      · exact hsame.leaf x hx
      · obtain ⟨j, hj, rfl⟩ := hmade x hlow hhigh
        exact hsame.weight j hj
    case children =>
      obtain ⟨j, hj, rfl⟩ := hmade x hlow hhigh
      exact ⟨hsame.left j hj, hsame.right j hj⟩

/-- Settles O26: the walk passes every node down to depth 256, so it finds a leaf deeper than 255, and where there is none it
lists the leaves with their depths. -/
theorem lenTakesLeafDepths : Obligations.LenTakesLeafDepths := by
  refine ⟨⟨rfl, fun p => decide_eq_true_iff⟩, fun s hp hroot ht => ⟨fun ⟨x, d, _, h, hdeep⟩ => ?overflow, fun h => ?completes⟩⟩
  case overflow => exact ⟨_, exec_len_of_overlong hp (exists_overlong_of_deep hroot h hdeep), rfl⟩
  case completes =>
    have hfit := codewordLengths_fit hroot ht h
    exact ⟨_, exec_len_of_fits hp hfit, fun x d => length_of_atDepth hroot hfit ht, fun x => length_of_not_reached hroot,
      maxLenRight_of_maxLength (by dsimp only), fun _ => ⟨rfl, rfl, rfl⟩, rfl, rfl, rfl, ⟨rfl, rfl⟩, ⟨rfl, rfl⟩, rfl,
      ⟨rfl, rfl, rfl, rfl⟩, ⟨rfl, rfl⟩, rfl, ⟨rfl, rfl⟩, rfl, rfl⟩

end Sys2Proof.Proofs
end

section
/-! SUPPORT. What every command's rule keeps of the tree, the lengths, the code and the trie in the phases in which they mean
something (R18 to R22, R26, R32). -/

namespace Sys2Proof.Machine

open Sys2Proof.Safety

/-! ### The tree depends on the counts and the node memory -/

theorem atDepth_congr {s t : State} (h : SameTree s t) {x d : Nat} (hx : AtDepth s x d) : AtDepth t x d := by
  obtain ⟨-, hl, hr, hroot, -⟩ := h
  induction hx with
  | root => exact hroot ▸ .root
  | left _ hint ih => exact hl ▸ .left ih hint
  | right _ hint ih => exact hr ▸ .right ih hint

theorem below_congr {s t : State} (h : SameTree s t) {n x : Nat} (hx : Below s n x) : Below t n x := by
  obtain ⟨-, hl, hr, -, -⟩ := h
  induction hx with
  | here => exact .here
  | left hint _ ih => exact .left hint (hl.symm ▸ ih)
  | right hint _ ih => exact .right hint (hr.symm ▸ ih)

theorem sameTree_symm {s t : State} (h : SameTree s t) : SameTree t s := by
  obtain ⟨hw, hl, hr, hroot, hn⟩ := h
  exact ⟨hw.symm, hl.symm, hr.symm, hroot.symm, hn.symm⟩

theorem treeOk_congr {s t : State} (h : TreeOk s) (hcounts : SameCounts s t) (htree : SameTree s t) : TreeOk t := by
  have hdepth {x d : Nat} : AtDepth t x d ↔ AtDepth s x d := ⟨atDepth_congr (sameTree_symm htree), atDepth_congr htree⟩
  have hbelow {n x : Nat} : Below t n x ↔ Below s n x := ⟨below_congr (sameTree_symm htree), below_congr htree⟩
  obtain ⟨-, hfreq⟩ := hcounts
  obtain ⟨hw, hl, hr, hroot, hn⟩ := htree
  exact {
    shaped := {
      childrenSmaller := fun n d hd => by rw [hl, hr]; exact h.shaped.childrenSmaller n d (hdepth.1 hd)
      oneDepth := fun x d e hd he => h.shaped.oneDepth x d e (hdepth.1 hd) (hdepth.1 he) }
    count := by rw [hn, hfreq]; exact h.count
    rootIs := by rw [hroot, hfreq]; exact h.rootIs
    leaves := fun x hx => by simp only [hdepth, IsLeafSymbol, hfreq]; exact h.leaves x hx
    weights := fun x hx => by
      rw [IsLeafSymbol, hfreq] at hx
      rw [hw, leafWeight, hfreq]
      exact h.weights x hx
    sums := fun n d hd => by rw [hw, hl, hr]; exact h.sums n d (hdepth.1 hd)
    disjoint := fun n d x hd => by rw [hl, hr, hbelow, hbelow]; exact h.disjoint n d x (hdepth.1 hd) }

/-! ### Which phases say something -/

/-- In the other phases nothing is claimed. -/
theorem flowInv_of_unbound {s : State} (h : s.phase ∈ [Phase.idle, .count, .hdr, .fault]) : FlowInv s := by
  have key : ∀ p ∈ [Phase.idle, .count, .hdr, .fault],
      p ≠ .tree ∧ p ∉ encodeLengthPhases ∧ p ∉ decodeLengthPhases ∧ p ∉ codePhases ∧ p ≠ .dec := by decide
  obtain ⟨htree, henc, hdec, hcode, htrie⟩ := key _ h
  exact ⟨fun e => absurd e htree, fun e => absurd e henc, fun e => absurd e hdec, fun e => absurd e hcode,
    fun e => absurd e htrie⟩

theorem flowInv_of_fault {s : State} (h : s.phase = .fault) : FlowInv s := flowInv_of_unbound (by rw [h]; decide)

/-- The commands that write neither counts, nor lengths, nor code: packing, the trie, the payload and `EOI`. -/
def Streams : Instr → Bool
  | .whd | .pkb _ | .pke | .tri | .dcb _ | .eoi => true
  | .clr | .cnt _ | .bld | .len | .asg | .rhb _ => false

/-- R81, R32: these lead from a phase in which lengths or code mean something only to others in which they do. -/
theorem phases_of_streams {i : Instr} {p : Phase} (hi : Streams i = true) :
    ∀ q ∈ nextPhases i p,
      q ≠ .tree ∧ (q ∈ encodeLengthPhases → p ∈ encodeLengthPhases) ∧ (q ∈ decodeLengthPhases → p ∈ decodeLengthPhases)
        ∧ p ∈ codePhases := by
  cases i with
  | clr | cnt | bld | len | asg | rhb => cases hi
  | whd | pkb | pke | tri | dcb | eoi =>
    cases p <;> simp [nextPhases, encodeLengthPhases, decodeLengthPhases, codePhases]

theorem phase_dec_of_next_dec {i : Instr} {p : Phase} (hi : i ≠ .tri) (h : Phase.dec ∈ nextPhases i p) : p = .dec := by
  cases i <;> cases p <;> simp [nextPhases] at h hi ⊢

/-- What a command of these leaves of the lengths and the code. -/
theorem streams_frame {i : Instr} (hi : Streams i = true) (s : State) :
    SameCounts s (bodyOf i s) ∧ SameLengths s (bodyOf i s) ∧ SameCodes s (bodyOf i s) := by
  have h := bodyOf_writesOwn i s
  have hclr : i ≠ .clr := by rintro rfl; cases hi
  have hlen : i ≠ .len := by rintro rfl; cases hi
  have hasg : i ≠ .asg := by rintro rfl; cases hi
  refine ⟨h.sameCounts hclr ?cnt, h.sameLengths hclr hlen ?rhb, h.sameCodes hclr hasg⟩ <;>
    (rintro b rfl; cases hi)

/-- R153: the trie was built from the code, or is kept from DEC. -/
theorem streams_trieHeld {i : Instr} {s : State} (hi : Streams i = true) (hq : (bodyOf i s).phase ∈ nextPhases i s.phase)
    (h : FlowInv s) (hdec : (bodyOf i s).phase = .dec) :
    TrieHolds (bodyOf i s).lent (bodyOf i s).code (bodyOf i s).trie := by
  obtain ⟨-, ⟨hlent, -⟩, hcode⟩ := streams_frame hi s
  rw [hlent, hcode]
  by_cases htri : i = .tri
  · subst htri
    obtain ⟨-, hrange, hfree, -⟩ := h.codes (phases_of_streams hi _ hq).2.2.2
    have htrie : (bodyOf .tri s).trie = buildTrie s.lent s.code := by rw [bodyOf, triBody]
    rw [htrie]
    exact buildTrie_holds hrange hfree
  · have htrie : (bodyOf i s).trie = s.trie := (bodyOf_writesOwn i s).sameTrie (by rintro rfl; cases hi) htri
    rw [htrie]
    exact h.trieHeld (phase_dec_of_next_dec htri (hdec ▸ hq))

theorem streams_flowInv {i : Instr} {s : State} (hi : Streams i = true) (hq : (bodyOf i s).phase ∈ nextPhases i s.phase)
    (h : FlowInv s) : FlowInv (bodyOf i s) := by
  obtain ⟨⟨-, hfreq⟩, ⟨hlent, hmax⟩, hcode⟩ := streams_frame hi s
  obtain ⟨htree, henc, hdec, hcodes⟩ := phases_of_streams hi _ hq
  exact {
    tree := fun e => absurd e htree
    encodeLengths := fun e => by
      simp only [IsLeafSymbol, hfreq, hlent]
      exact h.encodeLengths (henc e)
    decodeLengths := fun e => by rw [hlent]; exact h.decodeLengths (hdec e)
    codes := fun _ => by rw [hlent, hmax, hcode]; exact h.codes hcodes
    trieHeld := streams_trieHeld hi hq h }

theorem legal_len_iff {p : Phase} : legal .len p = true ↔ p = .tree := by simp [legal, legalPhases]

/-! ### The commands that make the tree, the lengths and the code -/

theorem bldBody_flowInv {s : State} (hinv : Inv s) (hp : s.phase = .idle ∨ s.phase = .count) :
    FlowInv (bodyOf .bld s) := by
  obtain ⟨t, he, hphase, htree, -⟩ := exec_bld_treeOk hp (freqSum_fits hinv.counts)
  rw [exec_of_legal (legal_bld_iff.2 hp), Host.Outcome.next.injEq] at he
  rw [he]
  have hfalse {l : List Phase} (h : t.phase ∈ l) (hl : Phase.tree ∉ l) : False := hl (hphase ▸ h)
  exact ⟨fun _ => htree, fun h => (hfalse h (by decide)).elim, fun h => (hfalse h (by decide)).elim,
    fun h => (hfalse h (by decide)).elim, fun h => absurd (hphase.symm.trans h) nofun⟩

theorem lenBody_flowInv {s : State} (h : TreeOk s) : FlowInv (lenBody s) := by
  unfold lenBody
  split
  next => exact flowInv_of_fault rfl
  next hfits =>
    have hfit : ∀ p ∈ codewordLengths s, p.2 ≤ Config.lmax := by simpa using hfits
    exact ⟨nofun, fun _ => encodeLengths_of_treeOk h hfit, fun hd => absurd hd (by decide : Phase.lens ∉ decodeLengthPhases),
      fun hc => absurd hc (by decide : Phase.lens ∉ codePhases), nofun⟩

theorem asgBody_flowInv {s : State} (hinv : Inv s) (hp : s.phase = .lens ∨ s.phase = .hdrDone) (h : FlowInv s) :
    FlowInv (asgBody s) := by
  have hmax := hinv.maxlen
  rcases canonicalCodes_cases hmax with ⟨hnone, -⟩ | ⟨table, hsome, hkraft, hassigned, -⟩
  · rw [asgBody, hnone]
    exact flowInv_of_fault rfl
  rw [asgBody, hsome]
  have hM := maxlen_le_lmax s
  have hcodes : CodesAssigned s.lent s.maxlen.toNat table ∧ CodesInRange s.lent table ∧ PrefixFree s.lent table
      ∧ CanonicalOrder s.lent table :=
    ⟨hassigned, codesInRange_of_assigned hassigned hM hmax.1 hkraft, prefixFree_of_assigned hassigned hM hmax.1 hkraft,
      canonicalOrder_of_assigned hassigned⟩
  rcases hp with hp | hp <;> simp only [hp, if_true, reduceCtorEq, if_false]
  · exact ⟨nofun, fun _ => h.encodeLengths (by rw [hp]; decide),
      fun hd => absurd hd (by decide : Phase.codes ∉ decodeLengthPhases), fun _ => hcodes, nofun⟩
  · exact ⟨nofun, fun he => absurd he (by decide : Phase.dcodes ∉ encodeLengthPhases),
      fun _ => h.decodeLengths (by rw [hp]; decide), fun _ => hcodes, nofun⟩

/-- R128: a header that is complete gave END a length, which no symbol byte overwrites. -/
theorem rhbBody_endLength (b : Byte) {s : State} (hinv : Inv s) (hp : s.phase = .idle ∨ s.phase = .hdr)
    (hdone : (rhbBody b s).phase = .hdrDone) : tableGet (rhbBody b s).lent Config.endSym ≠ 0 := by
  have hopen : s.phase ≠ .hdrDone := by rintro e; rw [e] at hp; simp at hp
  rcases rhbBody_cases b s with ⟨-, e⟩ | ⟨-, e⟩ | ⟨-, e⟩ | ⟨-, -, e⟩ | ⟨hpos, heven, e⟩ <;> rw [e] at hdone ⊢
  · cases hdone
  · unfold rhbSizeLow at hdone
    split at hdone
    · cases hdone
    · exact absurd hdone hopen
  · by_cases hb : b = 0
    · rw [hb, rhbEndLength_zero] at hdone
      cases hdone
    · rw [rhbEndLength_of_ne_zero hb, tableGet_tableSet_self]
      exact hb
  · unfold rhbSymbol at hdone
    split at hdone
    · cases hdone
    · exact absurd hdone hopen
  · by_cases hb : b = 0
    · rw [hb, rhbLength_zero] at hdone
      cases hdone
    · rw [rhbLength_of_ne_zero hb heven, tableGet_tableSet_ne _ _ (show s.hsym.toNat < Config.endSym from s.hsym.isLt).ne']
      exact hinv.cursor.endLength (phase_hdr_of_hpos hinv hp (by omega)) (by omega)

theorem rhbBody_flowInv (b : Byte) {s : State} (hinv : Inv s) (hp : s.phase = .idle ∨ s.phase = .hdr)
    (hq : (rhbBody b s).phase ∈ nextPhases (.rhb b) s.phase) : FlowInv (rhbBody b s) := by
  have hend := rhbBody_endLength b hinv hp
  have hphase : (rhbBody b s).phase = .hdr ∨ (rhbBody b s).phase = .hdrDone := by
    rcases hp with hp | hp <;> rw [hp] at hq
    · exact Or.inl (List.mem_singleton.1 hq)
    · exact List.mem_pair.1 hq
  rcases hphase with hphase | hphase
  · exact flowInv_of_unbound (by rw [hphase]; decide)
  · have hfalse {l : List Phase} (h : (rhbBody b s).phase ∈ l) (hl : Phase.hdrDone ∉ l) : False := hl (hphase ▸ h)
    exact ⟨fun h => absurd (hphase.symm.trans h) nofun, fun h => (hfalse h (by decide)).elim, fun _ => hend hphase,
      fun h => (hfalse h (by decide)).elim, fun h => absurd (hphase.symm.trans h) nofun⟩

theorem bodyOf_flowInv {i : Instr} {s : State} (hinv : Inv s) (hl : legal i s.phase = true) (h : FlowInv s) :
    FlowInv (bodyOf i s) := by
  by_cases hfault : (bodyOf i s).phase = .fault
  · exact flowInv_of_fault hfault
  have hq := (bodyOf_followsTable hinv hl).phase_mem hfault
  cases i with
  | clr => exact flowInv_of_unbound (s := clear s) (show Phase.idle ∈ _ by decide)
  | cnt b =>
    have hphase : (bodyOf (.cnt b) s).phase = .count := by
      rcases legal_cnt_iff.1 hl with hp | hp <;> rw [hp] at hq <;> exact List.mem_singleton.1 hq
    exact flowInv_of_unbound (by rw [hphase]; decide)
  | bld => exact bldBody_flowInv hinv (legal_bld_iff.1 hl)
  | len => exact lenBody_flowInv (h.tree (legal_len_iff.1 hl))
  | asg => exact asgBody_flowInv hinv (legal_asg_iff.1 hl) h
  | rhb b => exact rhbBody_flowInv b hinv (legal_rhb_iff.1 hl) hq
  | whd | pkb | pke | tri | dcb | eoi => exact streams_flowInv rfl hq h

/-- What is presented plays no part in these either. -/
theorem flowInv_with_input {s : State} (h : FlowInv s) (l : List Input) : FlowInv { s with input := l } :=
  ⟨fun hp => treeOk_congr (h.tree hp) ⟨rfl, rfl⟩ ⟨rfl, rfl, rfl, rfl, rfl⟩, h.encodeLengths, h.decodeLengths, h.codes,
    h.trieHeld⟩

theorem clear_flowInv (s : State) : FlowInv (clear s) := flowInv_of_unbound (show Phase.idle ∈ _ by decide)

end Sys2Proof.Machine
end

section
/-! The statements of 10_state.md on reset and on the phases in which an element means something, settled. -/

namespace Sys2Proof.Proofs

open Sys2Proof.Machine Sys2Proof.Safety

/-- Settles O49: reset is a cleared block, and IDLE ties no element down. -/
theorem resetHoldsInvariants : Obligations.ResetHoldsInvariants :=
  ⟨clear_inv State.reset, clear_flowInv State.reset⟩

/-- Settles O51: `BLD` makes the tree, `LEN` and `RHB` the lengths, `ASG` the code and `TRI` the trie; the other commands keep
them, and stay among the phases that speak of them. -/
theorem stepKeepsFlowInv : Obligations.StepKeepsFlowInv := fun _ _ hinv hflow hstep =>
  And.right <| step_keeps (P := fun s => Inv s ∧ FlowInv s)
    (fun _ l h => ⟨inv_with_input h.1 l, flowInv_with_input h.2 l⟩)
    (fun s => resetBlock_eq_clear s ▸ ⟨clear_inv _, clear_flowInv _⟩)
    (fun _ w _ hf _ h => ⟨raise_inv h.1 hf w, flowInv_of_fault rfl⟩)
    (fun _ _ hl h => ⟨bodyOf_inv hl h.1, bodyOf_flowInv h.1 hl h.2⟩) ⟨hinv, hflow⟩ hstep

end Sys2Proof.Proofs
end

section
/-! SUPPORT. What `DCB` makes of payload bytes fed one by one (R155 to R158): the one walk of all their bits. -/

namespace Sys2Proof.Machine

open Sys2Proof.Safety

/-- R193: in FAULT the bytes that follow are discarded. -/
theorem issueAll_dcb_of_fault (bs : List Byte) {s : State} (hp : s.phase = .fault) : issueAll (bs.map .dcb) s = s := by
  induction bs with
  | nil => rfl
  | cons b bs ih => rw [List.map_cons, issueAll_cons, issue_of_exec (exec_of_fault (i := .dcb b) nofun hp), ih]

/-- A walk that goes on from where another stopped. -/
theorem afterWalk_of_more (w : Word) (s : State) (q : List Bool) (bs : List Byte) (r : List Byte × WalkEnd) :
    afterWalk w { atPath q s with phase := .dec, out := s.out ++ bs } r = afterWalk w s (bs ++ r.1, r.2) := by
  obtain ⟨out, _ | _ | _⟩ := r <;> simp [afterWalk, atPath, raise]

theorem afterWalk_of_nil (w : Word) {s : State} {p : List Bool} (hp : s.phase = .dec) (hslot : s.slot.toNat = pathSlot p)
    (hdepth : s.depth.toNat = p.length) : afterWalk w s ([], .more p) = s := by
  show { atPath p s with phase := .dec, out := s.out ++ [] } = s
  rw [← eq_atPath hslot hdepth, List.append_nil, ← hp]

/-- Only the word that a fault records tells which byte the walk ended in. -/
theorem issueAll_dcb_of_dec (bs : List Byte) {s : State} {p : List Bool} (hp : s.phase = .dec)
    (hslot : s.slot.toNat = pathSlot p) (hdepth : s.depth.toNat = p.length) (hle : p.length ≤ s.maxlen.toNat) :
    ∃ w, issueAll (bs.map .dcb) s = afterWalk w s (walkPath s.trie s.maxlen.toNat p (streamBits bs)) := by
  induction bs generalizing s p with
  | nil => exact ⟨0, (afterWalk_of_nil 0 hp hslot hdepth).symm⟩
  | cons b bs ih =>
    have hwithin := walkPath_endWithin s.trie (byteBits b) hle
    rw [List.map_cons, issueAll_cons, issue_of_exec (exec_dcb_of_dec b hp hslot hdepth hle), streamBits_cons,
      walkPath_append]
    generalize walkPath s.trie s.maxlen.toNat p (byteBits b) = r at hwithin ⊢
    obtain ⟨out, q | _ | q⟩ := r
    case more =>
      have hq : q.length ≤ s.maxlen.toNat := hwithin
      have hmax := hq.trans (maxlen_le_lmax s)
      obtain ⟨w, hw⟩ := ih (s := { atPath q s with phase := .dec, out := s.out ++ out }) (p := q) rfl
        (atPath_slot_toNat hmax s) (atPath_depth_toNat hmax s) hq
      exact ⟨w, hw.trans (afterWalk_of_more w s q out _)⟩
    case ended => exact ⟨_, issueAll_dcb_of_decDone bs rfl⟩
    case stuck => exact ⟨_, issueAll_dcb_of_fault bs rfl⟩

end Sys2Proof.Machine
end

section
/-! The statements of 46_bit_trie_decoder.md on a whole payload, settled. -/

namespace Sys2Proof.Proofs

open Sys2Proof.Machine Sys2Proof.Safety

/-- Settles O41: the walk of each byte goes on where that of the bytes before it stopped. -/
theorem payloadBytesAreOneWalk : Obligations.PayloadBytesAreOneWalk := by
  intro bs s path hp hslot hdepth hle
  obtain ⟨w, hw⟩ := issueAll_dcb_of_dec bs hp hslot hdepth hle
  have hwithin := walkPath_endWithin s.trie (streamBits bs) hle
  rw [hw]
  generalize walkPath s.trie s.maxlen.toNat path (streamBits bs) = r at hwithin ⊢
  refine ⟨afterWalk_out w s r, ?_⟩
  obtain ⟨out, q | _ | q⟩ := r
  case more =>
    have hmax := le_trans (b := s.maxlen.toNat) hwithin (maxlen_le_lmax s)
    exact ⟨rfl, atPath_slot_toNat hmax s, atPath_depth_toNat hmax s⟩
  case ended => rfl
  case stuck => exact ⟨rfl, rfl⟩

/-- Settles O42: the one walk meets the codewords of the sequence and then END's. -/
theorem walkRecognisesCodewords : Obligations.WalkRecognisesCodewords := by
  intro s T bs rest hp hslot hdepth hmax hrange hfree hholds hend hT hbits
  have hcode : TrieCode s.lent s.code s.trie s.maxlen.toNat := ⟨hrange, hfree, hholds, fun a ha => hmax.1 a ha.1⟩
  obtain ⟨w, hw⟩ := issueAll_dcb_of_dec bs (p := []) hp (by rw [hslot]; rfl) (by rw [hdepth]; rfl) (Nat.zero_le _)
  have hstart : s = atPath [] s := eq_atPath (by rw [hslot]; rfl) (by rw [hdepth]; rfl)
  rw [hw, hbits, hcode.walk_codewords T hT hend rest]
  show { atPath [] s with phase := .decDone, out := s.out ++ T } = _
  rw [← hstart]

end Sys2Proof.Proofs
end

section
/-! SUPPORT. `MAXLEN` is determined by the lengths (R22), and what is fed while the header is read is issued (R130). -/

namespace Sys2Proof.Machine

open Sys2Proof.Safety

theorem largest_le {lent : Table 8} {m n : Byte} (hm : m ≠ 0 → ∃ a, a ≤ Config.endSym ∧ tableGet lent a = m)
    (hn : ∀ a, a ≤ Config.endSym → (tableGet lent a).toNat ≤ n.toNat) : m.toNat ≤ n.toNat := by
  by_cases hzero : m = 0
  · rw [hzero]
    exact Nat.zero_le _
  · obtain ⟨a, ha, rfl⟩ := hm hzero
    exact hn a ha

theorem eq_maxLength {s : State} (h : MaxLenRight s) : s.maxlen = maxLength s.lent := by
  obtain ⟨hle, hattained⟩ := h
  obtain ⟨hle', hattained'⟩ := maxLength_spec s.lent
  exact BitVec.eq_of_toNat_eq (Nat.le_antisymm (largest_le hattained hle') (largest_le hattained' hle))

theorem issueAll_rhb_of_feedHeader {Z : List Byte} {s t : State} (h : feedHeader Z s = (t, [])) :
    issueAll (Z.map .rhb) s = t := by
  induction Z generalizing s with
  | nil => exact congrArg Prod.fst h
  | cons b Z ih =>
    rw [feedHeader] at h
    split at h
    · exact ih h
    · cases (Prod.mk.inj h).2

/-- R12: a block in IDLE is a block just reset, behind what it has emitted. -/
theorem eq_behind_reset {s : State} (h : FreshPhases s) (hp : s.phase = .idle) : s = behind s.input s.out State.reset :=
  (h.idle hp).trans (clear_eq_behind s)

end Sys2Proof.Machine
end

section
/-! The statement of 44_header_codec.md on the round trip, settled. -/

namespace Sys2Proof.Proofs

open Sys2Proof.Machine Sys2Proof.Safety

/-- Settles O33: the header fed gives the lengths back with their maximum, and from these `ASG` gives the same values. -/
theorem headerRoundTrip : Obligations.HeaderRoundTrip := by
  intro e d he hflow hp hd hidle
  obtain ⟨hcoded, hkraft, -⟩ := hflow.encodeLengths (by rw [hp]; decide)
  obtain ⟨hcodes, -⟩ := hflow.codes (by rw [hp]; decide)
  have hend : tableGet e.lent Config.endSym ≠ 0 := (hcoded _ le_rfl).2 (Or.inl rfl)
  obtain ⟨t, hfeed, hphase, -, hlent, hmax⟩ := feedHeader_headerBytes he.tables.lent hend []
  rw [← eq_maxLength he.maxlen] at hmax
  have hread : issueAll ((headerBytes e.lent).map .rhb) d = behind d.input d.out t := by
    rw [List.append_nil] at hfeed
    refine (congrArg _ (eq_behind_reset hd.fresh hidle)).trans ?_
    rw [issueAll_blind, issueAll_rhb_of_feedHeader hfeed]
  obtain ⟨table, hasg, hassigned, -⟩ := exec_asg_of_kraft_le (s := behind d.input d.out t) (Or.inr hphase)
    (maxLenRight_congr he.maxlen ⟨hlent, hmax⟩) (show kraftSum t.lent ≤ kraftOne by rw [hlent]; exact hkraft)
  have hlast : issueAll ((headerBytes e.lent).map .rhb ++ [.asg]) d = issue .asg (behind d.input d.out t) := by
    rw [issueAll_append, hread, issueAll_cons, issueAll_nil]
  refine ⟨_, headerBytes e.lent, exec_whd hp, rfl, ?_⟩
  rw [hread, hlast, issue_of_exec hasg]
  refine ⟨hphase, hlent, hmax, if_neg (by rw [show (behind d.input d.out t).phase = .hdrDone from hphase]; nofun),
    fun a ha => BitVec.eq_of_toNat_eq ?_⟩
  have hsame : CodesAssigned e.lent e.maxlen.toNat table := hlent ▸ hmax ▸ hassigned
  rw [hcodes a ha]
  exact hsame a ha

end Sys2Proof.Proofs
end

section
/-! SUPPORT. What a command emits (R28, R43, R47): the same whatever was emitted before, and how many bytes at most. -/

namespace Sys2Proof.Machine

open Sys2Proof.Safety

/-! ### What is emitted does not depend on what was -/

/-- The bytes a command emits from a state. -/
def emitted (i : Instr) (s : State) : List Byte := (issue i { s with out := [] }).out

theorem behind_same_input {ins : List Input} {t : State} (o : List Byte) (h : t.input = ins) :
    behind ins o t = { t with out := o ++ t.out } := by
  rw [← h]
  rfl

/-- R28: `OUT` is appended to and not read. -/
theorem issue_with_out (i : Instr) (s : State) (o : List Byte) :
    issue i { s with out := o } = { issue i { s with out := [] } with out := o ++ emitted i s } := by
  have hin : (issue i { s with out := [] }).input = s.input := by
    rw [issue_eq]
    exact (sequenced_writesOwn i { s with out := [] }).1
  have hbehind : { s with out := o } = behind s.input o { s with out := [] } := by simp [behind]
  rw [hbehind, issue_blind]
  exact behind_same_input o hin

theorem issue_out (i : Instr) (s : State) : (issue i s).out = s.out ++ emitted i s :=
  congrArg State.out (issue_with_out i s s.out)

theorem issue_with_other_out (i : Instr) (s : State) (o : List Byte) :
    issue i { s with out := o } = { issue i s with out := o ++ emitted i s } := by
  rw [issue_with_out i s o, issue_with_out i s s.out]

/-! ### How much a command emits -/

/-- The most bytes a command emits (R47). -/
def emitLimit : Instr → Nat
  | .whd => 515
  | .pkb _ => 32
  | .pke => 33
  | .dcb _ => 8
  | .clr | .cnt _ | .bld | .len | .asg | .rhb _ | .tri | .eoi => 0

/-- From `s` to `t` at most `n` bytes were emitted. -/
def EmitsAtMost (n : Nat) (s t : State) : Prop := ∃ bs, t.out = s.out ++ bs ∧ bs.length ≤ n

theorem emitsAtMost_of_sameOut {s t : State} (n : Nat) (h : SameOut s t) : EmitsAtMost n s t :=
  ⟨[], by rw [List.append_nil]; exact h, Nat.zero_le n⟩

/-- R155: a walk emits at most one byte for each bit. -/
theorem walkBits_emitsAtMost (w : Word) (arg : Byte) (k : Nat) (s : State) : EmitsAtMost k s (walkBits w arg k s) := by
  induction k generalizing s with
  | zero => exact emitsAtMost_of_sameOut 0 rfl
  | succ k ih =>
    rcases walkBits_succ w arg k s with ⟨-, e⟩ | ⟨-, -, e⟩ | ⟨-, sym, -, -, e⟩ | ⟨-, sym, -, -, e⟩ <;> rw [e]
    · exact emitsAtMost_of_sameOut _ rfl
    · obtain ⟨bs, hout, hle⟩ := ih (stepDown (operandBit arg k) s)
      exact ⟨bs, hout, Nat.le_succ_of_le hle⟩
    · exact emitsAtMost_of_sameOut _ rfl
    · obtain ⟨bs, hout, hle⟩ := ih { s with slot := 0, depth := 0, out := s.out ++ [symbolByte sym] }
      exact ⟨symbolByte sym :: bs, by rw [hout, List.append_assoc]; rfl, Nat.succ_le_succ hle⟩

theorem dcbBody_emitsAtMost (b : Byte) (s : State) : EmitsAtMost 8 s (dcbBody b s) := by
  unfold dcbBody
  split
  · exact emitsAtMost_of_sameOut _ rfl
  · exact walkBits_emitsAtMost ..

/-- R125: three bytes, and two for each of at most 256 byte values. -/
theorem whdBody_emitsAtMost (s : State) : EmitsAtMost 515 s (whdBody s) := by
  refine ⟨headerBytes s.lent, rfl, ?_⟩
  rw [headerBytes_length]
  exact Nat.add_le_add_left (Nat.mul_le_mul_left 2 (codedBytes_length_le s.lent)) 3

section Packing

variable {s : State} (hs : AccHeld s)
include hs

theorem heldWithCodeword_length_le (sym : Nat) : s.nacc.toNat + (codewordOf s.lent s.code sym).length ≤ 262 := by
  have h7 := hs.atMostSeven
  have hlen := (tableGet s.lent sym).isLt
  rw [codewordOf_length]
  omega

/-- R142: seven bits held and a codeword of 255 are 32 bytes and six bits. -/
theorem pkbBody_emitsAtMost (b : Byte) : EmitsAtMost 32 s (pkbBody b s) := by
  unfold pkbBody
  split
  · exact emitsAtMost_of_sameOut _ rfl
  · obtain ⟨hheld, bs, hpacked, hbits⟩ := appendCodeword_packs (operandIndex b) hs
    have hle := heldWithCodeword_length_le hs (operandIndex b)
    refine ⟨bs, congrArg State.out hpacked, ?_⟩
    rw [(counts_of_streamBits_append hheld hbits).1]
    omega

/-- R143: the flush adds a byte for what is left. -/
theorem pkeBody_emitsAtMost (hp : s.phase = .pack) : EmitsAtMost 33 s (pkeBody s) := by
  obtain ⟨bs, hexec, hbits⟩ := exec_pke hp hs
  have hbody : pkeBody s = _ := Host.Outcome.next.inj ((exec_of_legal (legal_pke_iff.2 hp)).symm.trans hexec)
  have hle := heldWithCodeword_length_le hs Config.endSym
  refine ⟨bs, congrArg State.out hbody, ?_⟩
  rw [length_of_streamBits_eq_padToByte hbits, List.length_append, pendingBits_length]
  omega

theorem bodyOf_emitsAtMost {i : Instr} (hl : legal i s.phase = true) : EmitsAtMost (emitLimit i) s (bodyOf i s) := by
  cases i with
  | whd => exact whdBody_emitsAtMost s
  | pkb b => exact pkbBody_emitsAtMost hs b
  | pke => exact pkeBody_emitsAtMost hs (legal_pke_iff.1 hl)
  | dcb b => exact dcbBody_emitsAtMost b s
  | clr | cnt | bld | len | asg | rhb | tri | eoi =>
    exact emitsAtMost_of_sameOut _ ((bodyOf_writesOwn _ s).sameOut nofun nofun nofun nofun)

theorem emitted_length_le (i : Instr) : (emitted i s).length ≤ emitLimit i := by
  obtain ⟨bs, hout, hle⟩ : EmitsAtMost (emitLimit i) s (issue i s) := by
    rw [issue_eq]
    exact sequenced_keeps (emitsAtMost_of_sameOut _ rfl) (bodyOf_emitsAtMost hs) fun _ => emitsAtMost_of_sameOut _ rfl
  rw [issue_out] at hout
  exact List.append_cancel_left hout ▸ hle

end Packing

theorem exec_eq_issue (i : Instr) (s : State) : exec i s = .next (issue i s) := by rw [issue_eq, exec_eq]

end Sys2Proof.Machine
end

section
/-! The statement of 10_state.md on the output stream, settled. -/

namespace Sys2Proof.Proofs

open Sys2Proof.Machine Sys2Proof.Safety

/-- Settles O14: no command's rule reads `OUT`, and each emits no more than its codewords, its table or its bits give. -/
theorem outIsAppendedToAndNeverRead : Obligations.OutIsAppendedToAndNeverRead := fun i s hs =>
  ⟨issue i s, emitted i s, exec_eq_issue i s, issue_out i s,
    fun o => by rw [exec_eq_issue, issue_with_other_out], by
      have hle := emitted_length_le hs i
      cases i <;> exact hle⟩

end Sys2Proof.Proofs
end

section
/-! SUPPORT. What a command reads (R86): from two blocks that agree on that and on `PHASE`, its rule does the same. -/

namespace Sys2Proof.Machine

open Sys2Proof.Safety

/-- From `s` to `t` and from `s'` to `t'` the same bytes were emitted. -/
def EmitAlike (s s' t t' : State) : Prop := ∃ bs, t.out = s.out ++ bs ∧ t'.out = s'.out ++ bs

theorem emitAlike_of_sameOut {s s' t t' : State} (h : SameOut s t) (h' : SameOut s' t') : EmitAlike s s' t t' :=
  ⟨[], by rw [List.append_nil]; exact h, by rw [List.append_nil]; exact h'⟩

theorem EmitAlike.trans {s s' t t' u u' : State} (h : EmitAlike s s' t t') (hu : EmitAlike t t' u u') :
    EmitAlike s s' u u' := by
  obtain ⟨bs, e, e'⟩ := h
  obtain ⟨cs, f, f'⟩ := hu
  exact ⟨bs ++ cs, by rw [f, e, List.append_assoc], by rw [f', e', List.append_assoc]⟩

/-- The command did the same from `s` to `t` and from `s'` to `t'`, as far as R86 has it depend on what it reads. -/
structure RunsAlike (i : Instr) (s s' t t' : State) : Prop where
  out : EmitAlike s s' t t'
  phase : t.phase = t'.phase
  err : t.phase = .fault → SameErr t t'
  written : t.phase ≠ .fault → WritesAgree i s s' t t'

theorem runsAlike_of_raise (i : Instr) (f : Err) (w : Word) (s s' : State) :
    RunsAlike i s s' (raise f w s) (raise f w s') :=
  ⟨emitAlike_of_sameOut rfl rfl, rfl, fun _ => ⟨rfl, rfl⟩, fun h => absurd rfl h⟩

theorem runsAlike_of_completed {i : Instr} {s s' t t' : State} (hout : EmitAlike s s' t t') (hp : t.phase = t'.phase)
    (hne : t.phase ≠ .fault) (hw : WritesAgree i s s' t t') : RunsAlike i s s' t t' :=
  ⟨hout, hp, fun h => absurd h hne, fun _ => hw⟩

/-! ### The encode flow -/

theorem cntBody_alike (b : Byte) {s s' : State} (h : ReadsAgree (.cnt b) s s') :
    RunsAlike (.cnt b) s s' (cntBody b s) (cntBody b s') := by
  obtain ⟨hn, hf⟩ := h
  unfold cntBody
  rw [← hn]
  split
  · exact runsAlike_of_raise ..
  · refine runsAlike_of_completed (emitAlike_of_sameOut rfl rfl) rfl nofun ⟨rfl, ?_⟩
    simp only [operandIndex_eq, tableGet_tableSet_self, hf]

theorem presentSymbols_eq_of_below {s s' : State} (h : ∀ x, x < Config.endSym → tableGet s.freq x = tableGet s'.freq x) :
    presentSymbols s.freq = presentSymbols s'.freq :=
  List.filter_congr fun x hx => by rw [h x (List.mem_range.1 hx)]

theorem bldBody_alike {s s' : State} (h : ReadsAgree .bld s s') :
    RunsAlike .bld s s' (bldBody Config.emptyReject s) (bldBody Config.emptyReject s') := by
  have hpresent := presentSymbols_eq_of_below h
  unfold bldBody
  rw [← hpresent]
  split
  next => exact runsAlike_of_completed (emitAlike_of_sameOut rfl rfl) rfl nofun ⟨rfl, rfl⟩
  next hne =>
    refine runsAlike_of_completed (emitAlike_of_sameOut rfl rfl) rfl nofun
      ⟨BitVec.eq_of_toNat_eq ?root, BitVec.eq_of_toNat_eq ?nint⟩
    case root => rw [bldTree_root hne, bldTree_root (hpresent ▸ hne), hpresent]
    case nint => rw [bldTree_nint, bldTree_nint, hpresent]

theorem lenBody_alike {s s' : State} (h : ReadsAgree .len s s') : RunsAlike .len s s' (lenBody s) (lenBody s') := by
  obtain ⟨hl, hr, hroot⟩ := h
  have hlengths : codewordLengths s' = codewordLengths s := by rw [codewordLengths, codewordLengths, hl, hr, hroot]
  unfold lenBody
  rw [hlengths]
  split
  · exact runsAlike_of_raise ..
  · exact runsAlike_of_completed (emitAlike_of_sameOut rfl rfl) rfl nofun ⟨⟨rfl, rfl⟩, rfl, rfl, rfl, rfl, rfl⟩

/-- R115, R118: whether the assignment completes, and the values it gives the symbols of length 1 to `MAXLEN`, do not depend
on the old code. -/
theorem canonicalCodes_of_any (lent : Table 8) (maxlen : Byte) (old : Table Config.codeW) :
    (canonicalCodes lent maxlen old = none ∧ ¬ BucketsFit lent maxlen.toNat maxlen.toNat)
      ∨ ∃ table, canonicalCodes lent maxlen old = some table ∧ BucketsFit lent maxlen.toNat maxlen.toNat
        ∧ ∀ a, Coded lent a → tableGet lent a ≤ maxlen → (tableGet table a).toNat = canonicalValue lent maxlen.toNat a := by
  rcases assignFrom_cases (lent := lent) (a := { code := 0, table := old }) (Nat.le_of_lt_succ maxlen.isLt) le_rfl
      (startAt_self _ _).symm ((startAt_self _ _).trans_le (Nat.zero_le _)) with ⟨h, hbad⟩ | ⟨b, h, hgood, hdone, -⟩
  · exact Or.inl ⟨by rw [canonicalCodes, h]; rfl, hbad⟩
  · exact Or.inr ⟨b.table, by rw [canonicalCodes, h]; rfl, hgood, hdone⟩

theorem asgBody_alike {s s' : State} (hp : s.phase = s'.phase) (h : ReadsAgree .asg s s') :
    RunsAlike .asg s s' (asgBody s) (asgBody s') := by
  obtain ⟨hlent, hmax⟩ := h
  have hs := canonicalCodes_of_any s.lent s.maxlen s.code
  have hs' := canonicalCodes_of_any s.lent s.maxlen s'.code
  unfold asgBody
  rw [← hlent, ← hmax, ← hp]
  rcases hs with ⟨e, hbad⟩ | ⟨table, e, hfit, hvalue⟩ <;> rcases hs' with ⟨e', hbad'⟩ | ⟨table', e', hfit', hvalue'⟩
  · rw [e, e']
    exact runsAlike_of_raise ..
  · exact absurd hfit' hbad
  · exact absurd hfit hbad'
  · rw [e, e']
    refine runsAlike_of_completed (emitAlike_of_sameOut rfl rfl) rfl ?_ fun a ha hle =>
      BitVec.eq_of_toNat_eq ((hvalue a ha hle).trans (hvalue' a ha hle).symm)
    dsimp only
    split <;> nofun

theorem whdBody_alike {s s' : State} (h : ReadsAgree .whd s s') : RunsAlike .whd s s' (whdBody s) (whdBody s') :=
  runsAlike_of_completed ⟨headerBytes s.lent, rfl, congrArg (fun l => s'.out ++ headerBytes l) (Eq.symm h)⟩ rfl nofun
    ⟨rfl, rfl⟩

/-! ### Packing -/

theorem appendBit_alike (bit : Bool) {s s' : State} (h : SameAcc s s') :
    SameAcc (appendBit bit s) (appendBit bit s') ∧ EmitAlike s s' (appendBit bit s) (appendBit bit s') := by
  obtain ⟨hacc, hnacc⟩ := h
  unfold appendBit
  rw [hacc, hnacc]
  split
  · exact ⟨⟨rfl, rfl⟩, [shiftIn s.acc bit], rfl, rfl⟩
  · exact ⟨⟨rfl, rfl⟩, emitAlike_of_sameOut rfl rfl⟩

theorem appendBits_alike (c : CodeVal) (L : Nat) {s s' : State} (h : SameAcc s s') :
    SameAcc (appendBits c L s) (appendBits c L s') ∧ EmitAlike s s' (appendBits c L s) (appendBits c L s') := by
  induction L generalizing s s' with
  | zero => exact ⟨h, emitAlike_of_sameOut rfl rfl⟩
  | succ L ih =>
    obtain ⟨hacc, hout⟩ := appendBit_alike (c.getLsbD L) h
    obtain ⟨hacc', hout'⟩ := ih hacc
    exact ⟨hacc', hout.trans hout'⟩

theorem appendCodeword_alike (sym : Nat) {s s' : State} (hlent : s.lent = s'.lent) (hcode : SameCodes s s')
    (h : SameAcc s s') :
    SameAcc (appendCodeword sym s) (appendCodeword sym s')
      ∧ EmitAlike s s' (appendCodeword sym s) (appendCodeword sym s') := by
  unfold appendCodeword
  rw [← hlent, show s'.code = s.code from hcode]
  exact appendBits_alike _ _ h

theorem flush_alike {s s' : State} (h : SameAcc s s') :
    SameAcc (flush s) (flush s') ∧ EmitAlike s s' (flush s) (flush s') := by
  have hsame := h
  obtain ⟨hacc, hnacc⟩ := h
  unfold flush paddedByte
  rw [hacc, hnacc]
  split
  · exact ⟨hsame, emitAlike_of_sameOut rfl rfl⟩
  · exact ⟨⟨rfl, rfl⟩, [s.acc <<< (8 - s.nacc.toNat)], rfl, rfl⟩

theorem pkbBody_alike (b : Byte) {s s' : State} (h : ReadsAgree (.pkb b) s s') :
    RunsAlike (.pkb b) s s' (pkbBody b s) (pkbBody b s') := by
  obtain ⟨hlent, hcode, hacc⟩ := h
  obtain ⟨hacc', hout⟩ := appendCodeword_alike (operandIndex b) hlent hcode hacc
  unfold pkbBody
  rw [← hlent]
  split
  · exact runsAlike_of_raise ..
  · exact runsAlike_of_completed hout rfl nofun hacc'

theorem pkeBody_alike {s s' : State} (h : ReadsAgree .pke s s') : RunsAlike .pke s s' (pkeBody s) (pkeBody s') := by
  obtain ⟨hlent, hcode, hacc⟩ := h
  obtain ⟨hacc', hout⟩ := appendCodeword_alike Config.endSym hlent hcode hacc
  obtain ⟨hflushed, hout'⟩ := flush_alike hacc'
  exact runsAlike_of_completed (hout.trans hout') rfl nofun hflushed

/-! ### The header -/

/-- An entry that a write changed holds what was written. -/
theorem tableGet_tableSet_of_changed {w x y : Nat} {t : Table w} {v : BitVec w}
    (h : tableGet (tableSet t y v) x ≠ tableGet t x) (t' : Table w) :
    tableGet (tableSet t y v) x = tableGet (tableSet t' y v) x := by
  by_cases hx : x = y
  · rw [hx, tableGet_tableSet_self, tableGet_tableSet_self]
  · exact absurd (tableGet_tableSet_ne _ _ hx) h

section Header

variable (b : Byte) {s s' : State} (hp : s.phase = s'.phase) (hne : s.phase ≠ .fault) (h : SameCursor s s')
include h

theorem rhbSizeHigh_alike : RunsAlike (.rhb b) s s' (rhbSizeHigh b s) (rhbSizeHigh b s') := by
  obtain ⟨-, hsize, hsym, hprev⟩ := h
  exact runsAlike_of_completed (emitAlike_of_sameOut rfl rfl) rfl nofun
    ⟨⟨rfl, congrArg (fun n : BitVec 16 => b ++ n.extractLsb' 0 8) hsize, hsym, hprev⟩, fun x hx => absurd rfl hx, id⟩

include hp hne

theorem rhbSizeLow_alike : RunsAlike (.rhb b) s s' (rhbSizeLow b s) (rhbSizeLow b s') := by
  obtain ⟨-, hsize, hsym, hprev⟩ := h
  unfold rhbSizeLow sizeWithLow
  rw [hsize]
  split
  · exact runsAlike_of_raise ..
  · exact runsAlike_of_completed (emitAlike_of_sameOut rfl rfl) hp hne
      ⟨⟨rfl, rfl, hsym, hprev⟩, fun x hx => absurd rfl hx, id⟩

theorem rhbEndLength_alike : RunsAlike (.rhb b) s s' (rhbEndLength b s) (rhbEndLength b s') := by
  obtain ⟨-, hsize, hsym, hprev⟩ := h
  unfold rhbEndLength
  rw [hsize]
  split
  next => exact runsAlike_of_raise ..
  next =>
    exact runsAlike_of_completed (emitAlike_of_sameOut rfl rfl)
      (congrArg (fun p => if s.hsize = 1 then Phase.hdrDone else p) hp) (phase_or_hdrDone_ne_fault hne _)
      ⟨⟨rfl, rfl, hsym, hprev⟩, fun x hx => tableGet_tableSet_of_changed hx _, fun _ => rfl⟩

theorem rhbSymbol_alike : RunsAlike (.rhb b) s s' (rhbSymbol b s) (rhbSymbol b s') := by
  obtain ⟨hpos, hsize, -, hprev⟩ := h
  unfold rhbSymbol
  rw [hpos, hprev]
  split
  · exact runsAlike_of_raise ..
  · exact runsAlike_of_completed (emitAlike_of_sameOut rfl rfl) hp hne
      ⟨⟨rfl, hsize, rfl, rfl⟩, fun x hx => absurd rfl hx, id⟩

theorem rhbLength_alike : RunsAlike (.rhb b) s s' (rhbLength b s) (rhbLength b s') := by
  obtain ⟨hpos, hsize, hsym, -⟩ := h
  unfold rhbLength
  rw [hpos, hsize, hsym]
  split
  next => exact runsAlike_of_raise ..
  next =>
    refine runsAlike_of_completed (emitAlike_of_sameOut rfl rfl)
      (congrArg (fun p => if (s.hpos + 1).toNat = 3 + 2 * (s.hsize.toNat - 1) then Phase.hdrDone else p) hp)
      (phase_or_hdrDone_ne_fault hne _)
      ⟨⟨rfl, rfl, rfl, rfl⟩, fun x hx => tableGet_tableSet_of_changed hx _, fun hmax => ?_⟩
    exact congrArg (fun m => umax m b) hmax

theorem rhbBody_alike : RunsAlike (.rhb b) s s' (rhbBody b s) (rhbBody b s') := by
  have hpos : s'.hpos = s.hpos := h.1
  unfold rhbBody
  rw [hpos]
  split_ifs
  · exact rhbSizeHigh_alike b h
  · exact rhbSizeLow_alike b hp hne h
  · exact rhbEndLength_alike b hp hne h
  · exact rhbSymbol_alike b hp hne h
  · exact rhbLength_alike b hp hne h

end Header

/-! ### The decode flow -/

theorem triBody_alike {s s' : State} (h : ReadsAgree .tri s s') : RunsAlike .tri s s' (triBody s) (triBody s') := by
  obtain ⟨hlent, hcode⟩ := h
  refine runsAlike_of_completed (emitAlike_of_sameOut rfl rfl) rfl nofun ⟨?_, rfl, rfl⟩
  rw [SameTrie, triBody_trie, triBody_trie, hlent, show s'.code = s.code from hcode]

section WalkStep

variable (w : Word) (arg : Byte) (k : Nat) {s : State}

theorem walkBits_of_deepest (h : s.depth = s.maxlen) : walkBits w arg (k + 1) s = raise .corruptStream w s := if_pos h

variable (hd : s.depth ≠ s.maxlen)
include hd

theorem walkBits_of_empty (hf : assocFind s.trie (child s.slot (operandBit arg k)).toNat = none) :
    walkBits w arg (k + 1) s = walkBits w arg k (stepDown (operandBit arg k) s) := by
  rcases walkBits_succ w arg k s with ⟨h, -⟩ | ⟨-, -, e⟩ | ⟨-, sym, h, -⟩ | ⟨-, sym, h, -⟩
  · exact absurd h hd
  · exact e
  all_goals cases hf.symm.trans h

variable {sym : Symbol} (hf : assocFind s.trie (child s.slot (operandBit arg k)).toNat = some sym)
include hf

theorem walkBits_of_end (hend : sym.toNat = Config.endSym) :
    walkBits w arg (k + 1) s = { s with slot := 0, depth := 0, phase := .decDone } := by
  rcases walkBits_succ w arg k s with ⟨h, -⟩ | ⟨-, h, -⟩ | ⟨-, _, -, -, e⟩ | ⟨-, sym', h, hbyte, -⟩
  · exact absurd h hd
  · cases hf.symm.trans h
  · exact e
  · cases hf.symm.trans h
    exact absurd hend hbyte

theorem walkBits_of_byte (hbyte : sym.toNat ≠ Config.endSym) :
    walkBits w arg (k + 1) s = walkBits w arg k { s with slot := 0, depth := 0, out := s.out ++ [symbolByte sym] } := by
  rcases walkBits_succ w arg k s with ⟨h, -⟩ | ⟨-, h, -⟩ | ⟨-, sym', h, hend, -⟩ | ⟨-, sym', h, -, e⟩
  · exact absurd h hd
  all_goals cases hf.symm.trans h
  · exact absurd hend hbyte
  · exact e

end WalkStep

/-- R155: the walk reads the trie, where it stands and `MAXLEN`. -/
theorem walkBits_alike (b : Byte) (k : Nat) {s s' : State} (h : ReadsAgree (.dcb b) s s') :
    RunsAlike (.dcb b) s s' (walkBits (encodeWord (.dcb b)) b k s) (walkBits (encodeWord (.dcb b)) b k s') := by
  induction k generalizing s s' with
  | zero => exact runsAlike_of_completed (emitAlike_of_sameOut rfl rfl) rfl nofun h.2.1
  | succ k ih =>
    obtain ⟨htrie, ⟨hslot, hdepth⟩, hmax⟩ := h
    by_cases hd : s.depth = s.maxlen
    · rw [walkBits_of_deepest _ _ _ hd, walkBits_of_deepest _ _ _ (hdepth.trans (hd.trans hmax))]
      exact runsAlike_of_raise ..
    have hd' : s'.depth ≠ s'.maxlen := by rw [hdepth, ← hmax]; exact hd
    have hsame : assocFind s'.trie (child s'.slot (operandBit b k)).toNat
        = assocFind s.trie (child s.slot (operandBit b k)).toNat := by rw [show s'.trie = s.trie from htrie, hslot]
    cases hf : assocFind s.trie (child s.slot (operandBit b k)).toNat with
    | none =>
      rw [walkBits_of_empty _ _ _ hd hf, walkBits_of_empty _ _ _ hd' (hsame.trans hf)]
      have hrest := ih (s := stepDown (operandBit b k) s) (s' := stepDown (operandBit b k) s')
        ⟨htrie, ⟨congrArg (child · (operandBit b k)) hslot, congrArg (· + 1) hdepth⟩, hmax⟩
      exact ⟨hrest.out, hrest.phase, hrest.err, hrest.written⟩
    | some sym =>
      by_cases hend : sym.toNat = Config.endSym
      · rw [walkBits_of_end _ _ _ hd hf hend, walkBits_of_end _ _ _ hd' (hsame.trans hf) hend]
        exact runsAlike_of_completed (emitAlike_of_sameOut rfl rfl) rfl nofun ⟨rfl, rfl⟩
      · rw [walkBits_of_byte _ _ _ hd hf hend, walkBits_of_byte _ _ _ hd' (hsame.trans hf) hend]
        have hrest := ih (s := { s with slot := 0, depth := 0, out := s.out ++ [symbolByte sym] })
          (s' := { s' with slot := 0, depth := 0, out := s'.out ++ [symbolByte sym] }) ⟨htrie, ⟨rfl, rfl⟩, hmax⟩
        have hbyte : EmitAlike s s' { s with slot := 0, depth := 0, out := s.out ++ [symbolByte sym] }
            { s' with slot := 0, depth := 0, out := s'.out ++ [symbolByte sym] } := ⟨_, rfl, rfl⟩
        exact ⟨hbyte.trans hrest.out, hrest.phase, hrest.err, hrest.written⟩

theorem dcbBody_alike (b : Byte) {s s' : State} (hp : s.phase = s'.phase) (h : ReadsAgree (.dcb b) s s') :
    RunsAlike (.dcb b) s s' (dcbBody b s) (dcbBody b s') := by
  unfold dcbBody
  rw [← hp]
  split
  next hdone =>
    exact runsAlike_of_completed (emitAlike_of_sameOut rfl rfl) hp (by rw [hdone]; nofun) h.2.1
  next => exact walkBits_alike b 8 h

/-! ### Every command -/

theorem clear_alike (s s' : State) : RunsAlike .clr s s' (clear s) (clear s') :=
  runsAlike_of_completed (emitAlike_of_sameOut rfl rfl) rfl nofun
    ⟨⟨rfl, rfl⟩, ⟨rfl, rfl⟩, ⟨rfl, rfl, rfl, rfl, rfl⟩, ⟨rfl, rfl⟩, rfl, ⟨rfl, rfl, rfl, rfl⟩, ⟨rfl, rfl⟩, rfl, rfl, rfl⟩

theorem eoiBody_alike {s s' : State} (hp : s.phase = s'.phase) (hl : legal .eoi s.phase = true) :
    RunsAlike .eoi s s' (eoiBody s) (eoiBody s') := by
  unfold eoiBody
  rw [← hp]
  have hne := phase_ne_fault_of_legal (i := .eoi) nofun hl
  split
  · exact runsAlike_of_raise ..
  · exact runsAlike_of_raise ..
  · exact runsAlike_of_raise ..
  · exact runsAlike_of_raise ..
  all_goals exact runsAlike_of_completed (emitAlike_of_sameOut rfl rfl) hp hne trivial

theorem bodyOf_alike {i : Instr} {s s' : State} (hl : legal i s.phase = true) (hp : s.phase = s'.phase)
    (h : ReadsAgree i s s') : RunsAlike i s s' (bodyOf i s) (bodyOf i s') := by
  cases i with
  | clr => exact clear_alike s s'
  | cnt b => exact cntBody_alike b h
  | bld => exact bldBody_alike h
  | len => exact lenBody_alike h
  | asg => exact asgBody_alike hp h
  | whd => exact whdBody_alike h
  | pkb b => exact pkbBody_alike b h
  | pke => exact pkeBody_alike h
  | rhb b => exact rhbBody_alike b hp (phase_ne_fault_of_legal (i := .rhb b) nofun hl) h
  | tri => exact triBody_alike h
  | dcb b => exact dcbBody_alike b hp h
  | eoi => exact eoiBody_alike hp hl

end Sys2Proof.Machine
end

section
/-! The statement of 40_sequencer.md on what a unit reads, settled. -/

namespace Sys2Proof.Proofs

open Sys2Proof.Machine Sys2Proof.Safety

/-- Settles O13: a legal command's rule does the same from both states; an illegal one is discarded or refused by `PHASE`
alone. -/
theorem unitsReadOnlyTheirState : Obligations.UnitsReadOnlyTheirState := by
  intro i s s' hp hreads
  by_cases hl : legal i s.phase = true
  · obtain ⟨⟨bs, hout, hout'⟩, hphase, herr, hwritten⟩ := bodyOf_alike hl hp hreads
    exact ⟨_, _, bs, exec_of_legal hl, exec_of_legal (hp ▸ hl), hout, hout', ⟨hphase, fun _ => herr⟩, fun _ => hwritten⟩
  have hillegal := Bool.eq_false_iff.2 hl
  have hnil (t : State) : t.out = t.out ++ [] := (List.append_nil _).symm
  by_cases hf : s.phase = .fault
  · have hclr : i ≠ .clr := by
      rintro rfl
      exact hl (by rw [hf]; rfl)
    exact ⟨s, s', [], exec_of_fault hclr hf, exec_of_fault hclr (hp ▸ hf), hnil s, hnil s', ⟨hp, fun h => absurd hf h⟩,
      fun h => absurd h hl⟩
  · exact ⟨_, _, [], exec_of_illegal hillegal hf, exec_of_illegal (hp ▸ hillegal) (hp ▸ hf), hnil s, hnil s',
      ⟨rfl, fun _ _ => ⟨rfl, rfl⟩⟩, fun h => absurd h hl⟩

end Sys2Proof.Proofs
end
